-- ==== Sys2Proof/Word.lean ====
section
/-! DEFINITION. The datapath word and the byte (R7, R8). -/

namespace Sys2Proof

/-- A datapath word, exactly 32 bits, unsigned; `+` on it is addition modulo 2^32 (R7, R9). -/
abbrev Word := BitVec 32

/-- A byte of the message or of a digest (R11, R43). -/
abbrev Byte := BitVec 8

end Sys2Proof
end

