-- ==== Sys2Proof/Syntax.lean ====
section
/-! DEFINITION. The commands (30_encoding.md R84): one constructor for each row of spec/opcode_table.json. -/

namespace Sys2Proof

/-- A command of the core. Its data operands are registers or the message buffer; only the rotations carry a field (R82). -/
inductive Instr where
  /-- ROTL (R104): rotate UA left by `amt`, an amount 0..31, into UY. -/
  | rotl (amt : Nat)
  /-- ROTR (R105): rotate UA right by `amt`, an amount 0..31, into UY. -/
  | rotr (amt : Nat)
  /-- PACKBE (R106): pack UB0..UB3 big-endian into UY. -/
  | packbe
  /-- UNPACKBE (R107): unpack UA big-endian into UB0..UB3. -/
  | unpackbe
  /-- SHA1.INIT (R153): start a new SHA-1 message. -/
  | sha1Init
  /-- SHA1.BLOCK (R154): process the next block. -/
  | sha1Block
  /-- SHA1.RUN (R155): hash the whole message. -/
  | sha1Run
  /-- SHA256.INIT (R195): start a new SHA-256 message. -/
  | sha256Init
  /-- SHA256.BLOCK (R196): process the next block. -/
  | sha256Block
  /-- SHA256.RUN (R197): hash the whole message. -/
  | sha256Run
  deriving DecidableEq, Repr

/-- A row of the opcode map of R84: a command word belongs to the row when `(CW & mask) = pattern`. -/
structure OpcodeRow where
  /-- The mnemonic as the table has it. -/
  mnemonic : String
  /-- The column `match`. -/
  pattern : Word
  /-- The column `mask`. -/
  mask : Word
  deriving DecidableEq, Repr

/-- Why a command word is illegal: the three kinds of R85. The core records only ERR_ILL, never the reason (R221; log 19). -/
inductive Illegal where
  /-- RSV != 0 (R83). -/
  | reservedBits
  /-- The OPC is not in the map (R84). -/
  | unassignedOpcode
  /-- AMT != 0 with an OPC other than ROTL and ROTR (R80). -/
  | amountNotZero
  deriving DecidableEq, Repr

end Sys2Proof
end

