-- ==== Sys2Proof/WellFormed.lean ====
section
/-! DEFINITION. Which instructions the encoding admits (R82: a rotate amount is 0..31). -/

namespace Sys2Proof

/-- The instruction has an encoding: a rotate amount lies in 0..31 (R82, R88); the other commands have no field. -/
def Instr.wellFormed (i : Instr) : Bool :=
  match i with
  | .rotl amt => decide (amt ≤ 31)
  | .rotr amt => decide (amt ≤ 31)
  | .packbe => true
  | .unpackbe => true
  | .sha1Init => true
  | .sha1Block => true
  | .sha1Run => true
  | .sha256Init => true
  | .sha256Block => true
  | .sha256Run => true

end Sys2Proof
end

