-- ==== Sys2Proof/Decode.lean ====
section
/-! DEFINITION. The decoder of command words (R80 to R86), total, rejecting by name, and the encoder. -/

namespace Sys2Proof

/-- `OPC = CW[7:0]` (R81). -/
def opcField (cw : Word) : BitVec 8 := cw.extractLsb' 0 8

/-- `AMT = CW[12:8]` (R82). -/
def amtField (cw : Word) : BitVec 5 := cw.extractLsb' 8 5

/-- `RSV = CW[31:13]` (R83). -/
def rsvField (cw : Word) : BitVec 19 := cw.extractLsb' 13 19

/-- A command that takes no amount: AMT must be 0 (R80, R85). -/
def withoutAmount (amt : BitVec 5) (i : Instr) : Except Illegal Instr :=
  if amt = 0 then .ok i else .error .amountNotZero

/-- The decoder of R85. Every 32-bit word is one legal command or illegal, and an illegal word is rejected by its reason. -/
def decode (cw : Word) : Except Illegal Instr :=
  if rsvField cw ≠ 0 then .error .reservedBits
  else
    match (opcField cw).toNat with
    | 0x01 => .ok (.rotl (amtField cw).toNat)
    | 0x02 => .ok (.rotr (amtField cw).toNat)
    | 0x03 => withoutAmount (amtField cw) .packbe
    | 0x04 => withoutAmount (amtField cw) .unpackbe
    | 0x10 => withoutAmount (amtField cw) .sha1Init
    | 0x11 => withoutAmount (amtField cw) .sha1Block
    | 0x12 => withoutAmount (amtField cw) .sha1Run
    | 0x20 => withoutAmount (amtField cw) .sha256Init
    | 0x21 => withoutAmount (amtField cw) .sha256Block
    | 0x22 => withoutAmount (amtField cw) .sha256Run
    | _ => .error .unassignedOpcode

/-- The word with the given AMT and OPC and RSV = 0: the format CW of R80. -/
def commandWord (amt : BitVec 5) (opc : BitVec 8) : Word := (0 : BitVec 19) ++ amt ++ opc

/-- The encoder, from the opcode map of R84. An amount above 31, which no command word can hold (R82), is taken modulo 32 (DESIGN
CHOICE, log 14); such an instruction is not well-formed. -/
def encode (i : Instr) : Word :=
  match i with
  | .rotl amt => commandWord (BitVec.ofNat 5 amt) 0x01
  | .rotr amt => commandWord (BitVec.ofNat 5 amt) 0x02
  | .packbe => commandWord 0 0x03
  | .unpackbe => commandWord 0 0x04
  | .sha1Init => commandWord 0 0x10
  | .sha1Block => commandWord 0 0x11
  | .sha1Run => commandWord 0 0x12
  | .sha256Init => commandWord 0 0x20
  | .sha256Block => commandWord 0 0x21
  | .sha256Run => commandWord 0 0x22

/-- The opcode map of R84, with its columns `match` and `mask`, transcribed row by row. The decoder above is written from the
fields, not from this table; a statement says that the two agree. -/
def opcodeMap : List OpcodeRow :=
  [⟨"ROTL", 0x00000001, 0xFFFFE0FF⟩,
   ⟨"ROTR", 0x00000002, 0xFFFFE0FF⟩,
   ⟨"PACKBE", 0x00000003, 0xFFFFFFFF⟩,
   ⟨"UNPACKBE", 0x00000004, 0xFFFFFFFF⟩,
   ⟨"SHA1.INIT", 0x00000010, 0xFFFFFFFF⟩,
   ⟨"SHA1.BLOCK", 0x00000011, 0xFFFFFFFF⟩,
   ⟨"SHA1.RUN", 0x00000012, 0xFFFFFFFF⟩,
   ⟨"SHA256.INIT", 0x00000020, 0xFFFFFFFF⟩,
   ⟨"SHA256.BLOCK", 0x00000021, 0xFFFFFFFF⟩,
   ⟨"SHA256.RUN", 0x00000022, 0xFFFFFFFF⟩]

/-- The mnemonic of an instruction, as the opcode map spells it. -/
def Instr.mnemonic (i : Instr) : String :=
  match i with
  | .rotl _ => "ROTL"
  | .rotr _ => "ROTR"
  | .packbe => "PACKBE"
  | .unpackbe => "UNPACKBE"
  | .sha1Init => "SHA1.INIT"
  | .sha1Block => "SHA1.BLOCK"
  | .sha1Run => "SHA1.RUN"
  | .sha256Init => "SHA256.INIT"
  | .sha256Block => "SHA256.BLOCK"
  | .sha256Run => "SHA256.RUN"

/-- `(CW & mask) = match`, the test of R84. -/
def OpcodeRow.accepts (r : OpcodeRow) (cw : Word) : Bool := cw &&& r.mask == r.pattern

/-- The word whose low `nbits` bits are those of `w`, numbered as spec/opcode_table.json numbers them, and whose other bits
are 0. A command is one 32-bit word, so the first word is all of it (R80, R87). -/
def tableWord (nbits w : Nat) : Word := BitVec.ofNat 32 (w % 2 ^ nbits)

/-- The instruction the decoder reads from `tableWord nbits w`, none where it refuses. -/
def decodeTableWord (nbits w : Nat) : Option Instr := (decode (tableWord nbits w)).toOption

end Sys2Proof
end

