-- ==== Sys2Proof/Config.lean ====
section
/-! DEFINITION. What an implementation fixes (R6) and the free values. An `opaque` constant here has no body: nothing can be
proved of its value, so a statement about the model holds whatever it is. -/

namespace Sys2Proof

/-- The three agents of R237. -/
inductive Agent where
  /-- The bus master. -/
  | host
  /-- The SHA-1 engine. -/
  | sha1
  /-- The SHA-256 engine. -/
  | sha256
  deriving DecidableEq, Repr

namespace Config

/-- `REG_BASE`, the base bus address of the register window (R6, R61). -/
def regBase : Nat := 0x00000000

/-- The size of the register window in bytes (R61). -/
def regWindow : Nat := 0x400

/-- `MSG_BASE`, the base bus address of the message buffer (R6, R61). -/
def msgBase : Nat := 0x00100000

/-- The least `MAX_MSG_BYTES` R6 permits. -/
def minCapacity : Nat := 1000000

/-- The greatest `MAX_MSG_BYTES` R6 permits. -/
def maxCapacity : Nat := 0xFFF00000

/-- What picks `MAX_MSG_BYTES` in its range; any number (log 1). -/
opaque capacitySeed : Nat

/-- `MAX_MSG_BYTES`, the capacity of the message buffer in bytes: some number of R6's range, and no more is known of it
(U10: a parameter; log 1, safe). -/
def maxMsgBytes : Nat := capacitySeed % (maxCapacity - minCapacity + 1) + minCapacity

/-- The free value of the `n`-th draw of a data word: a host read of Hn or BLKn while busy (R38, U1; log 4, safe). -/
opaque freeWord : Nat → Word

/-- The free value of the `n`-th draw of a data byte: a host read of DOUTn while busy (R38, U1) or of an unwritten message byte
(R63, U3; logs 3 and 4, safe). -/
opaque freeByte : Nat → Byte

/-- The free stretch of turns drawn for the `n`-th time: any finite list of agents (R70, R237, U11; log 6, safe). -/
opaque freeTurns : Nat → List Agent

end Config

end Sys2Proof
end

