-- ==== Sys2Proof/Machine/State.lean ====
section
/-! DEFINITION. The state of the core (10_state.md), of the host agent and of the schedule, as plain data, and its value after
reset. INVENTORY.md's '## State' lists every field with its rule. -/

namespace Sys2Proof.Machine

open Sys2Proof

/-- The states of an engine's state machine (R40, R41, R148, R190). -/
inductive Phase where
  | idle
  | load
  | sched
  | round
  | add
  deriving DecidableEq, Repr

/-- `mode1` and `mode2` (R40, R41): SINGLE stops after one block, ALL goes on to the last block. -/
inductive RunMode where
  | single
  | all
  deriving DecidableEq, Repr

/-- The SHA-1 working registers `a1 .. e1` (R40). -/
structure Work1 where
  a : Word
  b : Word
  c : Word
  d : Word
  e : Word
  deriving DecidableEq, Repr

/-- The SHA-256 working registers `a2 .. h2` (R41). -/
structure Work2 where
  a : Word
  b : Word
  c : Word
  d : Word
  e : Word
  f : Word
  g : Word
  h : Word
  deriving DecidableEq, Repr

/-- The state of the SHA-1 engine: the private state of R40 and the host-visible H1, BLK1, NBLK1 and DONE1. -/
structure Sha1Engine where
  /-- `st1`. -/
  st : Phase
  /-- `t1`; its used range is 0..79 (R40, R21; log 10). -/
  t : Fin 80
  /-- `mode1`. -/
  mode : RunMode
  /-- `L1`, the latched length in bytes. -/
  len : Word
  /-- `W1[0..79]`. -/
  w : Vector Word 80
  /-- `a1 .. e1`. -/
  work : Work1
  /-- `H1[0..4]` (R33). -/
  h : Vector Word 5
  /-- `BLK1` (R37). -/
  blk : Word
  /-- `NBLK1` (R37). -/
  nblk : Word
  /-- `DONE1` (R29). -/
  done : Bool
  deriving DecidableEq, Repr

/-- The state of the SHA-256 engine: the private state of R41 and the host-visible H2, BLK2, NBLK2 and DONE2. -/
structure Sha256Engine where
  /-- `st2`. -/
  st : Phase
  /-- `t2`, 6 bits. -/
  t : Fin 64
  /-- `mode2`. -/
  mode : RunMode
  /-- `L2`, the latched length in bytes. -/
  len : Word
  /-- `W2[0..63]`. -/
  w : Vector Word 64
  /-- `a2 .. h2`. -/
  work : Work2
  /-- `H2[0..7]` (R34). -/
  h : Vector Word 8
  /-- `BLK2` (R37). -/
  blk : Word
  /-- `NBLK2` (R37). -/
  nblk : Word
  /-- `DONE2` (R29). -/
  done : Bool
  deriving DecidableEq, Repr

/-- A written byte of the message buffer is a cell, its key the byte's bus address; an address with no cell is unwritten (R43;
log 9). -/
abbrev Memory := List Host.Cell

/-- The canonical form of a memory: addresses strictly rising. An unlisted address holds no value, so no entry can equal it. -/
abbrev Memory.wf (m : Memory) : Prop := m.Pairwise (fun x y => x.1 < y.1)

/-- The named registers of the map of R25. -/
inductive Reg where
  | cmd
  | status
  | len
  | ua
  | uy
  | ub (k : Fin 4)
  | h1 (k : Fin 5)
  | h2 (k : Fin 8)
  | blk1
  | nblk1
  | blk2
  | nblk2
  | dout1 (k : Fin 20)
  | dout2 (k : Fin 32)
  deriving DecidableEq, Repr

/-- The four error bits of R221. -/
inductive ErrorBit where
  | ill
  | busy
  | seq
  | len
  deriving DecidableEq, Repr

/-- A host bus access (R60): its byte address, its width in bytes and, for a write, the data. -/
inductive Access where
  | read (addr : Word) (width : Nat)
  | write (addr : Word) (width : Nat) (value : Word)
  deriving DecidableEq, Repr

/-- The response to an access (R60): OKAY, with the data of a read, or BUS_ERROR, recorded with the access (R64). -/
inductive Response where
  /-- No access has been made yet. -/
  | none
  /-- OKAY to a write. -/
  | okay
  /-- OKAY to a read that returned `value`. -/
  | data (value : Word)
  /-- BUS_ERROR. -/
  | busError (access : Access)
  deriving DecidableEq, Repr

/-- What the host does next (R88, R238). -/
inductive HostOp where
  /-- One bus access. -/
  | access (a : Access)
  /-- BNZ (R88): read `reg` and go to statement `target` if `(value & mask) != 0`. -/
  | bnz (target : Nat) (reg : Reg) (mask : Word)
  /-- Assert the reset input (R238, R250). -/
  | reset
  deriving DecidableEq, Repr

/-- The state of the machine. -/
structure State where
  /-- UA (R25). -/
  ua : Word
  /-- UY (R25). -/
  uy : Word
  /-- UB0, bits [7:0]; the others are RAZ/WI (R25). -/
  ub0 : Byte
  /-- UB1. -/
  ub1 : Byte
  /-- UB2. -/
  ub2 : Byte
  /-- UB3. -/
  ub3 : Byte
  /-- LEN (R32). -/
  len : Word
  /-- STATUS[11:8]: bit 0 is ERR_ILL, 1 ERR_BUSY, 2 ERR_SEQ, 3 ERR_LEN (R27; log 12). -/
  err : BitVec 4
  /-- The message buffer (R43). -/
  mem : Memory
  /-- The SHA-1 engine. -/
  sha1 : Sha1Engine
  /-- The SHA-256 engine. -/
  sha256 : Sha256Engine
  /-- The host's program (R88; log 7). -/
  prog : List HostOp
  /-- The index of the host's next statement (log 7). -/
  hpc : Nat
  /-- The response to the host's last access (R60, R64; log 7). -/
  resp : Response
  /-- Who has the next turns (R70, R237; log 6). -/
  sched : List Agent
  /-- How often a free stretch of turns was drawn (log 6). -/
  rounds : Nat
  /-- How many free data values were drawn (log 4). -/
  draws : Nat
  deriving DecidableEq, Repr

/-- Why a step stops. -/
inductive Fault where
  /-- `UnwrittenMessageByte(i)` (R66, U2): raised by an engine's LOAD step that reads byte `i` of the message, below its latched
  length, which the host never wrote. Safe: the hardware goes on with some value, so a claim is only lost. -/
  | unwrittenMessageByte (i : Nat)
  deriving DecidableEq, Repr

/-- Why an instruction has no meaning. -/
inductive Refusal where
  /-- Raised by an arm of `exec` whose instruction has no meaning yet. Safe. No arm raises it now. -/
  | notModelled (mnemonic : String)
  deriving DecidableEq, Repr

/-- The SHA-1 engine after reset (R40, R250). R40 leaves W1 and a1..e1 unspecified; 0 is the model's own choice (DESIGN CHOICE,
log 2). -/
def Sha1Engine.reset : Sha1Engine where
  st := .idle
  t := 0
  mode := .single
  len := 0
  w := Vector.replicate 80 0
  work := ⟨0, 0, 0, 0, 0⟩
  h := Vector.replicate 5 0
  blk := 0
  nblk := 0
  done := false

/-- The SHA-256 engine after reset (R41, R250). R41 leaves W2 and a2..h2 unspecified; 0 is the model's own choice (DESIGN CHOICE,
log 2). -/
def Sha256Engine.reset : Sha256Engine where
  st := .idle
  t := 0
  mode := .single
  len := 0
  w := Vector.replicate 64 0
  work := ⟨0, 0, 0, 0, 0, 0, 0, 0⟩
  h := Vector.replicate 8 0
  blk := 0
  nblk := 0
  done := false

/-- The machine right after reset (R250, R252, R253): every register 0, the engines IDLE, every message byte unwritten. The
host's program is empty and no turn is scheduled (DESIGN CHOICE, logs 6 and 7). -/
def State.reset : State where
  ua := 0
  uy := 0
  ub0 := 0
  ub1 := 0
  ub2 := 0
  ub3 := 0
  len := 0
  err := 0
  mem := []
  sha1 := Sha1Engine.reset
  sha256 := Sha256Engine.reset
  prog := []
  hpc := 0
  resp := .none
  sched := []
  rounds := 0
  draws := 0

end Sys2Proof.Machine
end

