-- ==== Sys2Proof/Machine/Flags.lean ====
section
/-! DEFINITION. The STATUS register (R27 to R31): the only status indications of the core (R23). -/

namespace Sys2Proof.Machine

open Sys2Proof

/-- `BUSY1 = (st1 != IDLE)` (R28). -/
def busy1 (s : State) : Bool := decide (s.sha1.st ≠ .idle)

/-- `BUSY2 = (st2 != IDLE)` (R28). -/
def busy2 (s : State) : Bool := decide (s.sha256.st ≠ .idle)

/-- STATUS as the host reads it (R27): [11:8] the error bits, [3] DONE2, [2] BUSY2, [1] DONE1, [0] BUSY1, all else 0. -/
def statusWord (s : State) : Word :=
  (0 : BitVec 20) ++ s.err ++ (0 : BitVec 4) ++ BitVec.ofBool s.sha256.done ++ BitVec.ofBool (busy2 s) ++
    BitVec.ofBool s.sha1.done ++ BitVec.ofBool (busy1 s)

end Sys2Proof.Machine
end

