-- ==== Sys2Proof/Machine/Bits.lean ====
section
/-! DEFINITION. The primitive functions: shifts (R9), rotations (R100, R101) and big-endian packing (R102, R103). -/

namespace Sys2Proof.Machine

open Sys2Proof

/-- `shr32(x, n)`, the logical right shift: zeros enter at bit 31 (R9). -/
def shr32 (x : Word) (n : Nat) : Word := x >>> n

/-- `shl32(x, n) = (x * 2^n) mod 2^32` (R9). -/
def shl32 (x : Word) (n : Nat) : Word := x <<< n

/-- `rotl32(x, n)` for `n` in 0..31 (R100). No command encodes another amount (R82; log 14). -/
def rotl32 (x : Word) (n : Nat) : Word :=
  if n = 0 then x else shl32 x n ||| shr32 x (32 - n)

/-- `rotr32(x, n)` for `n` in 0..31 (R101). -/
def rotr32 (x : Word) (n : Nat) : Word :=
  if n = 0 then x else shr32 x n ||| shl32 x (32 - n)

/-- `packBE(b0, b1, b2, b3)`: `b0` lands in bits [31:24] (R102). -/
def packBE (b0 b1 b2 b3 : Byte) : Word := b0 ++ b1 ++ b2 ++ b3

/-- Byte `k` of `unpackBE(w)`, `k` in 0..3: the bits `[31 - 8k : 24 - 8k]` (R103, R35). -/
def unpackByte (w : Word) (k : Nat) : Byte := w.extractLsb' (24 - 8 * k) 8

/-- `unpackBE(w)`, element 0 first (R103). -/
def unpackBE (w : Word) : List Byte :=
  [unpackByte w 0, unpackByte w 1, unpackByte w 2, unpackByte w 3]

/-- `zext_32` of a byte (R9). -/
def zextByte (b : Byte) : Word := b.setWidth 32

end Sys2Proof.Machine
end

