-- ==== Sys2Proof/Machine/Ops.lean ====
section
/-! DEFINITION. The named operations over the message buffer, the error bits and the free values. Raising an error is the core's
counterpart of taking an exception and clearing error bits its counterpart of returning from one (R229, R230). -/

namespace Sys2Proof.Machine

open Sys2Proof

/-- The byte at bus address `a`, none where nothing was written (R43). -/
def memGet (m : Memory) (a : Nat) : Option Byte :=
  match m with
  | [] => none
  | c :: rest => if c.1 = a then some c.2 else memGet rest a

/-- `m` with the byte `b` at bus address `a` (R63), in canonical form. -/
def memSet (m : Memory) (a : Nat) (b : Byte) : Memory :=
  match m with
  | [] => [(a, b)]
  | c :: rest =>
    if a < c.1 then (a, b) :: c :: rest
    else if a = c.1 then (a, b) :: rest
    else c :: memSet rest a b

/-- `MsgByte(i)`: byte `i` of the message buffer is at `MSG_BASE + i` (R61, R66). -/
def msgByte (m : Memory) (i : Nat) : Option Byte := memGet m (Config.msgBase + i)

/-- `m` with byte `i` of the message buffer written (R63). -/
def setMsgByte (m : Memory) (i : Nat) (b : Byte) : Memory := memSet m (Config.msgBase + i) b

/-- The place of an error bit in STATUS[11:8] (R27, R221). -/
def ErrorBit.mask (e : ErrorBit) : BitVec 4 :=
  match e with
  | .ill => 0b0001
  | .busy => 0b0010
  | .seq => 0b0100
  | .len => 0b1000

/-- `raise ERR_X` (R222): set the sticky bit; nothing else changes, and the command or access ends. No state is saved and no
control is transferred (R229). -/
def raiseError (e : ErrorBit) (s : State) : State := { s with err := s.err ||| e.mask }

/-- A host write of `v` to STATUS: `STATUS[11:8] <- STATUS[11:8] & ~v[11:8]` (R31), the counterpart of a trap return (R230). -/
def clearErrors (v : Word) (s : State) : State := { s with err := s.err &&& ~~~(v.extractLsb' 8 4) }

/-- The next free value of a word, and the state that has used it (R38, U1; log 4). -/
def drawWord (s : State) : Word × State := (Config.freeWord s.draws, { s with draws := s.draws + 1 })

/-- The next free value of a byte, and the state that has used it (R38, R63, U1, U3; logs 3 and 4). -/
def drawByte (s : State) : Byte × State := (Config.freeByte s.draws, { s with draws := s.draws + 1 })

end Sys2Proof.Machine
end

