-- ==== Sys2Proof/Machine/Operands.lean ====
section
/-! DEFINITION. The operand forms of the commands: the utility registers (R22, R104 to R107) and LEN (R32). -/

namespace Sys2Proof.Machine

open Sys2Proof

/-- `n <= MAX_MSG_BYTES`. The ends of the parameter's range (R6) are tested first: below the least capacity the answer is yes
and above the greatest it is no for every permitted capacity, so that the test can be evaluated there. `withinCapacity_iff` of
Sys2Proof/Laws/Capacity.lean says that this is `n ≤ Config.maxMsgBytes`. -/
def withinCapacity (n : Nat) : Bool :=
  decide (n ≤ Config.minCapacity) || (decide (n ≤ Config.maxCapacity) && decide (n ≤ Config.maxMsgBytes))

/-- The bytes UB0..UB3 packed big-endian: the source of PACKBE (R106). -/
def packedUb (s : State) : Word := packBE s.ub0 s.ub1 s.ub2 s.ub3

/-- The destination UY of the utility commands (R104 to R106). -/
def setUy (v : Word) (s : State) : State := { s with uy := v }

/-- The destinations UB0..UB3 of UNPACKBE, written with the bytes of `v` in order (R107). -/
def setUbs (v : Word) (s : State) : State :=
  { s with ub0 := unpackByte v 0, ub1 := unpackByte v 1, ub2 := unpackByte v 2, ub3 := unpackByte v 3 }

/-- Register UBk (R25). -/
def getUb (k : Fin 4) (s : State) : Byte :=
  match k with
  | 0 => s.ub0
  | 1 => s.ub1
  | 2 => s.ub2
  | 3 => s.ub3

/-- A write of UBk: bits [7:0] are kept, bits [31:8] are RAZ/WI (R24, R25). -/
def setUb (k : Fin 4) (b : Byte) (s : State) : State :=
  match k with
  | 0 => { s with ub0 := b }
  | 1 => { s with ub1 := b }
  | 2 => { s with ub2 := b }
  | 3 => { s with ub3 := b }

end Sys2Proof.Machine
end

