-- ==== Sys2Proof/Machine/Padding.lean ====
section
/-! DEFINITION. The padding both engines share (42_padding.md), computed when a LOAD step needs it: no padded copy exists. -/

namespace Sys2Proof.Machine

open Sys2Proof

/-- `nblocks(L) = floor((L + 8) / 64) + 1` (R121). -/
def nblocks (len : Nat) : Nat := (len + 8) / 64 + 1

/-- The padded byte `P(L, i)` for `0 <= i < 64 * nblocks(L)` (R122). A message byte that was never written is the fault
`UnwrittenMessageByte(i)` (R66, U2; log 5). -/
def padByte (m : Memory) (len : Word) (i : Nat) : Except Fault Byte :=
  let total := 64 * nblocks len.toNat
  if i < len.toNat then
    match msgByte m i with
    | some b => .ok b
    | none => .error (.unwrittenMessageByte i)
  else if i = len.toNat then .ok 0x80
  else if i < total - 8 then .ok 0x00
  else .ok (BitVec.ofNat 8 ((8 * len.toNat) >>> (8 * (7 - (i - (total - 8))))))

/-- The padded word `PW(L, j)` for `0 <= j < 16 * nblocks(L)` (R123), its bytes read in order. -/
def padWord (m : Memory) (len : Word) (j : Nat) : Except Fault Word := do
  let b0 ← padByte m len (4 * j)
  let b1 ← padByte m len (4 * j + 1)
  let b2 ← padByte m len (4 * j + 2)
  let b3 ← padByte m len (4 * j + 3)
  return packBE b0 b1 b2 b3

/-- The `n` padded words from word `j` on, read in order. -/
def padWords (m : Memory) (len : Word) (j n : Nat) : Except Fault (List Word) :=
  match n with
  | 0 => .ok []
  | n + 1 => do
    let w ← padWord m len j
    let ws ← padWords m len (j + 1) n
    return w :: ws

/-- The 16 words of block `b` of the padded message (R124). -/
def blockWords (m : Memory) (len : Word) (b : Nat) : Except Fault (List Word) := padWords m len (16 * b) 16

/-- The schedule `v` with the words `ws` stored from index `k` on. -/
def storeWords {n : Nat} (k : Nat) (ws : List Word) (v : Vector Word n) : Vector Word n :=
  match ws with
  | [] => v
  | x :: rest => storeWords (k + 1) rest (v.setIfInBounds k x)

end Sys2Proof.Machine
end

