-- ==== Sys2Proof/Machine/Sha1.lean ====
section
/-! DEFINITION. The SHA-1 engine (43_sha1.md): its functions, its state machine and its three commands. -/

namespace Sys2Proof.Machine

open Sys2Proof

/-- `IV1` (R140). -/
def iv1 : Vector Word 5 := #v[0x67452301, 0xEFCDAB89, 0x98BADCFE, 0x10325476, 0xC3D2E1F0]

/-- The choice function (R142, R182). -/
def ch (x y z : Word) : Word := (x &&& y) ^^^ (~~~x &&& z)

/-- The majority function (R142, R182). -/
def maj (x y z : Word) : Word := (x &&& y) ^^^ (x &&& z) ^^^ (y &&& z)

/-- The parity function (R142). -/
def parity (x y z : Word) : Word := x ^^^ y ^^^ z

/-- The mixing function of round `t` (R142; PRESUMED by the spec itself as general knowledge, log 16). -/
def f1 (t : Nat) (x y z : Word) : Word :=
  if t ≤ 19 then ch x y z
  else if t ≤ 39 then parity x y z
  else if t ≤ 59 then maj x y z
  else parity x y z

/-- The band constant of round `t` (R143; PRESUMED by the spec itself as general knowledge, log 16). -/
def ks1 (t : Nat) : Word :=
  if t ≤ 19 then 0x5A827999
  else if t ≤ 39 then 0x6ED9EBA1
  else if t ≤ 59 then 0x8F1BBCDC
  else 0xCA62C1D6

/-- The schedule word that follows from the words 3, 8, 14 and 16 places earlier (R141). -/
def sched1 (w3 w8 w14 w16 : Word) : Word := rotl32 (w3 ^^^ w8 ^^^ w14 ^^^ w16) 1

/-- Round `t` on the working registers with schedule word `wt`, one simultaneous assignment (R144; PRESUMED by the spec itself
as general knowledge, log 16). -/
def round1 (t : Nat) (wt : Word) (r : Work1) : Work1 where
  a := rotl32 r.a 5 + f1 t r.b r.c r.d + r.e + ks1 t + wt
  b := r.a
  c := rotl32 r.b 30
  d := r.c
  e := r.d

/-- The working registers loaded from the running state (R145, R149). -/
def workOf1 (h : Vector Word 5) : Work1 := ⟨h[0], h[1], h[2], h[3], h[4]⟩

/-- The add-back (R145). -/
def addBack1 (h : Vector Word 5) (r : Work1) : Vector Word 5 :=
  #v[h[0] + r.a, h[1] + r.b, h[2] + r.c, h[3] + r.d, h[4] + r.e]

/-- `W1[t1 - k]`. Where SCHED runs, `t1` is at least 16 and `k` at most 16 (R150; log 15). -/
def Sha1Engine.wBack (e : Sha1Engine) (k : Nat) : Word := e.w[e.t.val - k]'(by omega)

/-- The LOAD step (R149). -/
def sha1Load (m : Memory) (e : Sha1Engine) : Except Fault Sha1Engine := do
  let ws ← blockWords m e.len e.blk.toNat
  return { e with w := storeWords 0 ws e.w, work := workOf1 e.h, t := 16, st := .sched }

/-- The SCHED step (R150). -/
def sha1Sched (e : Sha1Engine) : Sha1Engine :=
  let e' := { e with w := e.w.set e.t (sched1 (e.wBack 3) (e.wBack 8) (e.wBack 14) (e.wBack 16)) }
  if h : e.t.val = 79 then { e' with t := 0, st := .round }
  else { e' with t := ⟨e.t.val + 1, by omega⟩ }

/-- The ROUND step (R151). -/
def sha1Round (e : Sha1Engine) : Sha1Engine :=
  let e' := { e with work := round1 e.t e.w[e.t] e.work }
  if h : e.t.val = 79 then { e' with st := .add }
  else { e' with t := ⟨e.t.val + 1, by omega⟩ }

/-- The ADD step (R152). -/
def sha1Add (e : Sha1Engine) : Sha1Engine :=
  let e' := { e with h := addBack1 e.h e.work, blk := e.blk + 1 }
  if e.blk + 1 = e.nblk then { e' with done := true, st := .idle }
  else
    match e.mode with
    | .all => { e' with st := .load }
    | .single => { e' with st := .idle }

/-- The one step `st1` names (R148); an idle engine has none and stays as it is (R236). -/
def sha1Step (m : Memory) (e : Sha1Engine) : Except Fault Sha1Engine :=
  match e.st with
  | .idle => .ok e
  | .load => sha1Load m e
  | .sched => .ok (sha1Sched e)
  | .round => .ok (sha1Round e)
  | .add => .ok (sha1Add e)

/-- `n` steps of the engine over one memory, stopping at a fault. -/
def sha1Steps (m : Memory) (n : Nat) (e : Sha1Engine) : Except Fault Sha1Engine :=
  match n with
  | 0 => .ok e
  | n + 1 =>
    match sha1Step m e with
    | .ok e' => sha1Steps m n e'
    | .error f => .error f

/-- What INIT and RUN latch from LEN (R153, R155), leaving `mode1` and `st1` as given. -/
def latch1 (len : Word) (mode : RunMode) (st : Phase) (e : Sha1Engine) : Sha1Engine :=
  { e with
    len := len, nblk := BitVec.ofNat 32 (nblocks len.toNat), blk := 0, h := iv1, done := false, mode := mode, st := st }

/-- The common part of SHA1.INIT and SHA1.RUN: ERR_BUSY, then ERR_LEN, then the latch (R153, R155, R227). -/
def start1 (mode : RunMode) (st : Phase) (s : State) : State :=
  if busy1 s then raiseError .busy s
  else if withinCapacity s.len.toNat then { s with sha1 := latch1 s.len mode st s.sha1 }
  else raiseError .len s

/-- SHA1.INIT (R153). It starts no engine step: `st1` stays IDLE. -/
def execSha1Init (s : State) : Host.Outcome State Fault Refusal := .next (start1 .single .idle s)

/-- SHA1.BLOCK (R154): ERR_BUSY, then ERR_SEQ, then the engine starts on block BLK1. -/
def execSha1Block (s : State) : Host.Outcome State Fault Refusal :=
  if busy1 s then .next (raiseError .busy s)
  else if s.sha1.nblk ≤ s.sha1.blk then .next (raiseError .seq s)
  else .next { s with sha1 := { s.sha1 with mode := .single, st := .load } }

/-- SHA1.RUN (R155). -/
def execSha1Run (s : State) : Host.Outcome State Fault Refusal := .next (start1 .all .load s)

end Sys2Proof.Machine
end

