-- ==== Sys2Proof/Machine/Sha256.lean ====
section
/-! DEFINITION. The SHA-256 engine (44_sha256.md): its functions, its state machine and its three commands. -/

namespace Sys2Proof.Machine

open Sys2Proof

/-- `IV2` (R180). -/
def iv2 : Vector Word 8 :=
  #v[0x6a09e667, 0xbb67ae85, 0x3c6ef372, 0xa54ff53a, 0x510e527f, 0x9b05688c, 0x1f83d9ab, 0x5be0cd19]

/-- The rows of the table `K2` (R181; PRESUMED by the spec itself as general knowledge, log 16). -/
def k2Rows : List Word :=
  [0x428a2f98, 0x71374491, 0xb5c0fbcf, 0xe9b5dba5, 0x3956c25b, 0x59f111f1, 0x923f82a4, 0xab1c5ed5] ++
  [0xd807aa98, 0x12835b01, 0x243185be, 0x550c7dc3, 0x72be5d74, 0x80deb1fe, 0x9bdc06a7, 0xc19bf174] ++
  [0xe49b69c1, 0xefbe4786, 0x0fc19dc6, 0x240ca1cc, 0x2de92c6f, 0x4a7484aa, 0x5cb0a9dc, 0x76f988da] ++
  [0x983e5152, 0xa831c66d, 0xb00327c8, 0xbf597fc7, 0xc6e00bf3, 0xd5a79147, 0x06ca6351, 0x14292967] ++
  [0x27b70a85, 0x2e1b2138, 0x4d2c6dfc, 0x53380d13, 0x650a7354, 0x766a0abb, 0x81c2c92e, 0x92722c85] ++
  [0xa2bfe8a1, 0xa81a664b, 0xc24b8b70, 0xc76c51a3, 0xd192e819, 0xd6990624, 0xf40e3585, 0x106aa070] ++
  [0x19a4c116, 0x1e376c08, 0x2748774c, 0x34b0bcb5, 0x391c0cb3, 0x4ed8aa4a, 0x5b9cca4f, 0x682e6ff3] ++
  [0x748f82ee, 0x78a5636f, 0x84c87814, 0x8cc70208, 0x90befffa, 0xa4506ceb, 0xbef9a3f7, 0xc67178f2]

/-- `K2[0..63]` (R181). -/
def k2 : Vector Word 64 := ⟨k2Rows.toArray, rfl⟩

/-- `bigSigma0` (R183). -/
def bigSigma0 (x : Word) : Word := rotr32 x 2 ^^^ rotr32 x 13 ^^^ rotr32 x 22

/-- `bigSigma1` (R183). -/
def bigSigma1 (x : Word) : Word := rotr32 x 6 ^^^ rotr32 x 11 ^^^ rotr32 x 25

/-- `smallSigma0` (R184); the shift is logical. -/
def smallSigma0 (x : Word) : Word := rotr32 x 7 ^^^ rotr32 x 18 ^^^ shr32 x 3

/-- `smallSigma1` (R184); the shift is logical. -/
def smallSigma1 (x : Word) : Word := rotr32 x 17 ^^^ rotr32 x 19 ^^^ shr32 x 10

/-- The schedule word that follows from the words 2, 7, 15 and 16 places earlier (R185). -/
def sched2 (w2 w7 w15 w16 : Word) : Word := smallSigma1 w2 + w7 + smallSigma0 w15 + w16

/-- `T1` of a round (R186). -/
def round2T1 (k wt : Word) (r : Work2) : Word := r.h + bigSigma1 r.e + ch r.e r.f r.g + k + wt

/-- `T2` of a round (R186). -/
def round2T2 (r : Work2) : Word := bigSigma0 r.a + maj r.a r.b r.c

/-- A round on the working registers, one simultaneous assignment: `T1 + T2` goes to `a` and `d + T1` to `e` (R186, C2). -/
def round2 (k wt : Word) (r : Work2) : Work2 where
  a := round2T1 k wt r + round2T2 r
  b := r.a
  c := r.b
  d := r.c
  e := r.d + round2T1 k wt r
  f := r.e
  g := r.f
  h := r.g

/-- The working registers loaded from the running state (R187, R191). -/
def workOf2 (h : Vector Word 8) : Work2 := ⟨h[0], h[1], h[2], h[3], h[4], h[5], h[6], h[7]⟩

/-- The add-back (R187). -/
def addBack2 (h : Vector Word 8) (r : Work2) : Vector Word 8 :=
  #v[h[0] + r.a, h[1] + r.b, h[2] + r.c, h[3] + r.d, h[4] + r.e, h[5] + r.f, h[6] + r.g, h[7] + r.h]

/-- `W2[t2 - k]`. Where SCHED runs, `t2` is at least 16 and `k` at most 16 (R192; log 15). -/
def Sha256Engine.wBack (e : Sha256Engine) (k : Nat) : Word := e.w[e.t.val - k]'(by omega)

/-- The LOAD step (R191). -/
def sha256Load (m : Memory) (e : Sha256Engine) : Except Fault Sha256Engine := do
  let ws ← blockWords m e.len e.blk.toNat
  return { e with w := storeWords 0 ws e.w, work := workOf2 e.h, t := 16, st := .sched }

/-- The SCHED step (R192). -/
def sha256Sched (e : Sha256Engine) : Sha256Engine :=
  let e' := { e with w := e.w.set e.t (sched2 (e.wBack 2) (e.wBack 7) (e.wBack 15) (e.wBack 16)) }
  if h : e.t.val = 63 then { e' with t := 0, st := .round }
  else { e' with t := ⟨e.t.val + 1, by omega⟩ }

/-- The ROUND step (R193). -/
def sha256Round (e : Sha256Engine) : Sha256Engine :=
  let e' := { e with work := round2 k2[e.t] e.w[e.t] e.work }
  if h : e.t.val = 63 then { e' with st := .add }
  else { e' with t := ⟨e.t.val + 1, by omega⟩ }

/-- The ADD step (R194). -/
def sha256Add (e : Sha256Engine) : Sha256Engine :=
  let e' := { e with h := addBack2 e.h e.work, blk := e.blk + 1 }
  if e.blk + 1 = e.nblk then { e' with done := true, st := .idle }
  else
    match e.mode with
    | .all => { e' with st := .load }
    | .single => { e' with st := .idle }

/-- The one step `st2` names (R190); an idle engine has none and stays as it is (R236). -/
def sha256Step (m : Memory) (e : Sha256Engine) : Except Fault Sha256Engine :=
  match e.st with
  | .idle => .ok e
  | .load => sha256Load m e
  | .sched => .ok (sha256Sched e)
  | .round => .ok (sha256Round e)
  | .add => .ok (sha256Add e)

/-- `n` steps of the engine over one memory, stopping at a fault. -/
def sha256Steps (m : Memory) (n : Nat) (e : Sha256Engine) : Except Fault Sha256Engine :=
  match n with
  | 0 => .ok e
  | n + 1 =>
    match sha256Step m e with
    | .ok e' => sha256Steps m n e'
    | .error f => .error f

/-- What INIT and RUN latch from LEN (R195, R197), leaving `mode2` and `st2` as given. -/
def latch2 (len : Word) (mode : RunMode) (st : Phase) (e : Sha256Engine) : Sha256Engine :=
  { e with
    len := len, nblk := BitVec.ofNat 32 (nblocks len.toNat), blk := 0, h := iv2, done := false, mode := mode, st := st }

/-- The common part of SHA256.INIT and SHA256.RUN: ERR_BUSY, then ERR_LEN, then the latch (R195, R197, R227). -/
def start2 (mode : RunMode) (st : Phase) (s : State) : State :=
  if busy2 s then raiseError .busy s
  else if withinCapacity s.len.toNat then { s with sha256 := latch2 s.len mode st s.sha256 }
  else raiseError .len s

/-- SHA256.INIT (R195). It starts no engine step: `st2` stays IDLE. -/
def execSha256Init (s : State) : Host.Outcome State Fault Refusal := .next (start2 .single .idle s)

/-- SHA256.BLOCK (R196): ERR_BUSY, then ERR_SEQ, then the engine starts on block BLK2. -/
def execSha256Block (s : State) : Host.Outcome State Fault Refusal :=
  if busy2 s then .next (raiseError .busy s)
  else if s.sha256.nblk ≤ s.sha256.blk then .next (raiseError .seq s)
  else .next { s with sha256 := { s.sha256 with mode := .single, st := .load } }

/-- SHA256.RUN (R197). -/
def execSha256Run (s : State) : Host.Outcome State Fault Refusal := .next (start2 .all .load s)

end Sys2Proof.Machine
end

