-- ==== Sys2Proof/Machine/Utility.lean ====
section
/-! DEFINITION. The utility commands (41_utilities.md section 2). They write no STATUS bit and complete whatever the engines do
(R108). -/

namespace Sys2Proof.Machine

open Sys2Proof

/-- ROTL (R104): `UY <- rotl32(UA, AMT)`. -/
def execRotl (amt : Nat) (s : State) : Host.Outcome State Fault Refusal := .next (setUy (rotl32 s.ua amt) s)

/-- ROTR (R105): `UY <- rotr32(UA, AMT)`. -/
def execRotr (amt : Nat) (s : State) : Host.Outcome State Fault Refusal := .next (setUy (rotr32 s.ua amt) s)

/-- PACKBE (R106): `UY <- packBE(UB0, UB1, UB2, UB3)`. -/
def execPackbe (s : State) : Host.Outcome State Fault Refusal := .next (setUy (packedUb s) s)

/-- UNPACKBE (R107): `UB0, UB1, UB2, UB3 <- unpackBE(UA)`. -/
def execUnpackbe (s : State) : Host.Outcome State Fault Refusal := .next (setUbs s.ua s)

end Sys2Proof.Machine
end

