-- ==== Sys2Proof/Machine/Dispatch.lean ====
section
/-! DEFINITION. The meaning of each command, one arm per constructor of Instr (R85: the row's rule is executed). -/

namespace Sys2Proof.Machine

open Sys2Proof

def exec (i : Instr) (s : State) : Host.Outcome State Fault Refusal :=
  match i with
  | .rotl amt => Sys2Proof.Machine.execRotl amt s
  | .rotr amt => Sys2Proof.Machine.execRotr amt s
  | .packbe => Sys2Proof.Machine.execPackbe s
  | .unpackbe => Sys2Proof.Machine.execUnpackbe s
  | .sha1Init => Sys2Proof.Machine.execSha1Init s
  | .sha1Block => Sys2Proof.Machine.execSha1Block s
  | .sha1Run => Sys2Proof.Machine.execSha1Run s
  | .sha256Init => Sys2Proof.Machine.execSha256Init s
  | .sha256Block => Sys2Proof.Machine.execSha256Block s
  | .sha256Run => Sys2Proof.Machine.execSha256Run s

end Sys2Proof.Machine
end

