-- ==== Sys2Proof/Machine/Bus.lean ====
section
/-! DEFINITION. The host bus (20_memory.md) and the register window (10_state.md sections 2 and 3). -/

namespace Sys2Proof.Machine

open Sys2Proof

/-- The offset of a register from `REG_BASE` (R25). -/
def Reg.offset (r : Reg) : Nat :=
  match r with
  | .cmd => 0x000
  | .status => 0x004
  | .len => 0x008
  | .ua => 0x010
  | .uy => 0x014
  | .ub k => 0x018 + 4 * k.val
  | .h1 k => 0x040 + 4 * k.val
  | .h2 k => 0x060 + 4 * k.val
  | .blk1 => 0x080
  | .nblk1 => 0x084
  | .blk2 => 0x088
  | .nblk2 => 0x08C
  | .dout1 k => 0x100 + 4 * k.val
  | .dout2 k => 0x180 + 4 * k.val

/-- The register at an offset that is a multiple of 4, none where the map of R25 names none (a reserved offset, R24). -/
def regAt (off : Nat) : Option Reg :=
  if off = 0x000 then some .cmd
  else if off = 0x004 then some .status
  else if off = 0x008 then some .len
  else if off = 0x010 then some .ua
  else if off = 0x014 then some .uy
  else if h : 0x018 ≤ off ∧ off < 0x028 then some (.ub ⟨(off - 0x018) / 4, by omega⟩)
  else if h : 0x040 ≤ off ∧ off < 0x054 then some (.h1 ⟨(off - 0x040) / 4, by omega⟩)
  else if h : 0x060 ≤ off ∧ off < 0x080 then some (.h2 ⟨(off - 0x060) / 4, by omega⟩)
  else if off = 0x080 then some .blk1
  else if off = 0x084 then some .nblk1
  else if off = 0x088 then some .blk2
  else if off = 0x08C then some .nblk2
  else if h : 0x100 ≤ off ∧ off < 0x150 then some (.dout1 ⟨(off - 0x100) / 4, by omega⟩)
  else if h : 0x180 ≤ off ∧ off < 0x200 then some (.dout2 ⟨(off - 0x180) / 4, by omega⟩)
  else none

/-- An access of this width at this address is well-formed for the register window (R62). -/
def regAccess (addr : Word) (width : Nat) : Bool :=
  decide (width = 4) && decide (addr.toNat % 4 = 0) && decide (Config.regBase ≤ addr.toNat) &&
    decide (addr.toNat < Config.regBase + Config.regWindow)

/-- The register or reserved offset a well-formed register access reaches (R62). -/
def regOffset (addr : Word) : Nat := addr.toNat - Config.regBase

/-- An access of this width at this address is well-formed for the message buffer (R61, R63). -/
def msgAccess (addr : Word) (width : Nat) : Bool :=
  decide (width = 1) && decide (Config.msgBase ≤ addr.toNat) && withinCapacity (addr.toNat - Config.msgBase + 1)

/-- The index of the message byte at a bus address (R61). -/
def msgIndex (addr : Word) : Nat := addr.toNat - Config.msgBase

/-- A word that has a value only while the engine is idle: the exact value then, a free value while it is busy (R38, U1). -/
def resultWord (busy : Bool) (v : Word) (s : State) : Word × State :=
  if busy then drawWord s else (v, s)

/-- A digest byte, zero-extended: exact while the engine is idle, a free byte with bits [31:8] = 0 while it is busy (R35, R36,
R38, U1). -/
def resultByte (busy : Bool) (b : Byte) (s : State) : Word × State :=
  if busy then (zextByte (drawByte s).1, (drawByte s).2) else (zextByte b, s)

/-- A host read of a register: its value and the state after, which differs only when a free value was drawn (R25 to R38). -/
def readReg (r : Reg) (s : State) : Word × State :=
  match r with
  | .cmd => (0, s)
  | .status => (statusWord s, s)
  | .len => (s.len, s)
  | .ua => (s.ua, s)
  | .uy => (s.uy, s)
  | .ub k => (zextByte (getUb k s), s)
  | .h1 k => resultWord (busy1 s) s.sha1.h[k] s
  | .h2 k => resultWord (busy2 s) s.sha256.h[k] s
  | .blk1 => resultWord (busy1 s) s.sha1.blk s
  | .nblk1 => (s.sha1.nblk, s)
  | .blk2 => resultWord (busy2 s) s.sha256.blk s
  | .nblk2 => (s.sha256.nblk, s)
  | .dout1 k => resultByte (busy1 s) (unpackByte (s.sha1.h[k.val / 4]'(by omega)) (k.val % 4)) s
  | .dout2 k => resultByte (busy2 s) (unpackByte (s.sha256.h[k.val / 4]'(by omega)) (k.val % 4)) s

/-- The register at an offset read by the host; a reserved offset reads 0 (R24). -/
def readOffset (off : Nat) (s : State) : Word × State :=
  match regAt off with
  | some r => readReg r s
  | none => (0, s)

/-- A host write of a command word (R26, R85): the decoded command is executed, an illegal word raises ERR_ILL (R223). -/
def writeCmd (cw : Word) (s : State) : Host.Outcome State Fault Refusal :=
  match decode cw with
  | .ok i => exec i s
  | .error _ => .next (raiseError .ill s)

/-- A host write of `v` to a register (R24 to R37). A write to a read-only register is accepted and has no effect. -/
def writeReg (r : Reg) (v : Word) (s : State) : Host.Outcome State Fault Refusal :=
  match r with
  | .cmd => writeCmd v s
  | .status => .next (clearErrors v s)
  | .len => .next { s with len := v }
  | .ua => .next { s with ua := v }
  | .uy => .next s
  | .ub k => .next (setUb k (v.setWidth 8) s)
  | .h1 _ => .next s
  | .h2 _ => .next s
  | .blk1 => .next s
  | .nblk1 => .next s
  | .blk2 => .next s
  | .nblk2 => .next s
  | .dout1 _ => .next s
  | .dout2 _ => .next s

/-- The register at an offset written by the host; a reserved offset ignores the write (R24). -/
def writeOffset (off : Nat) (v : Word) (s : State) : Host.Outcome State Fault Refusal :=
  match regAt off with
  | some r => writeReg r v s
  | none => .next s

/-- A host write to the message buffer (R63): dropped with ERR_BUSY while an engine is busy (R65). -/
def writeMsg (i : Nat) (b : Byte) (s : State) : State :=
  if busy1 s || busy2 s then raiseError .busy s else { s with mem := setMsgByte s.mem i b }

/-- A host read of a message byte (R63): its value zero-extended, a free byte where nothing was written (U3; log 3). -/
def readMsg (i : Nat) (s : State) : Word × State :=
  match msgByte s.mem i with
  | some b => (zextByte b, s)
  | none => (zextByte (drawByte s).1, (drawByte s).2)

/-- `v` returned to the host with the response OKAY (R60). -/
def respond (p : Word × State) : State := { p.2 with resp := .data p.1 }

/-- A host bus access (R60 to R65). A malformed access gets BUS_ERROR and changes nothing else (R64). -/
def busAccess (a : Access) (s : State) : Host.Outcome State Fault Refusal :=
  match a with
  | .read addr width =>
    if regAccess addr width then .next (respond (readOffset (regOffset addr) s))
    else if msgAccess addr width then .next (respond (readMsg (msgIndex addr) s))
    else .next { s with resp := .busError a }
  | .write addr width v =>
    if regAccess addr width then writeOffset (regOffset addr) v { s with resp := .okay }
    else if msgAccess addr width then .next (writeMsg (msgIndex addr) (v.setWidth 8) { s with resp := .okay })
    else .next { s with resp := .busError a }

end Sys2Proof.Machine
end

