-- ==== Sys2Proof/Machine/Turn.lean ====
section
/-! DEFINITION. The turns of the three agents and their interleaving (R70, R237, R262), and the host's own statements (R88, R238,
R250). -/

namespace Sys2Proof.Machine

open Sys2Proof

/-- The host goes on to its next statement. -/
def advance (s : State) : State := { s with hpc := s.hpc + 1 }

/-- The reset input (R250 to R253): every piece of the core's state at its reset value. The host, the schedule and the count of
free values are outside the core and stay (log 11). -/
def assertReset (s : State) : State :=
  { State.reset with
    prog := s.prog, hpc := s.hpc, resp := s.resp, sched := s.sched, rounds := s.rounds, draws := s.draws }

/-- BNZ (R88): the host reads `reg` and goes to statement `target` if `(value & mask) != 0`, else falls through. -/
def branchNonzero (target : Nat) (reg : Reg) (mask : Word) (s : State) : State :=
  let p := readReg reg s
  if p.1 &&& mask ≠ 0 then { respond p with hpc := target } else advance (respond p)

/-- One statement of the host (R88, R238). A host past the end of its program does nothing. -/
def hostTurn (s : State) : Host.Outcome State Fault Refusal :=
  match s.prog[s.hpc]? with
  | none => .next s
  | some (.access a) => busAccess a (advance s)
  | some (.bnz target reg mask) => .next (branchNonzero target reg mask s)
  | some .reset => .next (assertReset (advance s))

/-- One step of the SHA-1 engine (R148). -/
def sha1Turn (s : State) : Host.Outcome State Fault Refusal :=
  match sha1Step s.mem s.sha1 with
  | .ok e => .next { s with sha1 := e }
  | .error f => .fault f

/-- One step of the SHA-256 engine (R190). -/
def sha256Turn (s : State) : Host.Outcome State Fault Refusal :=
  match sha256Step s.mem s.sha256 with
  | .ok e => .next { s with sha256 := e }
  | .error f => .fault f

/-- One turn of an agent. A turn of an agent that has no step passes and changes nothing (R236; log 6). -/
def agentTurn (a : Agent) (s : State) : Host.Outcome State Fault Refusal :=
  match a with
  | .host => hostTurn s
  | .sha1 => sha1Turn s
  | .sha256 => sha256Turn s

/-- The engine that gets the turn before the `n`-th free stretch: the two in alternation, so that a busy engine always steps
again (R262, weak fairness; log 6). -/
def fairAgent (n : Nat) : Agent := if n % 2 = 0 then .sha1 else .sha256

/-- Who has the next turn, and the state in which that turn is taken. When no turn is scheduled, a free stretch of turns is
drawn (R237, U11; log 6). -/
def takeTurn (s : State) : Agent × State :=
  match s.sched with
  | a :: rest => (a, { s with sched := rest })
  | [] => (fairAgent s.rounds, { s with sched := Config.freeTurns s.rounds, rounds := s.rounds + 1 })

/-- The state in which the host's next statement writes `cw` to CMD and the host has the next turn (log 7). -/
def issueCommand (cw : Word) (s : State) : State :=
  { s with
    prog := [.access (.write (BitVec.ofNat 32 (Config.regBase + Reg.cmd.offset)) 4 cw)],
    hpc := 0, sched := .host :: s.sched }

end Sys2Proof.Machine
end

