-- ==== Sys2Proof/Machine/Step.lean ====
section
/-! DEFINITION. One step of the machine: one turn of one agent (R70, R237). -/

namespace Sys2Proof.Machine

open Sys2Proof

/-- One step: the next agent's turn. A host access, one engine step, or the reset input (R60, R70, R148, R190, R250). -/
def step (s : State) : Host.Outcome State Fault Refusal := agentTurn (takeTurn s).1 (takeTurn s).2

/-- `s` with the command whose bits are `w`, numbered as spec/opcode_table.json numbers them, as the host's next access, and the
host next to move: the core fetches nothing (R21, R73), and a command comes to it as a host write to CMD (R26; log 7). -/
def State.withFetchWord (s : State) (nbits w : Nat) : State := issueCommand (tableWord nbits w) s

end Sys2Proof.Machine
end

