-- ==== Sys2Proof/Machine/Reference.lean ====
section
/-! DEFINITION. The functions the hardware realises, on a message given as a list of bytes (R147, R189), written from the padding
rule as R120 states it and from the schedules and rounds of section 1 of 43_sha1.md and 44_sha256.md. The engines do not use them;
statements compare the engines with them. -/

namespace Sys2Proof.Machine

open Sys2Proof

/-- The 64-bit big-endian integer of R120, most significant byte first. Of a number that does not fit 64 bits, the bit length of a
message of 2^61 bytes or more, the spec says nothing (N4, R125): the model takes it modulo 2^64 (DESIGN CHOICE, log 22). -/
def be64 (n : Nat) : List Byte :=
  [BitVec.ofNat 8 (n / 2 ^ 56), BitVec.ofNat 8 (n / 2 ^ 48), BitVec.ofNat 8 (n / 2 ^ 40), BitVec.ofNat 8 (n / 2 ^ 32),
   BitVec.ofNat 8 (n / 2 ^ 24), BitVec.ofNat 8 (n / 2 ^ 16), BitVec.ofNat 8 (n / 2 ^ 8), BitVec.ofNat 8 n]

/-- The number of zero bytes: the least that makes the length 56 modulo 64, that is 448 modulo 512 in bits (R120). -/
def zeroCount (len : Nat) : Nat := (119 - len % 64) % 64

/-- The padded message (R120): the bytes, 0x80, zeros up to 448 modulo 512 bits, the bit length in 64 bits. -/
def paddedBytes (msg : List Byte) : List Byte :=
  msg ++ [0x80] ++ List.replicate (zeroCount msg.length) 0 ++ be64 (8 * msg.length)

/-- The words of a byte sequence, four bytes each, most significant byte first (R123). Up to three bytes left over, which a padded
message never has (R121), are dropped (DESIGN CHOICE, log 22). -/
def packWords (bs : List Byte) : List Word :=
  match bs with
  | b0 :: b1 :: b2 :: b3 :: rest => packBE b0 b1 b2 b3 :: packWords rest
  | _ => []

/-- The padded message as words. -/
def paddedWords (msg : List Byte) : List Word := packWords (paddedBytes msg)

/-- Block `b` of the padded message (R124). A block past the last one, which R124 does not give, is empty (DESIGN CHOICE, log 22). -/
def messageBlock (msg : List Byte) (b : Nat) : List Word := ((paddedWords msg).drop (16 * b)).take 16

/-- `n` more words of the SHA-1 schedule after the words `ws` (R141). -/
def extend1 (n : Nat) (ws : List Word) : List Word :=
  match n with
  | 0 => ws
  | n + 1 =>
    extend1 n (ws ++ [sched1 (ws.getD (ws.length - 3) 0) (ws.getD (ws.length - 8) 0) (ws.getD (ws.length - 14) 0)
      (ws.getD (ws.length - 16) 0)])

/-- `n` more words of the SHA-256 schedule after the words `ws` (R185). -/
def extend2 (n : Nat) (ws : List Word) : List Word :=
  match n with
  | 0 => ws
  | n + 1 =>
    extend2 n (ws ++ [sched2 (ws.getD (ws.length - 2) 0) (ws.getD (ws.length - 7) 0) (ws.getD (ws.length - 15) 0)
      (ws.getD (ws.length - 16) 0)])

/-- The SHA-1 rounds from round `t` on, with their schedule words (R144). -/
def rounds1 (t : Nat) (ws : List Word) (r : Work1) : Work1 :=
  match ws with
  | [] => r
  | w :: rest => rounds1 (t + 1) rest (round1 t w r)

/-- The SHA-256 rounds, with their constants and schedule words (R186). -/
def rounds2 (ks ws : List Word) (r : Work2) : Work2 :=
  match ks, ws with
  | k :: krest, w :: wrest => rounds2 krest wrest (round2 k w r)
  | _, _ => r

/-- `Compress1` (R147), on a block of 16 words. Another block, which R147 does not give, gets 64 schedule words more, a missing
word counting as 0, and one round for each word (DESIGN CHOICE, log 22). -/
def compress1 (h : Vector Word 5) (block : List Word) : Vector Word 5 :=
  addBack1 h (rounds1 0 (extend1 64 block) (workOf1 h))

/-- `Compress2` (R189), on a block of 16 words. Another block, which R189 does not give, gets 48 schedule words more, a missing
word counting as 0, and rounds as long as there are constants and words (DESIGN CHOICE, log 22). -/
def compress2 (h : Vector Word 8) (block : List Word) : Vector Word 8 :=
  addBack2 h (rounds2 k2Rows (extend2 48 block) (workOf2 h))

/-- The SHA-1 running state after the first `n` blocks of the message (R147). -/
def running1 (msg : List Byte) (n : Nat) : Vector Word 5 :=
  match n with
  | 0 => iv1
  | n + 1 => compress1 (running1 msg n) (messageBlock msg n)

/-- The SHA-256 running state after the first `n` blocks of the message (R189). -/
def running2 (msg : List Byte) (n : Nat) : Vector Word 8 :=
  match n with
  | 0 => iv2
  | n + 1 => compress2 (running2 msg n) (messageBlock msg n)

/-- `SHA1(M)`, 20 bytes (R146, R147), for a message of less than 2^61 bytes; of a longer one see `be64` (log 22). -/
def sha1 (msg : List Byte) : List Byte := (running1 msg (nblocks msg.length)).toList.flatMap unpackBE

/-- `SHA256(M)`, 32 bytes (R188, R189), for a message of less than 2^61 bytes; of a longer one see `be64` (log 22). -/
def sha256 (msg : List Byte) : List Byte := (running2 msg (nblocks msg.length)).toList.flatMap unpackBE

end Sys2Proof.Machine
end

