-- ==== Sys2Proof/Safety.lean ====
section
/-! DEFINITION. What the statements are said in: the invariant of the machine, what a memory holds, what the host does in a step,
and a run that stays busy. -/

namespace Sys2Proof.Machine

open Sys2Proof

/-- The invariant of the SHA-1 engine: what the rules of 10_state.md and 43_sha1.md say of every state a run reaches. -/
structure Sha1Engine.Inv (e : Sha1Engine) : Prop where
  /-- A latched length fits the buffer (R153, R155). -/
  lenFits : e.len.toNat ≤ Config.maxMsgBytes
  /-- `0 <= BLK1 <= NBLK1` (R37). -/
  blkLe : e.blk ≤ e.nblk
  /-- NBLK1 is the block count of the latched length, or 0 before any INIT or RUN (R37, R225). -/
  nblkOf : e.nblk ≠ 0 → e.nblk.toNat = nblocks e.len.toNat
  /-- A busy engine has a block to process (R154, R155, R152). -/
  busyBlk : e.st ≠ .idle → e.blk < e.nblk
  /-- The schedule index of a SCHED step (R150). -/
  schedIndex : e.st = .sched → 16 ≤ e.t.val
  /-- DONE1 says that every block of the latched message is processed (R27, R29). -/
  doneIff : e.done = true ↔ e.blk = e.nblk ∧ e.nblk ≠ 0

/-- The invariant of the SHA-256 engine, as for SHA-1. -/
structure Sha256Engine.Inv (e : Sha256Engine) : Prop where
  /-- A latched length fits the buffer (R195, R197). -/
  lenFits : e.len.toNat ≤ Config.maxMsgBytes
  /-- `0 <= BLK2 <= NBLK2` (R37). -/
  blkLe : e.blk ≤ e.nblk
  /-- NBLK2 is the block count of the latched length, or 0 before any INIT or RUN (R37, R225). -/
  nblkOf : e.nblk ≠ 0 → e.nblk.toNat = nblocks e.len.toNat
  /-- A busy engine has a block to process (R196, R197, R194). -/
  busyBlk : e.st ≠ .idle → e.blk < e.nblk
  /-- The schedule index of a SCHED step (R192). -/
  schedIndex : e.st = .sched → 16 ≤ e.t.val
  /-- DONE2 says that every block of the latched message is processed (R27, R29). -/
  doneIff : e.done = true ↔ e.blk = e.nblk ∧ e.nblk ≠ 0

/-- The invariant of the machine: the message buffer is in canonical form and inside its address range (R43, R61), and both
engines meet theirs. -/
structure State.Inv (s : State) : Prop where
  memWf : s.mem.wf
  memIn : ∀ c ∈ s.mem, Config.msgBase ≤ c.1 ∧ c.1 < Config.msgBase + Config.maxMsgBytes
  sha1 : s.sha1.Inv
  sha256 : s.sha256.Inv

/-- The message buffer holds the message: byte `i` is written with `msg[i]` for every index of the message (R11, R157). -/
def Memory.holds (m : Memory) (msg : List Byte) : Prop := ∀ i, i < msg.length → msgByte m i = msg[i]?

/-- The host has the turn and its next statement is `op`. -/
def hostDoes (s : State) (op : HostOp) : Prop := (takeTurn s).1 = .host ∧ s.prog[s.hpc]? = some op

/-- The host has the turn and writes `v` to the register at offset `off`. -/
def hostWrites (s : State) (off : Nat) (v : Word) : Prop :=
  hostDoes s (.access (.write (BitVec.ofNat 32 (Config.regBase + off)) 4 v))

/-- `n` steps lead from `s` to `t`, and the SHA-1 engine is busy before each of them. -/
def busyRun1 (n : Nat) (s t : State) : Prop :=
  core.run n s = .next t ∧ ∀ k, k < n → ∀ u, core.run k s = .next u → busy1 u = true

/-- `n` steps lead from `s` to `t`, and the SHA-256 engine is busy before each of them. -/
def busyRun2 (n : Nat) (s t : State) : Prop :=
  core.run n s = .next t ∧ ∀ k, k < n → ∀ u, core.run k s = .next u → busy2 u = true

/-- `s` with other contents of W1, a1..e1, W2 and a2..h2, the registers whose reset value the spec leaves open (R40, R41). -/
def State.withScratch (s : State) (w1 : Vector Word 80) (r1 : Work1) (w2 : Vector Word 64) (r2 : Work2) : State :=
  { s with sha1 := { s.sha1 with w := w1, work := r1 }, sha256 := { s.sha256 with w := w2, work := r2 } }

/-- The part of a state that is left when W1, a1..e1, W2 and a2..h2 are blanked out. -/
def State.observable (s : State) : State :=
  s.withScratch (Vector.replicate 80 0) ⟨0, 0, 0, 0, 0⟩ (Vector.replicate 64 0) ⟨0, 0, 0, 0, 0, 0, 0, 0⟩

/-- A run is safe when no step of it stops: no engine reads a byte that was never written (R66). -/
def SafeRun (s : State) : Prop := ∀ n, ∃ t, core.run n s = .next t

end Sys2Proof.Machine
end

