-- ==== Sys2Proof/Certificates/Slice0/Obligations.lean ====
section
/-! DEFINITION. The statements for the provers. They follow the numbered rules of spec/; where one rests on a choice of the model,
its docstring says so and names the log entry. -/

open Sys2Proof Sys2Proof.Machine

/-! ### Encoding (30_encoding.md) -/

/-- Words written out from R84's rows and from the table of 95_test_vectors.md section 7, legal and illegal. -/
def Obligations.DecodeOfTableWords : Prop :=
  decode 0x00000401 = .ok (.rotl 4) ∧ decode 0x00001F01 = .ok (.rotl 31) ∧ decode 0x00001F02 = .ok (.rotr 31) ∧
  decode 0x00000003 = .ok .packbe ∧ decode 0x00000004 = .ok .unpackbe ∧
  decode 0x00000010 = .ok .sha1Init ∧ decode 0x00000011 = .ok .sha1Block ∧ decode 0x00000012 = .ok .sha1Run ∧
  decode 0x00000020 = .ok .sha256Init ∧ decode 0x00000021 = .ok .sha256Block ∧ decode 0x00000022 = .ok .sha256Run ∧
  decode 0x00000000 = .error .unassignedOpcode ∧ decode 0x00002001 = .error .reservedBits ∧
  decode 0x00000103 = .error .amountNotZero ∧ decode 0x80000010 = .error .reservedBits

/-- Decoding the encoding of a well-formed instruction gives it back, with every amount the encoding admits (R80 to R85). -/
def Obligations.DecodeInvertsEncode : Prop :=
  ∀ i : Instr, i.wellFormed = true → decode (encode i) = .ok i

/-- A legal word is the encoding of the instruction it decodes to, which is well-formed: no bit of a legal word is dropped
(R80 to R86). -/
def Obligations.EncodeInvertsDecode : Prop :=
  ∀ (cw : Word) (i : Instr), decode cw = .ok i → i.wellFormed = true ∧ encode i = cw

/-- The decoder, written from the fields, agrees with the columns `match` and `mask` of the opcode map: a word is legal exactly
when some row accepts it, and the rows that accept it are those of its own mnemonic (R84, R85). -/
def Obligations.LegalWordsAreTheOpcodeMap : Prop :=
  ∀ cw : Word,
    ((∃ i, decode cw = .ok i) ↔ ∃ r, r ∈ opcodeMap ∧ cw &&& r.mask = r.pattern) ∧
    ∀ i, decode cw = .ok i → ∀ r, r ∈ opcodeMap → (cw &&& r.mask = r.pattern ↔ r.mnemonic = i.mnemonic)

/-- R223 and R83: a CMD write of a word with RSV != 0, an unassigned OPC, or AMT != 0 with an OPC other than ROTL and ROTR sets
ERR_ILL and changes nothing else; every other word is a command and is executed. -/
def Obligations.IllegalWordsRaiseOnlyErrIll : Prop :=
  ∀ (cw : Word) (s : State),
    let opc : BitVec 8 := cw.extractLsb' 0 8
    let illegal : Prop :=
      cw.extractLsb' 13 19 ≠ 0 ∨ opc ∉ [0x01, 0x02, 0x03, 0x04, 0x10, 0x11, 0x12, 0x20, 0x21, 0x22] ∨
        (cw.extractLsb' 8 5 ≠ 0 ∧ opc ≠ 0x01 ∧ opc ≠ 0x02)
    (illegal → writeCmd cw s = .next { s with err := s.err ||| 0b0001 }) ∧
    (¬illegal → ∃ i, decode cw = .ok i ∧ writeCmd cw s = exec i s)

/-! ### A step runs the decoded command (R26) -/

/-- R26: when the host has the turn and writes a word to CMD, the step executes the command the word decodes to, within the same
access, and an illegal word raises ERR_ILL; a read of CMD returns 0 and has no effect. Around the command the step moves the
schedule on, moves the host to its next statement and answers the access with OKAY (logs 6 and 7). -/
def Obligations.CommandWriteRunsTheCommand : Prop :=
  ∀ s : State,
    (∀ cw i, hostWrites s 0x000 cw → decode cw = .ok i →
      step s = exec i { advance (takeTurn s).2 with resp := .okay }) ∧
    (∀ cw e, hostWrites s 0x000 cw → decode cw = .error e →
      step s = .next { advance (takeTurn s).2 with resp := .okay, err := s.err ||| 0b0001 }) ∧
    (hostDoes s (.access (.read 0x00000000 4)) →
      step s = .next { advance (takeTurn s).2 with resp := .data 0 })

/-- The model's own way of handing a command to the machine (log 7): the step after `withFetchWord` runs exactly the command
the word decodes to, on a state that differs from the given one only in the host's own fields. -/
def Obligations.FetchWordRunsTheDecodedCommand : Prop :=
  ∀ (s : State) (w : Nat) (i : Instr), decodeTableWord 32 w = some i →
    step (s.withFetchWord 32 w) = exec i { s with prog := (s.withFetchWord 32 w).prog, hpc := 1, resp := .okay }

/-! ### The register window (10_state.md) -/

/-- The map of R25, the conventions of R24 and the accesses of R62: an aligned 4-byte bus access below 0x400 reaches the offset
that is its address, for `REG_BASE` is 0, and gets OKAY or the data; each register answers at its own offset, an offset that no
register has reads 0 and ignores writes, and a write to a read-only register is accepted and has no effect. -/
def Obligations.RegisterWindowConventions : Prop :=
  (∀ (addr v : Word) (s : State), addr.toNat % 4 = 0 → addr.toNat < 0x400 →
    busAccess (.read addr 4) s =
      .next { (readOffset addr.toNat s).2 with resp := .data (readOffset addr.toNat s).1 } ∧
    busAccess (.write addr 4 v) s = writeOffset addr.toNat v { s with resp := .okay }) ∧
  (∀ r : Reg, regAt r.offset = some r) ∧
  (∀ (off : Nat) (s : State) (v : Word), off % 4 = 0 → off < 0x400 → (∀ r : Reg, r.offset ≠ off) →
    readOffset off s = (0, s) ∧ writeOffset off v s = .next s) ∧
  (∀ (s : State) (v : Word),
    writeOffset 0x014 v s = .next s ∧ (∀ k : Fin 5, writeOffset (0x040 + 4 * k.val) v s = .next s) ∧
    (∀ k : Fin 8, writeOffset (0x060 + 4 * k.val) v s = .next s) ∧ writeOffset 0x080 v s = .next s ∧
    writeOffset 0x084 v s = .next s ∧ writeOffset 0x088 v s = .next s ∧ writeOffset 0x08C v s = .next s ∧
    (∀ k : Fin 20, writeOffset (0x100 + 4 * k.val) v s = .next s) ∧
    (∀ k : Fin 32, writeOffset (0x180 + 4 * k.val) v s = .next s))

/-- LEN and UA keep all 32 bits of a write, whatever the engines do; UBk, the byte the utility commands read and write, keeps bits
[7:0], and its bits [31:8] read 0 (R25, R32). A read changes nothing. -/
def Obligations.OperandRegistersReadAndWrite : Prop :=
  ∀ (s : State) (v : Word),
    writeOffset 0x008 v s = .next { s with len := v } ∧ readOffset 0x008 s = (s.len, s) ∧
    writeOffset 0x010 v s = .next { s with ua := v } ∧ readOffset 0x010 s = (s.ua, s) ∧
    readOffset 0x014 s = (s.uy, s) ∧
    getUb 0 s = s.ub0 ∧ getUb 1 s = s.ub1 ∧ getUb 2 s = s.ub2 ∧ getUb 3 s = s.ub3 ∧
    (∀ k : Fin 4, readOffset (0x018 + 4 * k.val) s = ((getUb k s).setWidth 32, s)) ∧
    ∀ k : Fin 4, ∃ t, writeOffset (0x018 + 4 * k.val) v s = .next t ∧
      getUb k t = v.extractLsb' 0 8 ∧ readOffset (0x018 + 4 * k.val) t = (v &&& 0x000000FF, t) ∧
      (∀ j : Fin 4, j ≠ k → getUb j t = getUb j s) ∧
      t = { s with ub0 := t.ub0, ub1 := t.ub1, ub2 := t.ub2, ub3 := t.ub3 }

/-- The fields of STATUS as the host reads them (R27, R28): BUSY1 at bit 0, DONE1 at 1, BUSY2 at 2, DONE2 at 3, the error bits at
[11:8], and 0 elsewhere; the read changes nothing. -/
def Obligations.StatusReadsItsFields : Prop :=
  ∀ s : State, ∃ v : Word, readOffset 0x004 s = (v, s) ∧
    (v.getLsbD 0 = true ↔ s.sha1.st ≠ .idle) ∧ v.getLsbD 1 = s.sha1.done ∧
    (v.getLsbD 2 = true ↔ s.sha256.st ≠ .idle) ∧ v.getLsbD 3 = s.sha256.done ∧
    (∀ i, 4 ≤ i → i < 8 → v.getLsbD i = false) ∧ (∀ i, i < 4 → v.getLsbD (8 + i) = s.err.getLsbD i) ∧
    (∀ i, 12 ≤ i → v.getLsbD i = false)

/-- R31: a write of `v` to STATUS clears exactly the error bits written with 1 and changes nothing else, BUSY and DONE
among it. -/
def Obligations.StatusWriteClearsWrittenErrorBits : Prop :=
  ∀ (s : State) (v : Word), ∃ t, writeOffset 0x004 v s = .next t ∧ t = { s with err := t.err } ∧
    ∀ i, i < 4 → t.err.getLsbD i = (s.err.getLsbD i && !v.getLsbD (8 + i))

/-- Hn and BLKn read exactly while engine n is idle; while it is busy the read returns some value, of which nothing is said, and
uses up one free value (log 4). NBLKn reads exactly at any time (R33, R34, R37, R38). -/
def Obligations.ResultsReadExactlyOnlyWhenIdle : Prop :=
  ∀ s : State,
    (busy1 s = false → (∀ k : Fin 5, readOffset (0x040 + 4 * k.val) s = (s.sha1.h[k], s)) ∧
      readOffset 0x080 s = (s.sha1.blk, s)) ∧
    (busy2 s = false → (∀ k : Fin 8, readOffset (0x060 + 4 * k.val) s = (s.sha256.h[k], s)) ∧
      readOffset 0x088 s = (s.sha256.blk, s)) ∧
    (busy1 s = true → (∀ k : Fin 5, ∃ v, readOffset (0x040 + 4 * k.val) s = (v, { s with draws := s.draws + 1 })) ∧
      ∃ v, readOffset 0x080 s = (v, { s with draws := s.draws + 1 })) ∧
    (busy2 s = true → (∀ k : Fin 8, ∃ v, readOffset (0x060 + 4 * k.val) s = (v, { s with draws := s.draws + 1 })) ∧
      ∃ v, readOffset 0x088 s = (v, { s with draws := s.draws + 1 })) ∧
    readOffset 0x084 s = (s.sha1.nblk, s) ∧ readOffset 0x08C s = (s.sha256.nblk, s)

/-- R35 and R36: with the engine idle, DOUT1_i reads byte `i` of the five words H1 as big-endian 4-byte groups, that is the bits
`[31 - 8*(i mod 4) : 24 - 8*(i mod 4)]` of `H1[i div 4]`, zero-extended; DOUT2_i likewise of the eight words H2. The registers are
read-only and hold no state. While the engine is busy a read returns some byte, of which nothing is said: that bits [31:8] are then 0
and that the read uses up one free value are the model's choice (log 4). -/
def Obligations.DigestByteViews : Prop :=
  (∀ (s : State) (v : Word), (∀ i : Fin 20, writeOffset (0x100 + 4 * i.val) v s = .next s) ∧
    (∀ i : Fin 32, writeOffset (0x180 + 4 * i.val) v s = .next s)) ∧
  (∀ (s : State) (i : Fin 20), busy1 s = true →
    ∃ b : Byte, readOffset (0x100 + 4 * i.val) s = (b.setWidth 32, { s with draws := s.draws + 1 })) ∧
  (∀ (s : State) (i : Fin 32), busy2 s = true →
    ∃ b : Byte, readOffset (0x180 + 4 * i.val) s = (b.setWidth 32, { s with draws := s.draws + 1 })) ∧
  (∀ (s : State) (i : Fin 20), busy1 s = false →
    readOffset (0x100 + 4 * i.val) s = (((s.sha1.h.toList.flatMap unpackBE).getD i.val 0).setWidth 32, s) ∧
    (readOffset (0x100 + 4 * i.val) s).1 =
      ((s.sha1.h[i.val / 4]'(by omega)) >>> (24 - 8 * (i.val % 4))) &&& 0x000000FF) ∧
  (∀ (s : State) (i : Fin 32), busy2 s = false →
    readOffset (0x180 + 4 * i.val) s = (((s.sha256.h.toList.flatMap unpackBE).getD i.val 0).setWidth 32, s) ∧
    (readOffset (0x180 + 4 * i.val) s).1 =
      ((s.sha256.h[i.val / 4]'(by omega)) >>> (24 - 8 * (i.val % 4))) &&& 0x000000FF)

/-! ### The host bus (20_memory.md) -/

/-- Byte accesses to the message buffer (R61, R63), which starts at 0x00100000 and whose capacity lies in the range of R6: with both
engines idle a write of byte `i` sets that byte to `v[7:0]`, changes no other byte and nothing else; a read returns a written byte
zero-extended and changes nothing. A read of an unwritten byte returns some byte, of which nothing is said, and uses up one free
value: the model's choice (log 3). -/
def Obligations.MessageBytesReadAndWrite : Prop :=
  1000000 ≤ Config.maxMsgBytes ∧ Config.maxMsgBytes ≤ 0xFFF00000 ∧
  ∀ (s : State) (i : Nat) (addr : Word), i < Config.maxMsgBytes → addr.toNat = 0x00100000 + i →
    (busy1 s = false → busy2 s = false → ∀ v : Word,
      ∃ t, busAccess (.write addr 1 v) s = .next t ∧ t = { s with mem := t.mem, resp := .okay } ∧
        ∀ j, msgByte t.mem j = if j = i then some (v.extractLsb' 0 8) else msgByte s.mem j) ∧
    (∀ b, msgByte s.mem i = some b → busAccess (.read addr 1) s = .next { s with resp := .data (b.setWidth 32) }) ∧
    (msgByte s.mem i = none → ∃ b : Byte,
      busAccess (.read addr 1) s = .next { s with resp := .data (b.setWidth 32), draws := s.draws + 1 })

/-- R65: a host write to the message buffer while an engine is busy is dropped, answered with OKAY, and sets ERR_BUSY; nothing
else changes. A read of the buffer is allowed at any time, and returns a written byte; that a read of an unwritten byte completes too,
with some value, is the model's choice (log 3). -/
def Obligations.MessageWriteWhileBusyIsDropped : Prop :=
  ∀ (s : State) (i : Nat), i < Config.maxMsgBytes →
    (busy1 s = true ∨ busy2 s = true → ∀ v : Word,
      busAccess (.write (BitVec.ofNat 32 (Config.msgBase + i)) 1 v) s =
        .next { s with err := s.err ||| 0b0010, resp := .okay }) ∧
    ∃ (v : Word) (d : Nat),
      busAccess (.read (BitVec.ofNat 32 (Config.msgBase + i)) 1) s = .next { s with resp := .data v, draws := d } ∧
      ∀ b, msgByte s.mem i = some b → v = b.setWidth 32 ∧ d = s.draws

/-- R64: an access that is neither an aligned 4-byte access to the register window nor a 1-byte access to the message buffer gets
BUS_ERROR, recorded with the access, and changes no state, no STATUS bit among it. -/
def Obligations.MalformedAccessGetsBusError : Prop :=
  ∀ (addr : Word) (width : Nat) (s : State),
    ¬(width = 4 ∧ addr.toNat % 4 = 0 ∧ addr.toNat < 0x400) →
    ¬(width = 1 ∧ 0x00100000 ≤ addr.toNat ∧ addr.toNat < 0x00100000 + Config.maxMsgBytes) →
    busAccess (.read addr width) s = .next { s with resp := .busError (.read addr width) } ∧
    ∀ v, busAccess (.write addr width v) s = .next { s with resp := .busError (.write addr width v) }

/-- No read has a side effect (R69): a step in which the host reads, at any address and width, or branches on a register,
completes and changes only the host's own fields, the schedule and the count of free values. That it completes at a read of an
unwritten message byte and that the host goes on after a malformed read are the model's choices (logs 3 and 8). -/
def Obligations.HostReadsChangeNoCoreState : Prop :=
  ∀ (s : State) (op : HostOp), hostDoes s op →
    ((∃ addr width, op = .access (.read addr width)) ∨ ∃ target reg mask, op = .bnz target reg mask) →
    ∃ t, step s = .next t ∧
      t = { s with hpc := t.hpc, resp := t.resp, sched := t.sched, rounds := t.rounds, draws := t.draws }

/-- BNZ (R88): the host reads the register and goes to the target if `(value & mask) != 0`, else to the next statement. Stated
for a register that reads the same at any time, STATUS. -/
def Obligations.BranchNonzeroOnStatus : Prop :=
  ∀ (s : State) (target : Nat) (mask : Word), s.prog[s.hpc]? = some (.bnz target .status mask) →
    hostTurn s = .next { s with
      resp := .data (statusWord s), hpc := if statusWord s &&& mask ≠ 0 then target else s.hpc + 1 }

/-! ### The utility unit (41_utilities.md) -/

/-- R104, ROTL: the encoding, the effect and nothing else, in every state, and the corner cases. -/
def Obligations.RotlCommand : Prop :=
  ∀ (s : State) (amt : Nat), amt ≤ 31 →
    decode (BitVec.ofNat 32 (amt <<< 8 ||| 0x01)) = .ok (.rotl amt) ∧
    BitVec.ofNat 32 (amt <<< 8 ||| 0x01) &&& 0xFFFFE0FF = (0x00000001 : Word) ∧
    exec (.rotl amt) s = .next { s with uy := rotl32 s.ua amt } ∧
    (amt = 0 → rotl32 s.ua amt = s.ua) ∧ (amt = 31 → rotl32 s.ua amt = rotr32 s.ua 1) ∧
    (s.ua = 0 ∨ s.ua = 0xFFFFFFFF → rotl32 s.ua amt = s.ua) ∧ rotl32 0x12345678 4 = 0x23456781

/-- R105, ROTR: the encoding, the effect and nothing else, in every state, and the corner cases. -/
def Obligations.RotrCommand : Prop :=
  ∀ (s : State) (amt : Nat), amt ≤ 31 →
    decode (BitVec.ofNat 32 (amt <<< 8 ||| 0x02)) = .ok (.rotr amt) ∧
    BitVec.ofNat 32 (amt <<< 8 ||| 0x02) &&& 0xFFFFE0FF = (0x00000002 : Word) ∧
    exec (.rotr amt) s = .next { s with uy := rotr32 s.ua amt } ∧
    (amt = 0 → rotr32 s.ua amt = s.ua) ∧ rotr32 s.ua amt = rotl32 s.ua ((32 - amt) % 32) ∧
    rotr32 0x12345678 8 = 0x78123456

/-- R100 and R101: the rotations by their shift formulas and bit by bit. -/
def Obligations.RotationsMoveEveryBit : Prop :=
  ∀ (x : Word) (n : Nat), n ≤ 31 →
    rotl32 x 0 = x ∧ rotr32 x 0 = x ∧
    (1 ≤ n → rotl32 x n = (x <<< n) ||| (x >>> (32 - n)) ∧ rotr32 x n = (x >>> n) ||| (x <<< (32 - n))) ∧
    ∀ i, i < 32 → (rotl32 x n).getLsbD ((i + n) % 32) = x.getLsbD i ∧
      (rotr32 x n).getLsbD i = x.getLsbD ((i + n) % 32)

/-- R106, PACKBE: the encoding, the four bytes of UY most significant first and nothing else changed, in every state, and the
corner case and example. -/
def Obligations.PackbeCommand : Prop :=
  (∀ cw, decode cw = .ok .packbe ↔ cw = 0x00000003) ∧
  (∀ s : State, ∃ t, exec .packbe s = .next t ∧ t = { s with uy := t.uy } ∧
    t.uy.extractLsb' 24 8 = s.ub0 ∧ t.uy.extractLsb' 16 8 = s.ub1 ∧ t.uy.extractLsb' 8 8 = s.ub2 ∧
    t.uy.extractLsb' 0 8 = s.ub3) ∧
  packBE 0x80 0 0 0 = 0x80000000 ∧ packBE 0x61 0x62 0x63 0x80 = 0x61626380

/-- R107, UNPACKBE: the encoding, the four bytes of UA most significant first in UB0..UB3 and nothing else changed, UY and UA among
it, in every state, and the example. -/
def Obligations.UnpackbeCommand : Prop :=
  (∀ cw, decode cw = .ok .unpackbe ↔ cw = 0x00000004) ∧
  (∀ s : State, exec .unpackbe s = .next { s with
    ub0 := s.ua.extractLsb' 24 8, ub1 := s.ua.extractLsb' 16 8, ub2 := s.ua.extractLsb' 8 8, ub3 := s.ua.extractLsb' 0 8 }) ∧
  unpackBE 0xDEADBEEF = [0xDE, 0xAD, 0xBE, 0xEF]

/-- R109, the laws of the primitives. -/
def Obligations.PrimitiveLaws : Prop :=
  (∀ (x : Word) (n : Nat), n ≤ 31 → rotr32 (rotl32 x n) n = x) ∧
  (∀ (x : Word) (n m : Nat), n ≤ 31 → m ≤ 31 → rotl32 (rotl32 x n) m = rotl32 x ((n + m) % 32)) ∧
  (∀ b0 b1 b2 b3 : Byte, unpackBE (packBE b0 b1 b2 b3) = [b0, b1, b2, b3]) ∧
  (∀ w : Word, ∃ b0 b1 b2 b3, unpackBE w = [b0, b1, b2, b3] ∧ packBE b0 b1 b2 b3 = w)

/-- R108: a utility command completes in every state, whatever the engines do, writes only UY and UB0..UB3 and reads only UA and
UB0..UB3, so that in every other state with the same utility registers it writes the same values; a turn of an engine neither reads nor writes UA, UY, UB0..UB3, nor LEN, so that the two commute. -/
def Obligations.UtilityUnitIsIndependentOfTheEngines : Prop :=
  (∀ (i : Instr) (s : State), (∃ n, i = .rotl n) ∨ (∃ n, i = .rotr n) ∨ i = .packbe ∨ i = .unpackbe →
    ∃ t, exec i s = .next t ∧ t = { s with uy := t.uy, ub0 := t.ub0, ub1 := t.ub1, ub2 := t.ub2, ub3 := t.ub3 } ∧
      ∀ s' : State, s'.ua = s.ua → s'.uy = s.uy → s'.ub0 = s.ub0 → s'.ub1 = s.ub1 → s'.ub2 = s.ub2 → s'.ub3 = s.ub3 →
        exec i s' = .next { s' with uy := t.uy, ub0 := t.ub0, ub1 := t.ub1, ub2 := t.ub2, ub3 := t.ub3 }) ∧
  (∀ (s t : State) (ua uy len : Word) (ub0 ub1 ub2 ub3 : Byte) (a : Agent), a ≠ .host → agentTurn a s = .next t →
    t.ua = s.ua ∧ t.uy = s.uy ∧ t.len = s.len ∧ t.ub0 = s.ub0 ∧ t.ub1 = s.ub1 ∧ t.ub2 = s.ub2 ∧ t.ub3 = s.ub3 ∧
    agentTurn a { s with ua := ua, uy := uy, len := len, ub0 := ub0, ub1 := ub1, ub2 := ub2, ub3 := ub3 } =
      .next { t with ua := ua, uy := uy, len := len, ub0 := ub0, ub1 := ub1, ub2 := ub2, ub3 := ub3 })

/-! ### Padding (42_padding.md) -/

/-- R121: the block count; the padded message holds the message, the 0x80 byte, `z(L)` zeros and the 8-byte length, with `z(L)` in
0..63, and at least one block. -/
def Obligations.BlockCountOfAMessage : Prop :=
  ∀ len : Nat, nblocks len = (len + 8) / 64 + 1 ∧ 1 ≤ nblocks len ∧
    ∃ z, z ≤ 63 ∧ len + 1 + z + 8 = 64 * nblocks len

/-- The padding computed byte by byte when a LOAD step needs it (R122, R123) is the padded message as R120 states it: append 0x80,
zeros up to 448 modulo 512 bits, the bit length as a 64-bit big-endian integer; it has 16 words for each block (R121, R124). -/
def Obligations.PaddedWordsArePaddedMessage : Prop :=
  ∀ (m : Memory) (msg : List Byte), msg.length ≤ Config.maxMsgBytes → m.holds msg →
    (paddedBytes msg).length = 64 * nblocks msg.length ∧ (paddedWords msg).length = 16 * nblocks msg.length ∧
    ∀ j, j < 16 * nblocks msg.length →
      padWord m (BitVec.ofNat 32 msg.length) j = .ok ((paddedWords msg).getD j 0)

/-- The empty message is one block, 0x80000000 and fifteen zero words (95_test_vectors.md section 3; the count of R127 differs, log
20), and no message byte is read: it is the same whatever the buffer holds. -/
def Obligations.EmptyMessageIsOneBlock : Prop :=
  nblocks 0 = 1 ∧ ∀ m : Memory, padWord m 0 0 = .ok 0x80000000 ∧ ∀ j, 1 ≤ j → j ≤ 15 → padWord m 0 j = .ok 0

/-- R128: the padding depends on L and the message bytes below L alone: two buffers that agree there give the same padded
words. -/
def Obligations.BytesBeyondTheLengthNeverMatter : Prop :=
  ∀ (m m' : Memory) (len : Word), (∀ i, i < len.toNat → msgByte m i = msgByte m' i) →
    ∀ j, padWord m len j = padWord m' len j

/-! ### The SHA-1 engine (43_sha1.md) -/

/-- R153, SHA1.INIT: the encoding; ERR_BUSY to a busy engine, before any look at LEN; ERR_LEN if LEN exceeds the capacity; else
the latch, with nothing else changed, BUSY1 among it; and the corner cases. -/
def Obligations.Sha1InitCommand : Prop :=
  (∀ cw, decode cw = .ok .sha1Init ↔ cw = 0x00000010) ∧ nblocks 0 = 1 ∧ nblocks 3 = 1 ∧
  ∀ s : State,
    (busy1 s = true → exec .sha1Init s = .next { s with err := s.err ||| 0b0010 }) ∧
    (busy1 s = false → Config.maxMsgBytes < s.len.toNat → exec .sha1Init s = .next { s with err := s.err ||| 0b1000 }) ∧
    (busy1 s = false → s.len.toNat ≤ Config.maxMsgBytes → exec .sha1Init s = .next { s with
      sha1 := { s.sha1 with
        len := s.len, nblk := BitVec.ofNat 32 (nblocks s.len.toNat), blk := 0,
        h := #v[0x67452301, 0xEFCDAB89, 0x98BADCFE, 0x10325476, 0xC3D2E1F0], done := false, mode := .single } })

/-- SHA1.BLOCK at its CMD write (the command part of R154): ERR_BUSY, then ERR_SEQ if no block is left, else the engine starts on
one block; nothing else changes. -/
def Obligations.Sha1BlockCommand : Prop :=
  ∀ s : State,
    (busy1 s = true → exec .sha1Block s = .next { s with err := s.err ||| 0b0010 }) ∧
    (busy1 s = false → s.sha1.nblk.toNat ≤ s.sha1.blk.toNat →
      exec .sha1Block s = .next { s with err := s.err ||| 0b0100 }) ∧
    (busy1 s = false → s.sha1.blk.toNat < s.sha1.nblk.toNat →
      exec .sha1Block s = .next { s with sha1 := { s.sha1 with mode := .single, st := .load } })

/-- SHA1.RUN at its CMD write (the command part of R155): ERR_BUSY, then ERR_LEN, else the latch of INIT and the engine starts on
all blocks; nothing else changes. -/
def Obligations.Sha1RunCommand : Prop :=
  ∀ s : State,
    (busy1 s = true → exec .sha1Run s = .next { s with err := s.err ||| 0b0010 }) ∧
    (busy1 s = false → Config.maxMsgBytes < s.len.toNat → exec .sha1Run s = .next { s with err := s.err ||| 0b1000 }) ∧
    (busy1 s = false → s.len.toNat ≤ Config.maxMsgBytes → exec .sha1Run s = .next { s with
      sha1 := { s.sha1 with
        len := s.len, nblk := BitVec.ofNat 32 (nblocks s.len.toNat), blk := 0,
        h := #v[0x67452301, 0xEFCDAB89, 0x98BADCFE, 0x10325476, 0xC3D2E1F0], done := false, mode := .all, st := .load } })

/-- The LOAD step of the SHA-1 engine (R149): the 16 words of block BLK1 into W1[0..15], the working registers from H1, `t1` 16,
state SCHED, all else unchanged. If a message byte it reads is unwritten, the fault of the first such byte is the outcome and the
machine stops: the model's reading of R66 (log 5). -/
def Obligations.Sha1LoadStep : Prop :=
  ∀ s : State, s.sha1.st = .load →
    (∀ p : Fin 16 → Word,
      (∀ k : Fin 16, padWord s.mem s.sha1.len (16 * s.sha1.blk.toNat + k.val) = .ok (p k)) →
      ∃ t, sha1Turn s = .next t ∧
        t = { s with sha1 := { s.sha1 with
          w := t.sha1.w, t := 16, st := .sched,
          work := ⟨s.sha1.h[0], s.sha1.h[1], s.sha1.h[2], s.sha1.h[3], s.sha1.h[4]⟩ } } ∧
        ∀ (k : Nat) (hk : k < 80), t.sha1.w[k] = if h : k < 16 then p ⟨k, h⟩ else s.sha1.w[k]) ∧
    (∀ (k : Fin 16) (f : Fault),
      (∀ j : Fin 16, j < k → ∃ x, padWord s.mem s.sha1.len (16 * s.sha1.blk.toNat + j.val) = .ok x) →
      padWord s.mem s.sha1.len (16 * s.sha1.blk.toNat + k.val) = .error f → sha1Turn s = .fault f)

/-- R150 and R151: a SCHED step computes one schedule word, a ROUND step does one round; each moves `t1` on or ends its phase,
and nothing else changes. The mixing function and the constant of each band are written out (R142, R143). -/
def Obligations.Sha1SchedAndRoundSteps : Prop :=
  (∀ (s : State) (i : Nat) (hi : i < 80), s.sha1.st = .sched → s.sha1.t.val = i → 16 ≤ i →
    ∃ t, sha1Turn s = .next t ∧
      t = { s with sha1 := { s.sha1 with w := t.sha1.w, t := t.sha1.t, st := t.sha1.st } } ∧
      t.sha1.w[i] = rotl32 (s.sha1.w[i - 3] ^^^ s.sha1.w[i - 8] ^^^ s.sha1.w[i - 14] ^^^ s.sha1.w[i - 16]) 1 ∧
      (∀ (j : Nat) (hj : j < 80), j ≠ i → t.sha1.w[j] = s.sha1.w[j]) ∧
      (i = 79 → t.sha1.t.val = 0 ∧ t.sha1.st = .round) ∧ (i < 79 → t.sha1.t.val = i + 1 ∧ t.sha1.st = .sched)) ∧
  (∀ (s : State) (i : Nat) (hi : i < 80), s.sha1.st = .round → s.sha1.t.val = i →
    ∃ t, sha1Turn s = .next t ∧
      t = { s with sha1 := { s.sha1 with work := t.sha1.work, t := t.sha1.t, st := t.sha1.st } } ∧
      t.sha1.work = ⟨rotl32 s.sha1.work.a 5 +
          (if i < 20 then (s.sha1.work.b &&& s.sha1.work.c) ^^^ (~~~s.sha1.work.b &&& s.sha1.work.d)
           else if 40 ≤ i ∧ i < 60 then
            (s.sha1.work.b &&& s.sha1.work.c) ^^^ (s.sha1.work.b &&& s.sha1.work.d) ^^^ (s.sha1.work.c &&& s.sha1.work.d)
           else s.sha1.work.b ^^^ s.sha1.work.c ^^^ s.sha1.work.d) +
          s.sha1.work.e +
          (if i < 20 then 0x5A827999 else if i < 40 then 0x6ED9EBA1 else if i < 60 then 0x8F1BBCDC else 0xCA62C1D6) +
          s.sha1.w[i],
        s.sha1.work.a, rotl32 s.sha1.work.b 30, s.sha1.work.c, s.sha1.work.d⟩ ∧
      (i = 79 → t.sha1.t.val = 79 ∧ t.sha1.st = .add) ∧ (i < 79 → t.sha1.t.val = i + 1 ∧ t.sha1.st = .round))

/-- R152: the ADD step adds the working registers into H1, increments BLK1 and ends the computation with DONE1 after the last
block, goes on to LOAD in mode ALL, and goes idle in mode SINGLE; nothing else changes. -/
def Obligations.Sha1AddStep : Prop :=
  ∀ s : State, s.sha1.st = .add →
    sha1Turn s = .next { s with sha1 := { s.sha1 with
      h := #v[s.sha1.h[0] + s.sha1.work.a, s.sha1.h[1] + s.sha1.work.b, s.sha1.h[2] + s.sha1.work.c,
        s.sha1.h[3] + s.sha1.work.d, s.sha1.h[4] + s.sha1.work.e],
      blk := s.sha1.blk + 1,
      done := if s.sha1.blk + 1 = s.sha1.nblk then true else s.sha1.done,
      st := if s.sha1.blk + 1 = s.sha1.nblk then .idle else if s.sha1.mode = .all then .load else .idle } }

/-- The SHA-1 engine's 146 steps on a block are `Compress1` on that block of the padded message (R147, R148): from LOAD the engine
reaches its ADD step's end with H1 compressed, BLK1 one more, and the length, the block count and the mode kept. The counts are
steps of the model, not time (R261). -/
def Obligations.Sha1BlockIsCompress1 : Prop :=
  ∀ (m : Memory) (msg : List Byte) (e : Sha1Engine), msg.length ≤ Config.maxMsgBytes → m.holds msg →
    e.st = .load → e.len.toNat = msg.length → e.blk.toNat < nblocks msg.length →
    ∃ e', sha1Steps m 146 e = .ok e' ∧ e'.h = compress1 e.h (messageBlock msg e.blk.toNat) ∧ e'.blk = e.blk + 1 ∧
      e'.len = e.len ∧ e'.nblk = e.nblk ∧ e'.mode = e.mode ∧
      e'.done = (if e.blk + 1 = e.nblk then true else e.done) ∧
      e'.st = (if e.blk + 1 = e.nblk then .idle else if e.mode = .all then .load else .idle)

/-- R157 for SHA1.RUN: the host has written the message and LEN, the engine is idle and SHA1.RUN is accepted; then in every
interleaving, whatever the host does meanwhile except assert reset, when BUSY1 first reads 0 again DONE1 is 1 and DOUT1_0 ..
DOUT1_19 read the 20 bytes of SHA1(M). -/
def Obligations.Sha1RunGivesTheDigest : Prop :=
  ∀ (msg : List Byte) (s0 s t : State) (n : Nat),
    busy1 s0 = false → s0.len.toNat = msg.length → msg.length ≤ Config.maxMsgBytes → s0.mem.holds msg →
    HostOp.reset ∉ s0.prog → exec .sha1Run s0 = .next s → busyRun1 n s t → busy1 t = false →
    t.sha1.done = true ∧ t.sha1.blk = t.sha1.nblk ∧ (sha1 msg).length = 20 ∧
    ∀ i : Fin 20, readOffset (0x100 + 4 * i.val) t = (((sha1 msg).getD i.val 0).setWidth 32, t)

/-- R157 for SHA1.BLOCK: if H1 is the running state after `b` blocks of the latched message and SHA1.BLOCK is accepted, then in
every interleaving, whatever the host does meanwhile except assert reset, when BUSY1 first reads 0 again H1 is the running
state after `b + 1` blocks, BLK1 is `b + 1`, and DONE1 is 1 exactly after the last block. -/
def Obligations.Sha1BlockGivesTheRunningState : Prop :=
  ∀ (msg : List Byte) (b : Nat) (s0 s t : State) (n : Nat),
    busy1 s0 = false → msg.length ≤ Config.maxMsgBytes → s0.mem.holds msg → HostOp.reset ∉ s0.prog →
    s0.sha1.len.toNat = msg.length → s0.sha1.nblk.toNat = nblocks msg.length → s0.sha1.blk.toNat = b →
    b < nblocks msg.length → s0.sha1.done = false → s0.sha1.h = running1 msg b →
    exec .sha1Block s0 = .next s → busyRun1 n s t → busy1 t = false →
    t.sha1.h = running1 msg (b + 1) ∧ t.sha1.blk.toNat = b + 1 ∧ t.sha1.len = s0.sha1.len ∧ t.sha1.nblk = s0.sha1.nblk ∧
    (t.sha1.done = true ↔ b + 1 = nblocks msg.length)

/-! ### The SHA-256 engine (44_sha256.md) -/

/-- R195, SHA256.INIT: the encoding; ERR_BUSY to a busy engine, before any look at LEN; ERR_LEN if LEN exceeds the capacity; else
the latch, with nothing else changed, BUSY2 and the SHA-1 engine among it; and the corner cases. -/
def Obligations.Sha256InitCommand : Prop :=
  (∀ cw, decode cw = .ok .sha256Init ↔ cw = 0x00000020) ∧ nblocks 0 = 1 ∧ nblocks 56 = 2 ∧
  ∀ s : State,
    (busy2 s = true → exec .sha256Init s = .next { s with err := s.err ||| 0b0010 }) ∧
    (busy2 s = false → Config.maxMsgBytes < s.len.toNat → exec .sha256Init s = .next { s with err := s.err ||| 0b1000 }) ∧
    (busy2 s = false → s.len.toNat ≤ Config.maxMsgBytes → exec .sha256Init s = .next { s with
      sha256 := { s.sha256 with
        len := s.len, nblk := BitVec.ofNat 32 (nblocks s.len.toNat), blk := 0,
        h := #v[0x6a09e667, 0xbb67ae85, 0x3c6ef372, 0xa54ff53a, 0x510e527f, 0x9b05688c, 0x1f83d9ab, 0x5be0cd19],
        done := false, mode := .single } })

/-- SHA256.BLOCK at its CMD write (the command part of R196): ERR_BUSY, then ERR_SEQ if no block is left, else the engine starts
on one block; nothing else changes. -/
def Obligations.Sha256BlockCommand : Prop :=
  ∀ s : State,
    (busy2 s = true → exec .sha256Block s = .next { s with err := s.err ||| 0b0010 }) ∧
    (busy2 s = false → s.sha256.nblk.toNat ≤ s.sha256.blk.toNat →
      exec .sha256Block s = .next { s with err := s.err ||| 0b0100 }) ∧
    (busy2 s = false → s.sha256.blk.toNat < s.sha256.nblk.toNat →
      exec .sha256Block s = .next { s with sha256 := { s.sha256 with mode := .single, st := .load } })

/-- SHA256.RUN at its CMD write (the command part of R197): ERR_BUSY, then ERR_LEN, else the latch of INIT and the engine starts
on all blocks; nothing else changes. -/
def Obligations.Sha256RunCommand : Prop :=
  ∀ s : State,
    (busy2 s = true → exec .sha256Run s = .next { s with err := s.err ||| 0b0010 }) ∧
    (busy2 s = false → Config.maxMsgBytes < s.len.toNat → exec .sha256Run s = .next { s with err := s.err ||| 0b1000 }) ∧
    (busy2 s = false → s.len.toNat ≤ Config.maxMsgBytes → exec .sha256Run s = .next { s with
      sha256 := { s.sha256 with
        len := s.len, nblk := BitVec.ofNat 32 (nblocks s.len.toNat), blk := 0,
        h := #v[0x6a09e667, 0xbb67ae85, 0x3c6ef372, 0xa54ff53a, 0x510e527f, 0x9b05688c, 0x1f83d9ab, 0x5be0cd19],
        done := false, mode := .all, st := .load } })

/-- The LOAD step of the SHA-256 engine (R191): the 16 words of block BLK2 into W2[0..15], the working registers from H2, `t2` 16,
state SCHED, all else unchanged. If a message byte it reads is unwritten, the fault of the first such byte is the outcome and the
machine stops: the model's reading of R66 (log 5). -/
def Obligations.Sha256LoadStep : Prop :=
  ∀ s : State, s.sha256.st = .load →
    (∀ p : Fin 16 → Word,
      (∀ k : Fin 16, padWord s.mem s.sha256.len (16 * s.sha256.blk.toNat + k.val) = .ok (p k)) →
      ∃ t, sha256Turn s = .next t ∧
        t = { s with sha256 := { s.sha256 with
          w := t.sha256.w, t := 16, st := .sched,
          work := ⟨s.sha256.h[0], s.sha256.h[1], s.sha256.h[2], s.sha256.h[3], s.sha256.h[4], s.sha256.h[5],
            s.sha256.h[6], s.sha256.h[7]⟩ } } ∧
        ∀ (k : Nat) (hk : k < 64), t.sha256.w[k] = if h : k < 16 then p ⟨k, h⟩ else s.sha256.w[k]) ∧
    (∀ (k : Fin 16) (f : Fault),
      (∀ j : Fin 16, j < k → ∃ x, padWord s.mem s.sha256.len (16 * s.sha256.blk.toNat + j.val) = .ok x) →
      padWord s.mem s.sha256.len (16 * s.sha256.blk.toNat + k.val) = .error f → sha256Turn s = .fault f)

/-- R192 and R193: a SCHED step computes one schedule word, a ROUND step does one round with `T1 + T2` into `a2` and `d2 + T1`
into `e2`; each moves `t2` on or ends its phase, and nothing else changes. The sigma functions, Ch and Maj are written out
(R182, R183, R184), and so are the 64 round constants K2 (R181). -/
def Obligations.Sha256SchedAndRoundSteps : Prop :=
  k2.toList =
    [0x428a2f98, 0x71374491, 0xb5c0fbcf, 0xe9b5dba5, 0x3956c25b, 0x59f111f1, 0x923f82a4, 0xab1c5ed5] ++
    [0xd807aa98, 0x12835b01, 0x243185be, 0x550c7dc3, 0x72be5d74, 0x80deb1fe, 0x9bdc06a7, 0xc19bf174] ++
    [0xe49b69c1, 0xefbe4786, 0x0fc19dc6, 0x240ca1cc, 0x2de92c6f, 0x4a7484aa, 0x5cb0a9dc, 0x76f988da] ++
    [0x983e5152, 0xa831c66d, 0xb00327c8, 0xbf597fc7, 0xc6e00bf3, 0xd5a79147, 0x06ca6351, 0x14292967] ++
    [0x27b70a85, 0x2e1b2138, 0x4d2c6dfc, 0x53380d13, 0x650a7354, 0x766a0abb, 0x81c2c92e, 0x92722c85] ++
    [0xa2bfe8a1, 0xa81a664b, 0xc24b8b70, 0xc76c51a3, 0xd192e819, 0xd6990624, 0xf40e3585, 0x106aa070] ++
    [0x19a4c116, 0x1e376c08, 0x2748774c, 0x34b0bcb5, 0x391c0cb3, 0x4ed8aa4a, 0x5b9cca4f, 0x682e6ff3] ++
    [0x748f82ee, 0x78a5636f, 0x84c87814, 0x8cc70208, 0x90befffa, 0xa4506ceb, 0xbef9a3f7, 0xc67178f2] ∧
  (∀ (s : State) (i : Nat) (hi : i < 64), s.sha256.st = .sched → s.sha256.t.val = i → 16 ≤ i →
    ∃ t, sha256Turn s = .next t ∧
      t = { s with sha256 := { s.sha256 with w := t.sha256.w, t := t.sha256.t, st := t.sha256.st } } ∧
      (let y := s.sha256.w[i - 2]
       let x := s.sha256.w[i - 15]
       t.sha256.w[i] = (rotr32 y 17 ^^^ rotr32 y 19 ^^^ (y >>> 10)) + s.sha256.w[i - 7] +
         (rotr32 x 7 ^^^ rotr32 x 18 ^^^ (x >>> 3)) + s.sha256.w[i - 16]) ∧
      (∀ (j : Nat) (hj : j < 64), j ≠ i → t.sha256.w[j] = s.sha256.w[j]) ∧
      (i = 63 → t.sha256.t.val = 0 ∧ t.sha256.st = .round) ∧
      (i < 63 → t.sha256.t.val = i + 1 ∧ t.sha256.st = .sched)) ∧
  (∀ (s : State) (i : Nat) (hi : i < 64), s.sha256.st = .round → s.sha256.t.val = i →
    ∃ t, sha256Turn s = .next t ∧
      t = { s with sha256 := { s.sha256 with work := t.sha256.work, t := t.sha256.t, st := t.sha256.st } } ∧
      (let r := s.sha256.work
       let t1 := r.h + (rotr32 r.e 6 ^^^ rotr32 r.e 11 ^^^ rotr32 r.e 25) + ((r.e &&& r.f) ^^^ (~~~r.e &&& r.g)) +
         k2[i] + s.sha256.w[i]
       let t2 := (rotr32 r.a 2 ^^^ rotr32 r.a 13 ^^^ rotr32 r.a 22) +
         ((r.a &&& r.b) ^^^ (r.a &&& r.c) ^^^ (r.b &&& r.c))
       t.sha256.work = ⟨t1 + t2, r.a, r.b, r.c, r.d + t1, r.e, r.f, r.g⟩) ∧
      (i = 63 → t.sha256.t.val = 63 ∧ t.sha256.st = .add) ∧
      (i < 63 → t.sha256.t.val = i + 1 ∧ t.sha256.st = .round))

/-- R194: the ADD step adds the working registers into H2, increments BLK2 and ends the computation with DONE2 after the last
block, goes on to LOAD in mode ALL, and goes idle in mode SINGLE; nothing else changes. -/
def Obligations.Sha256AddStep : Prop :=
  ∀ s : State, s.sha256.st = .add →
    sha256Turn s = .next { s with sha256 := { s.sha256 with
      h := #v[s.sha256.h[0] + s.sha256.work.a, s.sha256.h[1] + s.sha256.work.b, s.sha256.h[2] + s.sha256.work.c,
        s.sha256.h[3] + s.sha256.work.d, s.sha256.h[4] + s.sha256.work.e, s.sha256.h[5] + s.sha256.work.f,
        s.sha256.h[6] + s.sha256.work.g, s.sha256.h[7] + s.sha256.work.h],
      blk := s.sha256.blk + 1,
      done := if s.sha256.blk + 1 = s.sha256.nblk then true else s.sha256.done,
      st := if s.sha256.blk + 1 = s.sha256.nblk then .idle else if s.sha256.mode = .all then .load else .idle } }

/-- The SHA-256 engine's 114 steps on a block are `Compress2` on that block of the padded message (R189, R190): from LOAD the engine
reaches its ADD step's end with H2 compressed, BLK2 one more, and the length, the block count and the mode kept. The counts are
steps of the model, not time (R261). -/
def Obligations.Sha256BlockIsCompress2 : Prop :=
  ∀ (m : Memory) (msg : List Byte) (e : Sha256Engine), msg.length ≤ Config.maxMsgBytes → m.holds msg →
    e.st = .load → e.len.toNat = msg.length → e.blk.toNat < nblocks msg.length →
    ∃ e', sha256Steps m 114 e = .ok e' ∧ e'.h = compress2 e.h (messageBlock msg e.blk.toNat) ∧ e'.blk = e.blk + 1 ∧
      e'.len = e.len ∧ e'.nblk = e.nblk ∧ e'.mode = e.mode ∧
      e'.done = (if e.blk + 1 = e.nblk then true else e.done) ∧
      e'.st = (if e.blk + 1 = e.nblk then .idle else if e.mode = .all then .load else .idle)

/-- R198 for SHA256.RUN: the host has written the message and LEN, the engine is idle and SHA256.RUN is accepted; then in every
interleaving, whatever the host does meanwhile except assert reset, when BUSY2 first reads 0 again DONE2 is 1 and DOUT2_0 ..
DOUT2_31 read the 32 bytes of SHA256(M). -/
def Obligations.Sha256RunGivesTheDigest : Prop :=
  ∀ (msg : List Byte) (s0 s t : State) (n : Nat),
    busy2 s0 = false → s0.len.toNat = msg.length → msg.length ≤ Config.maxMsgBytes → s0.mem.holds msg →
    HostOp.reset ∉ s0.prog → exec .sha256Run s0 = .next s → busyRun2 n s t → busy2 t = false →
    t.sha256.done = true ∧ t.sha256.blk = t.sha256.nblk ∧ (sha256 msg).length = 32 ∧
    ∀ i : Fin 32, readOffset (0x180 + 4 * i.val) t = (((sha256 msg).getD i.val 0).setWidth 32, t)

/-- R198 for SHA256.BLOCK: if H2 is the running state after `b` blocks of the latched message and SHA256.BLOCK is accepted, then
in every interleaving, whatever the host does meanwhile except assert reset, when BUSY2 first reads 0 again H2 is the running
state after `b + 1` blocks, BLK2 is `b + 1`, and DONE2 is 1 exactly after the last block. -/
def Obligations.Sha256BlockGivesTheRunningState : Prop :=
  ∀ (msg : List Byte) (b : Nat) (s0 s t : State) (n : Nat),
    busy2 s0 = false → msg.length ≤ Config.maxMsgBytes → s0.mem.holds msg → HostOp.reset ∉ s0.prog →
    s0.sha256.len.toNat = msg.length → s0.sha256.nblk.toNat = nblocks msg.length → s0.sha256.blk.toNat = b →
    b < nblocks msg.length → s0.sha256.done = false → s0.sha256.h = running2 msg b →
    exec .sha256Block s0 = .next s → busyRun2 n s t → busy2 t = false →
    t.sha256.h = running2 msg (b + 1) ∧ t.sha256.blk.toNat = b + 1 ∧ t.sha256.len = s0.sha256.len ∧
    t.sha256.nblk = s0.sha256.nblk ∧ (t.sha256.done = true ↔ b + 1 = nblocks msg.length)

/-! ### Errors, agents and the whole machine (60_exceptions.md, 70_reset_and_hazards.md) -/

/-- A command to one engine completes in every state and either changes that engine alone or, if rejected, sets one error bit
and changes nothing else (R156, R198, R222): the other engine, the utility registers, LEN and the message buffer keep their
values. -/
def Obligations.EngineCommandsTouchOnlyTheirEngine : Prop :=
  (∀ (i : Instr) (s : State), i = .sha1Init ∨ i = .sha1Block ∨ i = .sha1Run →
    ∃ t, exec i s = .next t ∧
      ((t = { s with sha1 := t.sha1 } ∧ busy1 s = false) ∨
        ∃ bit : BitVec 4, bit ∈ [0b0010, 0b0100, 0b1000] ∧ t = { s with err := s.err ||| bit })) ∧
  (∀ (i : Instr) (s : State), i = .sha256Init ∨ i = .sha256Block ∨ i = .sha256Run →
    ∃ t, exec i s = .next t ∧
      ((t = { s with sha256 := t.sha256 } ∧ busy2 s = false) ∨
        ∃ bit : BitVec 4, bit ∈ [0b0010, 0b0100, 0b1000] ∧ t = { s with err := s.err ||| bit }))

/-- R30: an error bit that is 1 stays 1 in every step but one in which the host writes STATUS with a 1 at that bit's place (R31) or
asserts reset. -/
def Obligations.ErrorBitsAreSticky : Prop :=
  ∀ s t : State, step s = .next t → ∀ i, i < 4 → s.err.getLsbD i = true →
    t.err.getLsbD i = true ∨ (∃ v : Word, hostWrites s 0x004 v ∧ v.getLsbD (8 + i) = true) ∨ hostDoes s .reset

/-- R28 and R29, for both engines and every step: BUSY goes from 0 to 1 only by a BLOCK or RUN command and from 1 to 0 only by an
ADD step or reset; DONE goes from 0 to 1 only by the ADD step that makes BLK equal NBLK and from 1 to 0 only by an INIT or RUN
command or reset; reset clears both. -/
def Obligations.BusyAndDoneChangeOnlyByTheirRules : Prop :=
  ∀ s t : State, step s = .next t →
    (hostDoes s .reset → busy1 t = false ∧ busy2 t = false ∧ t.sha1.done = false ∧ t.sha256.done = false) ∧
    (busy1 s = false → busy1 t = true → hostWrites s 0x000 0x00000011 ∨ hostWrites s 0x000 0x00000012) ∧
    (busy1 s = true → busy1 t = false → ((takeTurn s).1 = .sha1 ∧ s.sha1.st = .add) ∨ hostDoes s .reset) ∧
    (s.sha1.done = false → t.sha1.done = true →
      (takeTurn s).1 = .sha1 ∧ s.sha1.st = .add ∧ t.sha1.blk = s.sha1.blk + 1 ∧ t.sha1.blk = t.sha1.nblk) ∧
    (s.sha1.done = true → t.sha1.done = false →
      hostWrites s 0x000 0x00000010 ∨ hostWrites s 0x000 0x00000012 ∨ hostDoes s .reset) ∧
    (busy2 s = false → busy2 t = true → hostWrites s 0x000 0x00000021 ∨ hostWrites s 0x000 0x00000022) ∧
    (busy2 s = true → busy2 t = false → ((takeTurn s).1 = .sha256 ∧ s.sha256.st = .add) ∨ hostDoes s .reset) ∧
    (s.sha256.done = false → t.sha256.done = true →
      (takeTurn s).1 = .sha256 ∧ s.sha256.st = .add ∧ t.sha256.blk = s.sha256.blk + 1 ∧ t.sha256.blk = t.sha256.nblk) ∧
    (s.sha256.done = true → t.sha256.done = false →
      hostWrites s 0x000 0x00000020 ∨ hostWrites s 0x000 0x00000022 ∨ hostDoes s .reset)

/-- R43 with R65: in a step, a host byte write while both engines are idle makes the byte written with the new value, and reset
makes every byte unwritten; nothing else changes a byte of the message buffer. -/
def Obligations.MessageBufferChangesOnlyByTheHost : Prop :=
  ∀ s t : State, step s = .next t →
    (∀ (i : Nat) (v : Word), i < Config.maxMsgBytes → busy1 s = false → busy2 s = false →
      hostDoes s (.access (.write (BitVec.ofNat 32 (Config.msgBase + i)) 1 v)) →
      msgByte t.mem i = some (v.extractLsb' 0 8)) ∧
    (hostDoes s .reset → ∀ i, msgByte t.mem i = none) ∧
    ∀ i, msgByte t.mem i ≠ msgByte s.mem i →
      (∃ v : Word, i < Config.maxMsgBytes ∧ busy1 s = false ∧ busy2 s = false ∧
        hostDoes s (.access (.write (BitVec.ofNat 32 (Config.msgBase + i)) 1 v))) ∨
      hostDoes s .reset

/-- The only way a step can stop (R66, R220): a LOAD step of an engine that reads a message byte which was never written, and the
fault names the first such byte. No step is refused, and no contents of a message make a step stop. That the whole machine stops and
which byte the fault names are the model's reading (log 5); that no host step stops, a read of an unwritten byte and a malformed
access among them, is the model's choice (logs 3 and 8). -/
def Obligations.OnlyUnwrittenReadsFault : Prop :=
  ∀ s : State, (∀ r, step s ≠ .refused r) ∧ ∀ f, step s = .fault f ↔
    ∃ i, f = .unwrittenMessageByte i ∧ msgByte s.mem i = none ∧
      (((takeTurn s).1 = .sha1 ∧ s.sha1.st = .load ∧ i < s.sha1.len.toNat ∧ 64 * s.sha1.blk.toNat ≤ i ∧
          i < 64 * s.sha1.blk.toNat + 64 ∧
          ∀ j, 64 * s.sha1.blk.toNat ≤ j → j < i → msgByte s.mem j ≠ none) ∨
        ((takeTurn s).1 = .sha256 ∧ s.sha256.st = .load ∧ i < s.sha256.len.toNat ∧ 64 * s.sha256.blk.toNat ≤ i ∧
          i < 64 * s.sha256.blk.toNat + 64 ∧
          ∀ j, 64 * s.sha256.blk.toNat ≤ j → j < i → msgByte s.mem j ≠ none))

/-- The engines share no mutable state (R237) and an idle engine takes no step (R236): a turn of one engine changes that engine
alone, does not depend on the other, and the two orders of a turn each give the same state. -/
def Obligations.EnginesShareNoMutableState : Prop :=
  (∀ s : State, busy1 s = false → sha1Turn s = .next s) ∧ (∀ s : State, busy2 s = false → sha256Turn s = .next s) ∧
  (∀ s t : State, sha1Turn s = .next t → t = { s with sha1 := t.sha1 } ∧
    ∀ e : Sha256Engine, sha1Turn { s with sha256 := e } = .next { t with sha256 := e }) ∧
  (∀ s t : State, sha256Turn s = .next t → t = { s with sha256 := t.sha256 } ∧
    ∀ e : Sha1Engine, sha256Turn { s with sha1 := e } = .next { t with sha1 := e }) ∧
  (∀ s t u : State, sha1Turn s = .next t → sha256Turn s = .next u →
    ∃ v, sha256Turn t = .next v ∧ sha1Turn u = .next v)

/-- R250 to R253: the reset input, at any time, puts every register at 0, the engines at IDLE with their indices, modes and lengths
at reset, and makes every message byte unwritten; BUSY and DONE are 0. What R250 leaves unspecified, W1, W2 and the working
registers, is not spoken of; the host, the schedule and the count of free values stay (log 11). -/
def Obligations.ResetInputRestoresEveryResetValue : Prop :=
  ∀ s : State, s.prog[s.hpc]? = some .reset → ∃ t, hostTurn s = .next t ∧
    t.ua = 0 ∧ t.uy = 0 ∧ t.ub0 = 0 ∧ t.ub1 = 0 ∧ t.ub2 = 0 ∧ t.ub3 = 0 ∧ t.len = 0 ∧ statusWord t = 0 ∧ t.err = 0 ∧
    (∀ i, msgByte t.mem i = none) ∧
    t.sha1.st = .idle ∧ t.sha1.t.val = 0 ∧ t.sha1.mode = .single ∧ t.sha1.len = 0 ∧ t.sha1.blk = 0 ∧ t.sha1.nblk = 0 ∧
    t.sha1.done = false ∧ (∀ (k : Nat) (hk : k < 5), t.sha1.h[k] = 0) ∧
    t.sha256.st = .idle ∧ t.sha256.t.val = 0 ∧ t.sha256.mode = .single ∧ t.sha256.len = 0 ∧ t.sha256.blk = 0 ∧
    t.sha256.nblk = 0 ∧ t.sha256.done = false ∧ (∀ (k : Nat) (hk : k < 8), t.sha256.h[k] = 0) ∧
    t.prog = s.prog ∧ t.hpc = s.hpc + 1 ∧ t.sched = s.sched ∧ t.rounds = s.rounds ∧ t.draws = s.draws

/-- The invariant holds after reset. -/
def Obligations.InvariantHoldsAtReset : Prop := State.reset.Inv

/-- Every step keeps the invariant: the buffer's canonical form and range, `0 <= BLKn <= NBLKn` (R37), the block count of the
latched length, a block left for a busy engine, the range of the schedule index (R21), and what DONEn says (R27, R29). -/
def Obligations.StepKeepsTheInvariant : Prop :=
  ∀ s t : State, s.Inv → step s = .next t → t.Inv

/-- The registers whose reset value the spec leaves unspecified are never observed (R40, R41, R250): started from any state with
both engines idle, runs that differ only in the contents of W1, a1..e1, W2 and a2..h2 stop alike, and as long as they go on they
differ in nothing else. So no claim about what the host can see rests on the model's choice of 0 for them (log 2). -/
def Obligations.UnspecifiedRegistersAreNeverObserved : Prop :=
  ∀ (s : State) (w1 : Vector Word 80) (r1 : Work1) (w2 : Vector Word 64) (r2 : Work2) (n : Nat),
    busy1 s = false → busy2 s = false →
    (∀ t, core.run n s = .next t →
      ∃ t', core.run n (s.withScratch w1 r1 w2 r2) = .next t' ∧ t'.observable = t.observable) ∧
    (∀ f, core.run n s = .fault f → core.run n (s.withScratch w1 r1 w2 r2) = .fault f)

/-- Every computation ends (R262, R240): from any state that meets the invariant, whatever the host's program does, an engine
that is busy is idle after finitely many steps, unless the run stops at a read of an unwritten message byte
(R66). The model's schedule is weakly fair to the engines by its own construction (log 6). -/
def Obligations.EveryComputationEnds : Prop :=
  ∀ s : State, s.Inv →
    (∃ n, (∃ t, core.run n s = .next t ∧ busy1 t = false) ∨ ∃ f, core.run n s = .fault f) ∧
    (∃ n, (∃ t, core.run n s = .next t ∧ busy2 t = false) ∨ ∃ f, core.run n s = .fault f)
end

