-- ==== Sys2Proof/Laws/Bits.lean ====
section
/-! SUPPORT. The rotations and the packing, bit by bit. -/

namespace Sys2Proof.Machine

open Sys2Proof

theorem getLsbD_shl32 (x : Word) (n i : Nat) :
    (shl32 x n).getLsbD i = (decide (i < 32) && (!decide (i < n) && x.getLsbD (i - n))) := by
  simp [shl32, BitVec.getLsbD_shiftLeft, Bool.and_assoc]

theorem getLsbD_shr32 (x : Word) (n i : Nat) : (shr32 x n).getLsbD i = x.getLsbD (n + i) := by
  simp [shr32, BitVec.getLsbD_ushiftRight]

/-- Bit `(i + n) mod 32` of the left rotation is bit `i` of `x` (R100). -/
theorem rotl32_bit (x : Word) (n i : Nat) (h : n ≤ 31) (hi : i < 32) :
    (rotl32 x n).getLsbD ((i + n) % 32) = x.getLsbD i := by
  unfold rotl32
  split
  · next e => subst e; rw [Nat.add_zero, Nat.mod_eq_of_lt hi]
  · rw [BitVec.getLsbD_or, getLsbD_shl32, getLsbD_shr32]
    by_cases c : i + n < 32
    · rw [Nat.mod_eq_of_lt c, BitVec.getLsbD_of_ge x (32 - n + (i + n)) (by omega), Bool.or_false,
        Nat.add_sub_cancel, decide_eq_true c, decide_eq_false (by omega : ¬ i + n < n)]
      rfl
    · rw [show (i + n) % 32 = i + n - 32 by omega, decide_eq_true (by omega : i + n - 32 < n),
        show 32 - n + (i + n - 32) = i by omega]
      simp

/-- Bit `i` of the right rotation is bit `(i + n) mod 32` of `x` (R101). -/
theorem rotr32_bit (x : Word) (n i : Nat) (h : n ≤ 31) (hi : i < 32) :
    (rotr32 x n).getLsbD i = x.getLsbD ((i + n) % 32) := by
  unfold rotr32
  split
  · next e => subst e; rw [Nat.add_zero, Nat.mod_eq_of_lt hi]
  · rw [BitVec.getLsbD_or, getLsbD_shl32, getLsbD_shr32]
    by_cases c : i + n < 32
    · rw [Nat.mod_eq_of_lt c, decide_eq_true (by omega : i < 32 - n), Nat.add_comm n i]
      simp
    · rw [show (i + n) % 32 = i + n - 32 by omega, BitVec.getLsbD_of_ge x (n + i) (by omega),
        decide_eq_true hi, decide_eq_false (by omega : ¬ i < 32 - n), show i - (32 - n) = i + n - 32 by omega]
      simp

/-- Bit `i` of a packed word, taken from the byte that holds it (R102). -/
theorem packBE_bit (b0 b1 b2 b3 : Byte) (i : Nat) :
    (packBE b0 b1 b2 b3).getLsbD i =
      if i < 8 then b3.getLsbD i
      else if i - 8 < 8 then b2.getLsbD (i - 8)
      else if i - 8 - 8 < 8 then b1.getLsbD (i - 8 - 8)
      else b0.getLsbD (i - 8 - 8 - 8) := by
  unfold packBE
  simp only [BitVec.getLsbD_append]

theorem unpackByte_bit (w : Word) (k i : Nat) (hi : i < 8) :
    (unpackByte w k).getLsbD i = w.getLsbD (24 - 8 * k + i) := by
  simp [unpackByte, hi]

theorem unpackByte_packBE (b0 b1 b2 b3 : Byte) :
    unpackByte (packBE b0 b1 b2 b3) 0 = b0 ∧ unpackByte (packBE b0 b1 b2 b3) 1 = b1 ∧
      unpackByte (packBE b0 b1 b2 b3) 2 = b2 ∧ unpackByte (packBE b0 b1 b2 b3) 3 = b3 := by
  refine ⟨?_, ?_, ?_, ?_⟩
  · refine BitVec.eq_of_getLsbD_eq fun i hi => ?_
    rw [unpackByte_bit _ _ _ hi, packBE_bit, if_neg (by omega), if_neg (by omega), if_neg (by omega)]
    congr 1; omega
  · refine BitVec.eq_of_getLsbD_eq fun i hi => ?_
    rw [unpackByte_bit _ _ _ hi, packBE_bit, if_neg (by omega), if_neg (by omega), if_pos (by omega)]
    congr 1; omega
  · refine BitVec.eq_of_getLsbD_eq fun i hi => ?_
    rw [unpackByte_bit _ _ _ hi, packBE_bit, if_neg (by omega), if_pos (by omega)]
    congr 1; omega
  · refine BitVec.eq_of_getLsbD_eq fun i hi => ?_
    rw [unpackByte_bit _ _ _ hi, packBE_bit, if_pos (by omega)]
    congr 1; omega

theorem packBE_unpackByte (w : Word) :
    packBE (unpackByte w 0) (unpackByte w 1) (unpackByte w 2) (unpackByte w 3) = w := by
  refine BitVec.eq_of_getLsbD_eq fun i hi => ?_
  rw [packBE_bit]
  split
  · next h => rw [unpackByte_bit _ _ _ h]; congr 1; omega
  · split
    · next h => rw [unpackByte_bit _ _ _ h]; congr 1; omega
    · split
      · next h => rw [unpackByte_bit _ _ _ h]; congr 1; omega
      · rw [unpackByte_bit _ _ _ (by omega)]; congr 1; omega

/-- Byte `i` of a sequence of unpacked words is byte `i mod 4` of word `i div 4` (R35, R103). -/
theorem flatMap_unpackBE_getD (l : List Word) (i : Nat) (hi : i < 4 * l.length) :
    (l.flatMap unpackBE).getD i 0 = unpackByte (l[i / 4]'(by omega)) (i % 4) := by
  induction l generalizing i with
  | nil => simp at hi
  | cons w t ih =>
    rw [List.flatMap_cons]
    by_cases h : i < 4
    · rw [List.getD_append _ _ _ _ h]
      interval_cases i <;> rfl
    · have hl : (unpackBE w).length = 4 := rfl
      rw [List.getD_append_right _ _ _ _ (by omega), hl, ih (i - 4) (by simp at hi; omega)]
      congr 1
      · have : i / 4 = (i - 4) / 4 + 1 := by omega
        simp [this]
      · omega

end Sys2Proof.Machine
end

