-- ==== Sys2Proof/Laws/Capacity.lean ====
section
/-! SUPPORT. What is known of MAX_MSG_BYTES: its range (R6), and that the capacity test is the comparison with it. -/

namespace Sys2Proof.Machine

open Sys2Proof

theorem minCapacity_le_maxMsgBytes : Config.minCapacity ≤ Config.maxMsgBytes := by
  unfold Config.maxMsgBytes; omega

theorem maxMsgBytes_le_maxCapacity : Config.maxMsgBytes ≤ Config.maxCapacity := by
  have h : Config.capacitySeed % (Config.maxCapacity - Config.minCapacity + 1) < Config.maxCapacity - Config.minCapacity + 1 :=
    Nat.mod_lt _ (by decide)
  have e : Config.minCapacity ≤ Config.maxCapacity := by decide
  unfold Config.maxMsgBytes; omega

@[simp] theorem withinCapacity_iff (n : Nat) : withinCapacity n = true ↔ n ≤ Config.maxMsgBytes := by
  have h1 := minCapacity_le_maxMsgBytes
  have h2 := maxMsgBytes_le_maxCapacity
  simp only [withinCapacity, Bool.or_eq_true, Bool.and_eq_true, decide_eq_true_eq]
  omega

/-- The buffer lies inside the 32-bit address space (R6, R61). -/
theorem msgBase_add_capacity_le : Config.msgBase + Config.maxMsgBytes ≤ 2 ^ 32 := by
  have h := maxMsgBytes_le_maxCapacity
  have e : Config.msgBase + Config.maxCapacity = 2 ^ 32 := by decide
  omega

end Sys2Proof.Machine
end

