-- ==== Sys2Proof/Laws/Memory.lean ====
section
/-! SUPPORT. The message buffer: a read after a write, and that a write keeps the canonical form. -/

namespace Sys2Proof.Machine

open Sys2Proof

@[simp] theorem memGet_nil (a : Nat) : memGet [] a = none := rfl

theorem memGet_eq_none_of_lt (m : Memory) (a : Nat) (h : ∀ c ∈ m, a < c.1) : memGet m a = none := by
  induction m with
  | nil => rfl
  | cons c rest ih =>
    have hc := h c (by simp)
    simp only [memGet, if_neg (Nat.ne_of_gt hc)]
    exact ih fun d hd => h d (by simp [hd])

@[simp] theorem memGet_memSet_same (m : Memory) (a : Nat) (b : Byte) : memGet (memSet m a b) a = some b := by
  induction m with
  | nil => simp [memSet, memGet]
  | cons c rest ih =>
    simp only [memSet]
    split
    · simp [memGet]
    · split
      · simp [memGet]
      · next h => simp only [memGet, if_neg (Ne.symm h), ih]

theorem memGet_memSet_other (m : Memory) (a a' : Nat) (b : Byte) (h : a' ≠ a) :
    memGet (memSet m a b) a' = memGet m a' := by
  induction m with
  | nil => simp [memSet, memGet, Ne.symm h]
  | cons c rest ih =>
    simp only [memSet]
    split
    · simp [memGet, Ne.symm h]
    · split
      · next e => subst e; simp [memGet, Ne.symm h]
      · simp only [memGet, ih]

/-- The cells of a memory after a write: the written one and old ones. -/
theorem mem_memSet (m : Memory) (a : Nat) (b : Byte) (c : Host.Cell) (h : c ∈ memSet m a b) : c = (a, b) ∨ c ∈ m := by
  induction m with
  | nil => simp_all [memSet]
  | cons d rest ih =>
    simp only [memSet] at h
    split at h
    · simpa using h
    · split at h
      · simp only [List.mem_cons] at h ⊢; tauto
      · simp only [List.mem_cons] at h ⊢
        rcases h with h | h
        · exact .inr (.inl h)
        · rcases ih h with h | h
          · exact .inl h
          · exact .inr (.inr h)

theorem memSet_wf (m : Memory) (a : Nat) (b : Byte) (h : m.wf) : Memory.wf (memSet m a b) := by
  induction m with
  | nil => simp [memSet]
  | cons c rest ih =>
    have ⟨h1, h2⟩ := List.pairwise_cons.mp h
    simp only [memSet]
    split
    · next hlt =>
      refine List.pairwise_cons.mpr ⟨?_, h⟩
      intro d hd
      rcases List.mem_cons.mp hd with rfl | hd
      · exact hlt
      · exact Nat.lt_trans hlt (h1 d hd)
    · split
      · next e => exact List.pairwise_cons.mpr ⟨fun d hd => e ▸ h1 d hd, h2⟩
      · next hn he =>
        refine List.pairwise_cons.mpr ⟨?_, ih h2⟩
        intro d hd
        rcases mem_memSet rest a b d hd with rfl | hd
        · show c.1 < a
          omega
        · exact h1 d hd

@[simp] theorem msgByte_setMsgByte_same (m : Memory) (i : Nat) (b : Byte) : msgByte (setMsgByte m i b) i = some b :=
  memGet_memSet_same m _ b

theorem msgByte_setMsgByte_other (m : Memory) (i j : Nat) (b : Byte) (h : j ≠ i) :
    msgByte (setMsgByte m i b) j = msgByte m j :=
  memGet_memSet_other m _ _ b (by omega)

theorem setMsgByte_wf (m : Memory) (i : Nat) (b : Byte) (h : m.wf) : Memory.wf (setMsgByte m i b) :=
  memSet_wf m _ b h

end Sys2Proof.Machine
end

