-- ==== Sys2Proof/Laws/State.lean ====
section
/-! SUPPORT. What each named update of the state does to each field, so that no proof unfolds a record update. -/

namespace Sys2Proof.Machine

open Sys2Proof

@[simp] theorem raiseError_ua (e : ErrorBit) (s : State) : (raiseError e s).ua = s.ua := rfl
@[simp] theorem raiseError_uy (e : ErrorBit) (s : State) : (raiseError e s).uy = s.uy := rfl
@[simp] theorem raiseError_ub0 (e : ErrorBit) (s : State) : (raiseError e s).ub0 = s.ub0 := rfl
@[simp] theorem raiseError_ub1 (e : ErrorBit) (s : State) : (raiseError e s).ub1 = s.ub1 := rfl
@[simp] theorem raiseError_ub2 (e : ErrorBit) (s : State) : (raiseError e s).ub2 = s.ub2 := rfl
@[simp] theorem raiseError_ub3 (e : ErrorBit) (s : State) : (raiseError e s).ub3 = s.ub3 := rfl
@[simp] theorem raiseError_len (e : ErrorBit) (s : State) : (raiseError e s).len = s.len := rfl
@[simp] theorem raiseError_err (e : ErrorBit) (s : State) : (raiseError e s).err = s.err ||| e.mask := rfl
@[simp] theorem raiseError_mem (e : ErrorBit) (s : State) : (raiseError e s).mem = s.mem := rfl
@[simp] theorem raiseError_sha1 (e : ErrorBit) (s : State) : (raiseError e s).sha1 = s.sha1 := rfl
@[simp] theorem raiseError_sha256 (e : ErrorBit) (s : State) : (raiseError e s).sha256 = s.sha256 := rfl
@[simp] theorem raiseError_prog (e : ErrorBit) (s : State) : (raiseError e s).prog = s.prog := rfl
@[simp] theorem raiseError_hpc (e : ErrorBit) (s : State) : (raiseError e s).hpc = s.hpc := rfl
@[simp] theorem raiseError_resp (e : ErrorBit) (s : State) : (raiseError e s).resp = s.resp := rfl
@[simp] theorem raiseError_sched (e : ErrorBit) (s : State) : (raiseError e s).sched = s.sched := rfl
@[simp] theorem raiseError_rounds (e : ErrorBit) (s : State) : (raiseError e s).rounds = s.rounds := rfl
@[simp] theorem raiseError_draws (e : ErrorBit) (s : State) : (raiseError e s).draws = s.draws := rfl

@[simp] theorem clearErrors_ua (v : Word) (s : State) : (clearErrors v s).ua = s.ua := rfl
@[simp] theorem clearErrors_uy (v : Word) (s : State) : (clearErrors v s).uy = s.uy := rfl
@[simp] theorem clearErrors_ub0 (v : Word) (s : State) : (clearErrors v s).ub0 = s.ub0 := rfl
@[simp] theorem clearErrors_ub1 (v : Word) (s : State) : (clearErrors v s).ub1 = s.ub1 := rfl
@[simp] theorem clearErrors_ub2 (v : Word) (s : State) : (clearErrors v s).ub2 = s.ub2 := rfl
@[simp] theorem clearErrors_ub3 (v : Word) (s : State) : (clearErrors v s).ub3 = s.ub3 := rfl
@[simp] theorem clearErrors_len (v : Word) (s : State) : (clearErrors v s).len = s.len := rfl
@[simp] theorem clearErrors_err (v : Word) (s : State) : (clearErrors v s).err = s.err &&& ~~~(v.extractLsb' 8 4) := rfl
@[simp] theorem clearErrors_mem (v : Word) (s : State) : (clearErrors v s).mem = s.mem := rfl
@[simp] theorem clearErrors_sha1 (v : Word) (s : State) : (clearErrors v s).sha1 = s.sha1 := rfl
@[simp] theorem clearErrors_sha256 (v : Word) (s : State) : (clearErrors v s).sha256 = s.sha256 := rfl
@[simp] theorem clearErrors_prog (v : Word) (s : State) : (clearErrors v s).prog = s.prog := rfl
@[simp] theorem clearErrors_hpc (v : Word) (s : State) : (clearErrors v s).hpc = s.hpc := rfl
@[simp] theorem clearErrors_resp (v : Word) (s : State) : (clearErrors v s).resp = s.resp := rfl
@[simp] theorem clearErrors_sched (v : Word) (s : State) : (clearErrors v s).sched = s.sched := rfl
@[simp] theorem clearErrors_rounds (v : Word) (s : State) : (clearErrors v s).rounds = s.rounds := rfl
@[simp] theorem clearErrors_draws (v : Word) (s : State) : (clearErrors v s).draws = s.draws := rfl

@[simp] theorem setUy_ua (v : Word) (s : State) : (setUy v s).ua = s.ua := rfl
@[simp] theorem setUy_uy (v : Word) (s : State) : (setUy v s).uy = v := rfl
@[simp] theorem setUy_ub0 (v : Word) (s : State) : (setUy v s).ub0 = s.ub0 := rfl
@[simp] theorem setUy_ub1 (v : Word) (s : State) : (setUy v s).ub1 = s.ub1 := rfl
@[simp] theorem setUy_ub2 (v : Word) (s : State) : (setUy v s).ub2 = s.ub2 := rfl
@[simp] theorem setUy_ub3 (v : Word) (s : State) : (setUy v s).ub3 = s.ub3 := rfl
@[simp] theorem setUy_len (v : Word) (s : State) : (setUy v s).len = s.len := rfl
@[simp] theorem setUy_err (v : Word) (s : State) : (setUy v s).err = s.err := rfl
@[simp] theorem setUy_mem (v : Word) (s : State) : (setUy v s).mem = s.mem := rfl
@[simp] theorem setUy_sha1 (v : Word) (s : State) : (setUy v s).sha1 = s.sha1 := rfl
@[simp] theorem setUy_sha256 (v : Word) (s : State) : (setUy v s).sha256 = s.sha256 := rfl
@[simp] theorem setUy_prog (v : Word) (s : State) : (setUy v s).prog = s.prog := rfl
@[simp] theorem setUy_hpc (v : Word) (s : State) : (setUy v s).hpc = s.hpc := rfl
@[simp] theorem setUy_resp (v : Word) (s : State) : (setUy v s).resp = s.resp := rfl
@[simp] theorem setUy_sched (v : Word) (s : State) : (setUy v s).sched = s.sched := rfl
@[simp] theorem setUy_rounds (v : Word) (s : State) : (setUy v s).rounds = s.rounds := rfl
@[simp] theorem setUy_draws (v : Word) (s : State) : (setUy v s).draws = s.draws := rfl

@[simp] theorem setUbs_ua (v : Word) (s : State) : (setUbs v s).ua = s.ua := rfl
@[simp] theorem setUbs_uy (v : Word) (s : State) : (setUbs v s).uy = s.uy := rfl
@[simp] theorem setUbs_ub0 (v : Word) (s : State) : (setUbs v s).ub0 = unpackByte v 0 := rfl
@[simp] theorem setUbs_ub1 (v : Word) (s : State) : (setUbs v s).ub1 = unpackByte v 1 := rfl
@[simp] theorem setUbs_ub2 (v : Word) (s : State) : (setUbs v s).ub2 = unpackByte v 2 := rfl
@[simp] theorem setUbs_ub3 (v : Word) (s : State) : (setUbs v s).ub3 = unpackByte v 3 := rfl
@[simp] theorem setUbs_len (v : Word) (s : State) : (setUbs v s).len = s.len := rfl
@[simp] theorem setUbs_err (v : Word) (s : State) : (setUbs v s).err = s.err := rfl
@[simp] theorem setUbs_mem (v : Word) (s : State) : (setUbs v s).mem = s.mem := rfl
@[simp] theorem setUbs_sha1 (v : Word) (s : State) : (setUbs v s).sha1 = s.sha1 := rfl
@[simp] theorem setUbs_sha256 (v : Word) (s : State) : (setUbs v s).sha256 = s.sha256 := rfl
@[simp] theorem setUbs_prog (v : Word) (s : State) : (setUbs v s).prog = s.prog := rfl
@[simp] theorem setUbs_hpc (v : Word) (s : State) : (setUbs v s).hpc = s.hpc := rfl
@[simp] theorem setUbs_resp (v : Word) (s : State) : (setUbs v s).resp = s.resp := rfl
@[simp] theorem setUbs_sched (v : Word) (s : State) : (setUbs v s).sched = s.sched := rfl
@[simp] theorem setUbs_rounds (v : Word) (s : State) : (setUbs v s).rounds = s.rounds := rfl
@[simp] theorem setUbs_draws (v : Word) (s : State) : (setUbs v s).draws = s.draws := rfl

@[simp] theorem advance_ua (s : State) : (advance s).ua = s.ua := rfl
@[simp] theorem advance_uy (s : State) : (advance s).uy = s.uy := rfl
@[simp] theorem advance_ub0 (s : State) : (advance s).ub0 = s.ub0 := rfl
@[simp] theorem advance_ub1 (s : State) : (advance s).ub1 = s.ub1 := rfl
@[simp] theorem advance_ub2 (s : State) : (advance s).ub2 = s.ub2 := rfl
@[simp] theorem advance_ub3 (s : State) : (advance s).ub3 = s.ub3 := rfl
@[simp] theorem advance_len (s : State) : (advance s).len = s.len := rfl
@[simp] theorem advance_err (s : State) : (advance s).err = s.err := rfl
@[simp] theorem advance_mem (s : State) : (advance s).mem = s.mem := rfl
@[simp] theorem advance_sha1 (s : State) : (advance s).sha1 = s.sha1 := rfl
@[simp] theorem advance_sha256 (s : State) : (advance s).sha256 = s.sha256 := rfl
@[simp] theorem advance_prog (s : State) : (advance s).prog = s.prog := rfl
@[simp] theorem advance_hpc (s : State) : (advance s).hpc = s.hpc + 1 := rfl
@[simp] theorem advance_resp (s : State) : (advance s).resp = s.resp := rfl
@[simp] theorem advance_sched (s : State) : (advance s).sched = s.sched := rfl
@[simp] theorem advance_rounds (s : State) : (advance s).rounds = s.rounds := rfl
@[simp] theorem advance_draws (s : State) : (advance s).draws = s.draws := rfl

@[simp] theorem respond_ua (p : Word × State) : (respond p).ua = p.2.ua := rfl
@[simp] theorem respond_uy (p : Word × State) : (respond p).uy = p.2.uy := rfl
@[simp] theorem respond_ub0 (p : Word × State) : (respond p).ub0 = p.2.ub0 := rfl
@[simp] theorem respond_ub1 (p : Word × State) : (respond p).ub1 = p.2.ub1 := rfl
@[simp] theorem respond_ub2 (p : Word × State) : (respond p).ub2 = p.2.ub2 := rfl
@[simp] theorem respond_ub3 (p : Word × State) : (respond p).ub3 = p.2.ub3 := rfl
@[simp] theorem respond_len (p : Word × State) : (respond p).len = p.2.len := rfl
@[simp] theorem respond_err (p : Word × State) : (respond p).err = p.2.err := rfl
@[simp] theorem respond_mem (p : Word × State) : (respond p).mem = p.2.mem := rfl
@[simp] theorem respond_sha1 (p : Word × State) : (respond p).sha1 = p.2.sha1 := rfl
@[simp] theorem respond_sha256 (p : Word × State) : (respond p).sha256 = p.2.sha256 := rfl
@[simp] theorem respond_prog (p : Word × State) : (respond p).prog = p.2.prog := rfl
@[simp] theorem respond_hpc (p : Word × State) : (respond p).hpc = p.2.hpc := rfl
@[simp] theorem respond_resp (p : Word × State) : (respond p).resp = Response.data p.1 := rfl
@[simp] theorem respond_sched (p : Word × State) : (respond p).sched = p.2.sched := rfl
@[simp] theorem respond_rounds (p : Word × State) : (respond p).rounds = p.2.rounds := rfl
@[simp] theorem respond_draws (p : Word × State) : (respond p).draws = p.2.draws := rfl

@[simp] theorem drawWord_ua (s : State) : (drawWord s).2.ua = s.ua := rfl
@[simp] theorem drawWord_uy (s : State) : (drawWord s).2.uy = s.uy := rfl
@[simp] theorem drawWord_ub0 (s : State) : (drawWord s).2.ub0 = s.ub0 := rfl
@[simp] theorem drawWord_ub1 (s : State) : (drawWord s).2.ub1 = s.ub1 := rfl
@[simp] theorem drawWord_ub2 (s : State) : (drawWord s).2.ub2 = s.ub2 := rfl
@[simp] theorem drawWord_ub3 (s : State) : (drawWord s).2.ub3 = s.ub3 := rfl
@[simp] theorem drawWord_len (s : State) : (drawWord s).2.len = s.len := rfl
@[simp] theorem drawWord_err (s : State) : (drawWord s).2.err = s.err := rfl
@[simp] theorem drawWord_mem (s : State) : (drawWord s).2.mem = s.mem := rfl
@[simp] theorem drawWord_sha1 (s : State) : (drawWord s).2.sha1 = s.sha1 := rfl
@[simp] theorem drawWord_sha256 (s : State) : (drawWord s).2.sha256 = s.sha256 := rfl
@[simp] theorem drawWord_prog (s : State) : (drawWord s).2.prog = s.prog := rfl
@[simp] theorem drawWord_hpc (s : State) : (drawWord s).2.hpc = s.hpc := rfl
@[simp] theorem drawWord_resp (s : State) : (drawWord s).2.resp = s.resp := rfl
@[simp] theorem drawWord_sched (s : State) : (drawWord s).2.sched = s.sched := rfl
@[simp] theorem drawWord_rounds (s : State) : (drawWord s).2.rounds = s.rounds := rfl
@[simp] theorem drawWord_draws (s : State) : (drawWord s).2.draws = s.draws + 1 := rfl

@[simp] theorem drawByte_ua (s : State) : (drawByte s).2.ua = s.ua := rfl
@[simp] theorem drawByte_uy (s : State) : (drawByte s).2.uy = s.uy := rfl
@[simp] theorem drawByte_ub0 (s : State) : (drawByte s).2.ub0 = s.ub0 := rfl
@[simp] theorem drawByte_ub1 (s : State) : (drawByte s).2.ub1 = s.ub1 := rfl
@[simp] theorem drawByte_ub2 (s : State) : (drawByte s).2.ub2 = s.ub2 := rfl
@[simp] theorem drawByte_ub3 (s : State) : (drawByte s).2.ub3 = s.ub3 := rfl
@[simp] theorem drawByte_len (s : State) : (drawByte s).2.len = s.len := rfl
@[simp] theorem drawByte_err (s : State) : (drawByte s).2.err = s.err := rfl
@[simp] theorem drawByte_mem (s : State) : (drawByte s).2.mem = s.mem := rfl
@[simp] theorem drawByte_sha1 (s : State) : (drawByte s).2.sha1 = s.sha1 := rfl
@[simp] theorem drawByte_sha256 (s : State) : (drawByte s).2.sha256 = s.sha256 := rfl
@[simp] theorem drawByte_prog (s : State) : (drawByte s).2.prog = s.prog := rfl
@[simp] theorem drawByte_hpc (s : State) : (drawByte s).2.hpc = s.hpc := rfl
@[simp] theorem drawByte_resp (s : State) : (drawByte s).2.resp = s.resp := rfl
@[simp] theorem drawByte_sched (s : State) : (drawByte s).2.sched = s.sched := rfl
@[simp] theorem drawByte_rounds (s : State) : (drawByte s).2.rounds = s.rounds := rfl
@[simp] theorem drawByte_draws (s : State) : (drawByte s).2.draws = s.draws + 1 := rfl

@[simp] theorem assertReset_ua (s : State) : (assertReset s).ua = State.reset.ua := rfl
@[simp] theorem assertReset_uy (s : State) : (assertReset s).uy = State.reset.uy := rfl
@[simp] theorem assertReset_ub0 (s : State) : (assertReset s).ub0 = State.reset.ub0 := rfl
@[simp] theorem assertReset_ub1 (s : State) : (assertReset s).ub1 = State.reset.ub1 := rfl
@[simp] theorem assertReset_ub2 (s : State) : (assertReset s).ub2 = State.reset.ub2 := rfl
@[simp] theorem assertReset_ub3 (s : State) : (assertReset s).ub3 = State.reset.ub3 := rfl
@[simp] theorem assertReset_len (s : State) : (assertReset s).len = State.reset.len := rfl
@[simp] theorem assertReset_err (s : State) : (assertReset s).err = State.reset.err := rfl
@[simp] theorem assertReset_mem (s : State) : (assertReset s).mem = State.reset.mem := rfl
@[simp] theorem assertReset_sha1 (s : State) : (assertReset s).sha1 = State.reset.sha1 := rfl
@[simp] theorem assertReset_sha256 (s : State) : (assertReset s).sha256 = State.reset.sha256 := rfl
@[simp] theorem assertReset_prog (s : State) : (assertReset s).prog = s.prog := rfl
@[simp] theorem assertReset_hpc (s : State) : (assertReset s).hpc = s.hpc := rfl
@[simp] theorem assertReset_resp (s : State) : (assertReset s).resp = s.resp := rfl
@[simp] theorem assertReset_sched (s : State) : (assertReset s).sched = s.sched := rfl
@[simp] theorem assertReset_rounds (s : State) : (assertReset s).rounds = s.rounds := rfl
@[simp] theorem assertReset_draws (s : State) : (assertReset s).draws = s.draws := rfl

@[simp] theorem issueCommand_ua (cw : Word) (s : State) : (issueCommand cw s).ua = s.ua := rfl
@[simp] theorem issueCommand_uy (cw : Word) (s : State) : (issueCommand cw s).uy = s.uy := rfl
@[simp] theorem issueCommand_ub0 (cw : Word) (s : State) : (issueCommand cw s).ub0 = s.ub0 := rfl
@[simp] theorem issueCommand_ub1 (cw : Word) (s : State) : (issueCommand cw s).ub1 = s.ub1 := rfl
@[simp] theorem issueCommand_ub2 (cw : Word) (s : State) : (issueCommand cw s).ub2 = s.ub2 := rfl
@[simp] theorem issueCommand_ub3 (cw : Word) (s : State) : (issueCommand cw s).ub3 = s.ub3 := rfl
@[simp] theorem issueCommand_len (cw : Word) (s : State) : (issueCommand cw s).len = s.len := rfl
@[simp] theorem issueCommand_err (cw : Word) (s : State) : (issueCommand cw s).err = s.err := rfl
@[simp] theorem issueCommand_mem (cw : Word) (s : State) : (issueCommand cw s).mem = s.mem := rfl
@[simp] theorem issueCommand_sha1 (cw : Word) (s : State) : (issueCommand cw s).sha1 = s.sha1 := rfl
@[simp] theorem issueCommand_sha256 (cw : Word) (s : State) : (issueCommand cw s).sha256 = s.sha256 := rfl
@[simp] theorem issueCommand_prog (cw : Word) (s : State) : (issueCommand cw s).prog = [.access (.write (BitVec.ofNat 32 (Config.regBase + Reg.cmd.offset)) 4 cw)] := rfl
@[simp] theorem issueCommand_hpc (cw : Word) (s : State) : (issueCommand cw s).hpc = 0 := rfl
@[simp] theorem issueCommand_resp (cw : Word) (s : State) : (issueCommand cw s).resp = s.resp := rfl
@[simp] theorem issueCommand_sched (cw : Word) (s : State) : (issueCommand cw s).sched = .host :: s.sched := rfl
@[simp] theorem issueCommand_rounds (cw : Word) (s : State) : (issueCommand cw s).rounds = s.rounds := rfl
@[simp] theorem issueCommand_draws (cw : Word) (s : State) : (issueCommand cw s).draws = s.draws := rfl

theorem setUb_other (k : Fin 4) (b : Byte) (s : State) :
    setUb k b s = { s with ub0 := (setUb k b s).ub0, ub1 := (setUb k b s).ub1, ub2 := (setUb k b s).ub2, ub3 := (setUb k b s).ub3 } := by
  match k with
  | 0 => rfl
  | 1 => rfl
  | 2 => rfl
  | 3 => rfl

@[simp] theorem getUb_setUb_same (k : Fin 4) (b : Byte) (s : State) : getUb k (setUb k b s) = b := by
  match k with
  | 0 => rfl
  | 1 => rfl
  | 2 => rfl
  | 3 => rfl

@[simp] theorem takeTurn_prog (s : State) : (takeTurn s).2.prog = s.prog := by
  unfold takeTurn; split <;> rfl

@[simp] theorem takeTurn_hpc (s : State) : (takeTurn s).2.hpc = s.hpc := by
  unfold takeTurn; split <;> rfl

@[simp] theorem takeTurn_mem (s : State) : (takeTurn s).2.mem = s.mem := by
  unfold takeTurn; split <;> rfl

@[simp] theorem takeTurn_sha1 (s : State) : (takeTurn s).2.sha1 = s.sha1 := by
  unfold takeTurn; split <;> rfl

@[simp] theorem takeTurn_sha256 (s : State) : (takeTurn s).2.sha256 = s.sha256 := by
  unfold takeTurn; split <;> rfl

@[simp] theorem takeTurn_err (s : State) : (takeTurn s).2.err = s.err := by
  unfold takeTurn; split <;> rfl

/-- Taking a turn changes the schedule and its counter only. -/
theorem takeTurn_only_schedule (s : State) :
    (takeTurn s).2 = { s with sched := (takeTurn s).2.sched, rounds := (takeTurn s).2.rounds } := by
  unfold takeTurn; split <;> rfl

@[simp] theorem takeTurn_scheduled (s : State) (a : Agent) (rest : List Agent) (h : s.sched = a :: rest) :
    takeTurn s = (a, { s with sched := rest }) := by
  unfold takeTurn; rw [h]

end Sys2Proof.Machine
end

