-- ==== Sys2Proof/Laws/Bus.lean ====
section
/-! SUPPORT. Everything a command, a register write, a host access and a host statement can do, said once. -/

namespace Sys2Proof.Machine

open Sys2Proof

/-- A raised error bit is set and the others stay. -/
theorem raiseError_keeps (e : ErrorBit) (s : State) (i : Nat) (h : s.err.getLsbD i = true) :
    (raiseError e s).err.getLsbD i = true := by
  rw [raiseError_err, BitVec.getLsbD_or, h]; rfl

/-- Everything INIT or RUN of the SHA-1 engine can do. -/
theorem start1_cases (mode : RunMode) (st : Phase) (s : State) :
    (busy1 s = true ∧ start1 mode st s = raiseError .busy s) ∨
    (busy1 s = false ∧ Config.maxMsgBytes < s.len.toNat ∧ start1 mode st s = raiseError .len s) ∨
    (busy1 s = false ∧ s.len.toNat ≤ Config.maxMsgBytes ∧
      start1 mode st s = { s with sha1 := latch1 s.len mode st s.sha1 }) := by
  unfold start1
  cases hb : busy1 s
  · right
    by_cases hc : s.len.toNat ≤ Config.maxMsgBytes
    · right
      refine ⟨rfl, hc, ?_⟩
      rw [if_neg (by decide), if_pos ((withinCapacity_iff _).mpr hc)]
    · left
      refine ⟨rfl, by omega, ?_⟩
      rw [if_neg (by decide), if_neg (fun h => hc ((withinCapacity_iff _).mp h))]
  · left; simp

/-- Everything INIT or RUN of the SHA-256 engine can do. -/
theorem start2_cases (mode : RunMode) (st : Phase) (s : State) :
    (busy2 s = true ∧ start2 mode st s = raiseError .busy s) ∨
    (busy2 s = false ∧ Config.maxMsgBytes < s.len.toNat ∧ start2 mode st s = raiseError .len s) ∨
    (busy2 s = false ∧ s.len.toNat ≤ Config.maxMsgBytes ∧
      start2 mode st s = { s with sha256 := latch2 s.len mode st s.sha256 }) := by
  unfold start2
  cases hb : busy2 s
  · right
    by_cases hc : s.len.toNat ≤ Config.maxMsgBytes
    · right
      refine ⟨rfl, hc, ?_⟩
      rw [if_neg (by decide), if_pos ((withinCapacity_iff _).mpr hc)]
    · left
      refine ⟨rfl, by omega, ?_⟩
      rw [if_neg (by decide), if_neg (fun h => hc ((withinCapacity_iff _).mp h))]
  · left; simp

/-- Everything a command can do: a utility command writes UY or UB0..UB3, an engine command raises an error or changes its own
engine as its rule says. It always answers a state. -/
theorem exec_cases (i : Instr) (s : State) :
    ∃ t, exec i s = .next t ∧
      ((t = { s with uy := t.uy, ub0 := t.ub0, ub1 := t.ub1, ub2 := t.ub2, ub3 := t.ub3 }) ∨
      (∃ e, t = raiseError e s) ∨
      (busy1 s = false ∧ s.len.toNat ≤ Config.maxMsgBytes ∧ i = .sha1Init ∧
        t = { s with sha1 := latch1 s.len .single .idle s.sha1 }) ∨
      (busy1 s = false ∧ s.len.toNat ≤ Config.maxMsgBytes ∧ i = .sha1Run ∧
        t = { s with sha1 := latch1 s.len .all .load s.sha1 }) ∨
      (busy1 s = false ∧ s.sha1.blk < s.sha1.nblk ∧ i = .sha1Block ∧
        t = { s with sha1 := { s.sha1 with mode := .single, st := .load } }) ∨
      (busy2 s = false ∧ s.len.toNat ≤ Config.maxMsgBytes ∧ i = .sha256Init ∧
        t = { s with sha256 := latch2 s.len .single .idle s.sha256 }) ∨
      (busy2 s = false ∧ s.len.toNat ≤ Config.maxMsgBytes ∧ i = .sha256Run ∧
        t = { s with sha256 := latch2 s.len .all .load s.sha256 }) ∨
      (busy2 s = false ∧ s.sha256.blk < s.sha256.nblk ∧ i = .sha256Block ∧
        t = { s with sha256 := { s.sha256 with mode := .single, st := .load } })) := by
  cases i with
  | rotl amt => exact ⟨_, rfl, .inl rfl⟩
  | rotr amt => exact ⟨_, rfl, .inl rfl⟩
  | packbe => exact ⟨_, rfl, .inl rfl⟩
  | unpackbe => exact ⟨_, rfl, .inl rfl⟩
  | sha1Init =>
    refine ⟨_, rfl, .inr ?_⟩
    rcases start1_cases .single .idle s with ⟨_, h⟩ | ⟨_, _, h⟩ | ⟨h1, h2, h⟩
    · exact .inl ⟨_, h⟩
    · exact .inl ⟨_, h⟩
    · exact .inr (.inl ⟨h1, h2, rfl, h⟩)
  | sha1Run =>
    refine ⟨_, rfl, .inr ?_⟩
    rcases start1_cases .all .load s with ⟨_, h⟩ | ⟨_, _, h⟩ | ⟨h1, h2, h⟩
    · exact .inl ⟨_, h⟩
    · exact .inl ⟨_, h⟩
    · exact .inr (.inr (.inl ⟨h1, h2, rfl, h⟩))
  | sha1Block =>
    simp only [exec, execSha1Block]
    cases hb : busy1 s
    · rw [if_neg (by decide)]
      split
      · exact ⟨_, rfl, .inr (.inl ⟨_, rfl⟩)⟩
      · next h => exact ⟨_, rfl, .inr (.inr (.inr (.inr (.inl ⟨rfl, BitVec.not_le.mp h, trivial, rfl⟩))))⟩
    · exact ⟨_, rfl, .inr (.inl ⟨_, rfl⟩)⟩
  | sha256Init =>
    refine ⟨_, rfl, .inr ?_⟩
    rcases start2_cases .single .idle s with ⟨_, h⟩ | ⟨_, _, h⟩ | ⟨h1, h2, h⟩
    · exact .inl ⟨_, h⟩
    · exact .inl ⟨_, h⟩
    · exact .inr (.inr (.inr (.inr (.inl ⟨h1, h2, rfl, h⟩))))
  | sha256Run =>
    refine ⟨_, rfl, .inr ?_⟩
    rcases start2_cases .all .load s with ⟨_, h⟩ | ⟨_, _, h⟩ | ⟨h1, h2, h⟩
    · exact .inl ⟨_, h⟩
    · exact .inl ⟨_, h⟩
    · exact .inr (.inr (.inr (.inr (.inr (.inl ⟨h1, h2, rfl, h⟩)))))
  | sha256Block =>
    simp only [exec, execSha256Block]
    cases hb : busy2 s
    · rw [if_neg (by decide)]
      split
      · exact ⟨_, rfl, .inr (.inl ⟨_, rfl⟩)⟩
      · next h => exact ⟨_, rfl, .inr (.inr (.inr (.inr (.inr (.inr (.inr ⟨rfl, BitVec.not_le.mp h, trivial, rfl⟩))))))⟩
    · exact ⟨_, rfl, .inr (.inl ⟨_, rfl⟩)⟩

/-- A register read changes nothing but the count of free values. -/
theorem readReg_only_draws (r : Reg) (s : State) : (readReg r s).2 = { s with draws := (readReg r s).2.draws } := by
  have hw : ∀ b v, (resultWord b v s).2 = { s with draws := (resultWord b v s).2.draws } := fun b v => by
    unfold resultWord; split <;> rfl
  have hb : ∀ b v, (resultByte b v s).2 = { s with draws := (resultByte b v s).2.draws } := fun b v => by
    unfold resultByte; split <;> rfl
  cases r <;> first | rfl | exact hw _ _ | exact hb _ _

theorem readOffset_only_draws (off : Nat) (s : State) :
    (readOffset off s).2 = { s with draws := (readOffset off s).2.draws } := by
  unfold readOffset
  split
  · exact readReg_only_draws _ s
  · rfl

theorem readMsg_only_draws (i : Nat) (s : State) : (readMsg i s).2 = { s with draws := (readMsg i s).2.draws } := by
  unfold readMsg; split <;> rfl

theorem regAt_some_offset (off : Nat) (r : Reg) (h : regAt off = some r) (h4 : off % 4 = 0) : r.offset = off := by
  unfold regAt at h
  by_cases c : off = 0x000
  · rw [if_pos c] at h; cases h; exact c.symm
  rw [if_neg c] at h; clear c
  by_cases c : off = 0x004
  · rw [if_pos c] at h; cases h; exact c.symm
  rw [if_neg c] at h; clear c
  by_cases c : off = 0x008
  · rw [if_pos c] at h; cases h; exact c.symm
  rw [if_neg c] at h; clear c
  by_cases c : off = 0x010
  · rw [if_pos c] at h; cases h; exact c.symm
  rw [if_neg c] at h; clear c
  by_cases c : off = 0x014
  · rw [if_pos c] at h; cases h; exact c.symm
  rw [if_neg c] at h; clear c
  by_cases c : 0x018 ≤ off ∧ off < 0x028
  · rw [dif_pos c] at h; cases h; simp only [Reg.offset]; omega
  rw [dif_neg c] at h; clear c
  by_cases c : 0x040 ≤ off ∧ off < 0x054
  · rw [dif_pos c] at h; cases h; simp only [Reg.offset]; omega
  rw [dif_neg c] at h; clear c
  by_cases c : 0x060 ≤ off ∧ off < 0x080
  · rw [dif_pos c] at h; cases h; simp only [Reg.offset]; omega
  rw [dif_neg c] at h; clear c
  by_cases c : off = 0x080
  · rw [if_pos c] at h; cases h; exact c.symm
  rw [if_neg c] at h; clear c
  by_cases c : off = 0x084
  · rw [if_pos c] at h; cases h; exact c.symm
  rw [if_neg c] at h; clear c
  by_cases c : off = 0x088
  · rw [if_pos c] at h; cases h; exact c.symm
  rw [if_neg c] at h; clear c
  by_cases c : off = 0x08C
  · rw [if_pos c] at h; cases h; exact c.symm
  rw [if_neg c] at h; clear c
  by_cases c : 0x100 ≤ off ∧ off < 0x150
  · rw [dif_pos c] at h; cases h; simp only [Reg.offset]; omega
  rw [dif_neg c] at h; clear c
  by_cases c : 0x180 ≤ off ∧ off < 0x200
  · rw [dif_pos c] at h; cases h; simp only [Reg.offset]; omega
  rw [dif_neg c] at h; clear c
  cases h

@[simp] theorem regAt_offset (r : Reg) : regAt r.offset = some r := by
  cases r with
  | ub k => revert k; decide
  | h1 k => revert k; decide
  | h2 k => revert k; decide
  | dout1 k => revert k; decide
  | dout2 k => revert k; decide
  | _ => rfl

theorem regAccess_iff (addr : Word) (width : Nat) :
    regAccess addr width = true ↔ width = 4 ∧ addr.toNat % 4 = 0 ∧ addr.toNat < 0x400 := by
  simp [regAccess, Config.regBase, Config.regWindow, and_assoc]

theorem msgAccess_iff (addr : Word) (width : Nat) :
    msgAccess addr width = true ↔
      width = 1 ∧ Config.msgBase ≤ addr.toNat ∧ addr.toNat < Config.msgBase + Config.maxMsgBytes := by
  simp only [msgAccess, Bool.and_eq_true, decide_eq_true_eq, withinCapacity_iff]
  omega

/-- A bus address in the buffer, from the index of its byte. -/
theorem msgAddress_toNat (i : Nat) (h : i < Config.maxMsgBytes) :
    (BitVec.ofNat 32 (Config.msgBase + i) : Word).toNat = Config.msgBase + i := by
  have h2 := msgBase_add_capacity_le
  rw [BitVec.toNat_ofNat]
  exact Nat.mod_eq_of_lt (by omega)

/-- What a register write that is no command does to the core: STATUS loses error bits, or LEN, UA or a UB is stored, or nothing
happens. -/
theorem writeReg_cases (r : Reg) (v : Word) (s : State) :
    (r = .cmd ∧ writeReg r v s = writeCmd v s) ∨ (r = .status ∧ writeReg r v s = .next (clearErrors v s)) ∨
    ∃ t, writeReg r v s = .next t ∧
      t = { s with len := t.len, ua := t.ua, ub0 := t.ub0, ub1 := t.ub1, ub2 := t.ub2, ub3 := t.ub3 } := by
  cases r with
  | cmd => exact .inl ⟨rfl, rfl⟩
  | status => exact .inr (.inl ⟨rfl, rfl⟩)
  | ub k =>
    refine .inr (.inr ⟨_, rfl, ?_⟩)
    match k with
    | 0 => rfl
    | 1 => rfl
    | 2 => rfl
    | 3 => rfl
  | _ => exact .inr (.inr ⟨_, rfl, rfl⟩)

/-- Everything one statement of the host can do. It always answers a state. -/
theorem hostTurn_cases (s : State) :
    ∃ t, hostTurn s = .next t ∧
      -- a read, a branch, a malformed access, or no statement left
      ((t = { s with hpc := t.hpc, resp := t.resp, draws := t.draws }) ∨
      -- a command
      (∃ cw i, s.prog[s.hpc]? = some (.access (.write 0#32 4 cw)) ∧ decode cw = .ok i ∧
        exec i { advance s with resp := .okay } = .next t) ∨
      -- an illegal command word, or a dropped buffer write
      (∃ e, t = raiseError e { advance s with resp := .okay }) ∨
      -- a write to STATUS
      (∃ v, s.prog[s.hpc]? = some (.access (.write 4#32 4 v)) ∧
        t = clearErrors v { advance s with resp := .okay }) ∨
      -- a write to another register
      (t = { s with
        len := t.len, ua := t.ua, ub0 := t.ub0, ub1 := t.ub1, ub2 := t.ub2, ub3 := t.ub3, hpc := t.hpc, resp := t.resp }) ∨
      -- a write to the message buffer
      (∃ i v, i < Config.maxMsgBytes ∧ busy1 s = false ∧ busy2 s = false ∧
        s.prog[s.hpc]? = some (.access (.write (BitVec.ofNat 32 (Config.msgBase + i)) 1 v)) ∧
        t = { s with mem := setMsgByte s.mem i (v.extractLsb' 0 8), hpc := s.hpc + 1, resp := .okay }) ∨
      -- reset
      (s.prog[s.hpc]? = some .reset ∧ t = assertReset (advance s))) := by
  unfold hostTurn
  cases hop : s.prog[s.hpc]? with
  | none => exact ⟨s, rfl, .inl rfl⟩
  | some op =>
    cases op with
    | reset => exact ⟨_, rfl, by simp⟩
    | bnz target reg mask =>
      refine ⟨_, rfl, .inl ?_⟩
      have h := readReg_only_draws reg s
      have hr : respond (readReg reg s) =
          { s with draws := (readReg reg s).2.draws, resp := .data (readReg reg s).1 } := by
        unfold respond; rw [h]
      simp only [branchNonzero]
      split
      · rw [hr]
      · rw [hr]; rfl
    | access a =>
      cases a with
      | read addr width =>
        simp only [busAccess]
        split
        · refine ⟨_, rfl, .inl ?_⟩
          unfold respond; rw [readOffset_only_draws]; rfl
        · split
          · refine ⟨_, rfl, .inl ?_⟩
            unfold respond; rw [readMsg_only_draws]; rfl
          · exact ⟨_, rfl, .inl rfl⟩
      | write addr width v =>
        simp only [busAccess]
        split
        · next hreg =>
          obtain ⟨rfl, hmod, hlt⟩ := (regAccess_iff addr width).mp hreg
          unfold writeOffset
          cases hr : regAt (regOffset addr) with
          | none => exact ⟨_, rfl, .inl rfl⟩
          | some r =>
            have hoff := regAt_some_offset _ r hr (by simpa [regOffset, Config.regBase] using hmod)
            have haddr : addr.toNat = r.offset := by rw [hoff]; simp [regOffset, Config.regBase]
            simp only
            rcases writeReg_cases r v { advance s with resp := .okay } with ⟨rfl, hw⟩ | ⟨rfl, hw⟩ | ⟨t, hw, ht⟩
            · have ha : addr = 0#32 := BitVec.eq_of_toNat_eq (by rw [haddr]; rfl)
              rw [hw]
              unfold writeCmd
              cases hd : decode v with
              | error e => exact ⟨_, rfl, .inr (.inr (.inl ⟨_, rfl⟩))⟩
              | ok i =>
                obtain ⟨t, ht, _⟩ := exec_cases i { advance s with resp := .okay }
                exact ⟨t, ht, .inr (.inl ⟨v, i, by rw [ha], hd, ht⟩)⟩
            · have ha : addr = 4#32 := BitVec.eq_of_toNat_eq (by rw [haddr]; rfl)
              rw [hw]
              exact ⟨_, rfl, .inr (.inr (.inr (.inl ⟨v, by rw [ha], rfl⟩)))⟩
            · rw [hw]
              refine ⟨t, rfl, .inr (.inr (.inr (.inr (.inl ?_))))⟩
              rw [ht]; rfl
        · split
          · next hmsg =>
            obtain ⟨rfl, hlo, hhi⟩ := (msgAccess_iff addr width).mp hmsg
            refine ⟨_, rfl, ?_⟩
            unfold writeMsg
            by_cases hb : (busy1 s || busy2 s) = true
            · have hb' : (busy1 { advance s with resp := .okay } || busy2 { advance s with resp := .okay }) = true := hb
              rw [if_pos hb']
              exact .inr (.inr (.inl ⟨_, rfl⟩))
            · have hb' : ¬ (busy1 { advance s with resp := .okay } || busy2 { advance s with resp := .okay }) = true := hb
              rw [if_neg hb']
              have ha : addr = BitVec.ofNat 32 (Config.msgBase + msgIndex addr) := BitVec.eq_of_toNat_eq (by
                rw [msgAddress_toNat _ (by unfold msgIndex; omega)]
                unfold msgIndex; omega)
              simp only [Bool.or_eq_true, not_or, Bool.not_eq_true] at hb
              refine .inr (.inr (.inr (.inr (.inr (.inl
                ⟨msgIndex addr, v, by unfold msgIndex; omega, hb.1, hb.2, ?_, ?_⟩)))))
              · rw [← ha]
              · have hv : v.setWidth 8 = v.extractLsb' 0 8 := by
                  apply BitVec.eq_of_getLsbD_eq; intro k hk; simp [hk]
                rw [hv]; rfl
          · exact ⟨_, rfl, .inl rfl⟩

@[simp] theorem readOffset_offset (r : Reg) (s : State) : readOffset r.offset s = readReg r s := by
  unfold readOffset; rw [regAt_offset]

@[simp] theorem writeOffset_offset (r : Reg) (v : Word) (s : State) : writeOffset r.offset v s = writeReg r v s := by
  unfold writeOffset; rw [regAt_offset]

/-- A register access reaches the offset that is its address, for `REG_BASE` is 0 (R61, R62). -/
theorem regOffset_eq (addr : Word) : regOffset addr = addr.toNat := rfl

/-- An aligned word address below 0x400 is a register access (R62). -/
theorem regAccess_of_lt (addr : Word) (h4 : addr.toNat % 4 = 0) (h : addr.toNat < 0x400) : regAccess addr 4 = true :=
  (regAccess_iff addr 4).mpr ⟨rfl, h4, h⟩

theorem msgBase_eq : Config.msgBase = 0x00100000 := rfl

/-- `msgAccess_iff` with the base address written out (R6, R61). -/
theorem msgAccess_iff_base (addr : Word) (width : Nat) :
    msgAccess addr width = true ↔
      width = 1 ∧ 0x00100000 ≤ addr.toNat ∧ addr.toNat < 0x00100000 + Config.maxMsgBytes := by
  rw [msgAccess_iff, msgBase_eq]

/-- A byte access to `MSG_BASE + i`, the address given as a number, reaches message byte `i` and no register (R61, R63). -/
theorem msgAccess_of_toNat (addr : Word) (i : Nat) (h : i < Config.maxMsgBytes) (ha : addr.toNat = 0x00100000 + i) :
    regAccess addr 1 = false ∧ msgAccess addr 1 = true ∧ msgIndex addr = i := by
  refine ⟨rfl, (msgAccess_iff_base addr 1).mpr ⟨rfl, by omega, by omega⟩, ?_⟩
  unfold msgIndex; rw [msgBase_eq]; omega

/-- The bus address of a message byte reaches that byte and no register (R61). -/
theorem msgAddress_access (i : Nat) (h : i < Config.maxMsgBytes) :
    regAccess (BitVec.ofNat 32 (Config.msgBase + i)) 1 = false ∧ msgAccess (BitVec.ofNat 32 (Config.msgBase + i)) 1 = true ∧
      msgIndex (BitVec.ofNat 32 (Config.msgBase + i)) = i := by
  refine ⟨rfl, ?_, ?_⟩
  · rw [msgAccess_iff, msgAddress_toNat i h]; exact ⟨rfl, by omega, by omega⟩
  · unfold msgIndex; rw [msgAddress_toNat i h]; omega

end Sys2Proof.Machine
end

