-- ==== Sys2Proof/Laws/Encoding.lean ====
section
/-! SUPPORT. The fields of a command word and the word of its fields (R80 to R83). -/

namespace Sys2Proof

theorem commandWord_fields (a : BitVec 5) (o : BitVec 8) :
    rsvField (commandWord a o) = 0 ∧ amtField (commandWord a o) = a ∧ opcField (commandWord a o) = o := by
  refine ⟨?_, ?_, ?_⟩ <;>
  · apply BitVec.eq_of_getLsbD_eq
    intro i hi
    simp only [rsvField, amtField, opcField, commandWord, BitVec.getLsbD_extractLsb', BitVec.getLsbD_append]
    have : i < 19 := by omega
    interval_cases i <;> simp

theorem commandWord_of_fields (cw : Word) (h : rsvField cw = 0) : cw = commandWord (amtField cw) (opcField cw) := by
  apply BitVec.eq_of_getLsbD_eq
  intro i hi
  simp only [amtField, opcField, commandWord, BitVec.getLsbD_extractLsb', BitVec.getLsbD_append]
  by_cases h1 : i < 8
  · simp [h1]
  · by_cases h2 : i < 13
    · simp [h1, show i - 8 < 5 by omega, show 8 + (i - 8) = i by omega]
    · have hb := congrArg (fun x : BitVec 19 => x.getLsbD (i - 13)) h
      simp only [rsvField, BitVec.getLsbD_extractLsb', show 13 + (i - 13) = i by omega] at hb
      simp [show i - 13 < 19 by omega] at hb
      simp [h1, show ¬ (i - 8 < 5) by omega, hb]

/-- The decoder on a word given by its fields. -/
theorem decode_commandWord (a : BitVec 5) (o : BitVec 8) :
    decode (commandWord a o) =
      match o.toNat with
      | 0x01 => .ok (.rotl a.toNat)
      | 0x02 => .ok (.rotr a.toNat)
      | 0x03 => withoutAmount a .packbe
      | 0x04 => withoutAmount a .unpackbe
      | 0x10 => withoutAmount a .sha1Init
      | 0x11 => withoutAmount a .sha1Block
      | 0x12 => withoutAmount a .sha1Run
      | 0x20 => withoutAmount a .sha256Init
      | 0x21 => withoutAmount a .sha256Block
      | 0x22 => withoutAmount a .sha256Run
      | _ => .error .unassignedOpcode := by
  obtain ⟨h1, h2, h3⟩ := commandWord_fields a o
  rw [decode, if_neg (by rw [h1]; simp), h2, h3] <;> rfl

/-- A word whose reserved bits are not 0 is illegal (R83). -/
theorem decode_reserved (cw : Word) (h : rsvField cw ≠ 0) : decode cw = .error .reservedBits := by
  rw [decode, if_pos h]

end Sys2Proof
end

