-- ==== Sys2Proof/Laws/Padding.lean ====
section
/-! SUPPORT. The padded bytes and words: what they depend on, when they are defined, and the bytes of the padded message. -/

namespace Sys2Proof.Machine

open Sys2Proof

/-- What a padded byte is, case by case: a written message byte, the fault of an unwritten one, or a byte no memory gives. -/
theorem padByte_cases (m : Memory) (len : Word) (i : Nat) :
    (∃ b, i < len.toNat ∧ msgByte m i = some b ∧ padByte m len i = .ok b) ∨
    (i < len.toNat ∧ msgByte m i = none ∧ padByte m len i = .error (.unwrittenMessageByte i)) ∨
    (len.toNat ≤ i ∧ ∃ b, ∀ m', padByte m' len i = .ok b) := by
  unfold padByte
  by_cases h : i < len.toNat
  · simp only [h, if_true]
    cases e : msgByte m i with
    | none => right; left; simp
    | some b => left; exact ⟨b, trivial, rfl, rfl⟩
  · right; right
    simp only [h, if_false]
    refine ⟨by omega, ?_⟩
    split
    · exact ⟨_, fun _ => rfl⟩
    · split
      · exact ⟨_, fun _ => rfl⟩
      · exact ⟨_, fun _ => rfl⟩

theorem padByte_congr (m m' : Memory) (len : Word) (h : ∀ i, i < len.toNat → msgByte m i = msgByte m' i) (i : Nat) :
    padByte m len i = padByte m' len i := by
  unfold padByte
  by_cases hi : i < len.toNat
  · simp only [hi, if_true, h i hi]
  · simp only [hi, if_false]

theorem be64_getD (n k : Nat) (hk : k < 8) : (be64 n).getD k 0 = BitVec.ofNat 8 (n >>> (8 * (7 - k))) := by
  have h : k = 0 ∨ k = 1 ∨ k = 2 ∨ k = 3 ∨ k = 4 ∨ k = 5 ∨ k = 6 ∨ k = 7 := by omega
  rcases h with rfl | rfl | rfl | rfl | rfl | rfl | rfl | rfl <;> simp [be64, Nat.shiftRight_eq_div_pow]

@[simp] theorem be64_length (n : Nat) : (be64 n).length = 8 := rfl

theorem paddedBytes_length (msg : List Byte) : (paddedBytes msg).length = 64 * nblocks msg.length := by
  simp only [paddedBytes, List.length_append, List.length_cons, List.length_nil, List.length_replicate, be64_length,
    zeroCount, nblocks]
  omega

/-- The padded byte of R122 is that byte of the padded message of R120. -/
theorem padByte_of_holds (m : Memory) (msg : List Byte) (len : Word) (hl : len.toNat = msg.length) (h : m.holds msg)
    (i : Nat) (hi : i < 64 * nblocks msg.length) : padByte m len i = .ok ((paddedBytes msg).getD i 0) := by
  have hlen := paddedBytes_length msg
  have hz : 64 * nblocks msg.length = msg.length + 1 + zeroCount msg.length + 8 := by
    unfold nblocks zeroCount; omega
  unfold padByte
  simp only [hl]
  by_cases h1 : i < msg.length
  · have e := h i h1
    rw [List.getElem?_eq_getElem h1] at e
    simp only [h1, if_true, e, paddedBytes, List.append_assoc]
    rw [List.getD_append _ _ _ _ h1, List.getD_eq_getElem _ _ h1]
  · simp only [h1, if_false]
    have hr : (paddedBytes msg).getD i 0 =
        ([0x80] ++ List.replicate (zeroCount msg.length) 0 ++ be64 (8 * msg.length)).getD (i - msg.length) 0 := by
      simp only [paddedBytes, List.append_assoc]
      rw [List.getD_append_right _ _ _ _ (by omega)]
    rw [hr]
    by_cases h2 : i = msg.length
    · simp [h2]
    · simp only [h2, if_false]
      have h3 : ([0x80] ++ List.replicate (zeroCount msg.length) 0 ++ be64 (8 * msg.length) : List Byte).getD (i - msg.length) 0 =
          (List.replicate (zeroCount msg.length) 0 ++ be64 (8 * msg.length) : List Byte).getD (i - msg.length - 1) 0 := by
        rw [List.append_assoc, List.getD_append_right _ _ _ _ (by simp; omega)]
        simp
      rw [h3]
      by_cases h4 : i < 64 * nblocks msg.length - 8
      · simp only [h4, if_true]
        rw [List.getD_append _ _ _ _ (by simp; omega), List.getD_replicate _ (by omega)]
      · simp only [h4, if_false]
        rw [List.getD_append_right _ _ _ _ (by simp; omega), be64_getD _ _ (by simp; omega)]
        simp only [List.length_replicate]
        congr 4
        omega

theorem packWords_length (bs : List Byte) : (packWords bs).length = bs.length / 4 := by
  fun_induction packWords bs with
  | case1 b0 b1 b2 b3 rest ih => simp only [List.length_cons, ih]; omega
  | case2 bs h =>
    match bs with
    | [] => rfl
    | [_] => simp
    | [_, _] => simp
    | [_, _, _] => simp
    | b0 :: b1 :: b2 :: b3 :: rest => exact absurd rfl (h b0 b1 b2 b3 rest)

theorem packWords_getD (bs : List Byte) (j : Nat) (h : 4 * j + 3 < bs.length) :
    (packWords bs).getD j 0 = packBE (bs.getD (4 * j) 0) (bs.getD (4 * j + 1) 0) (bs.getD (4 * j + 2) 0) (bs.getD (4 * j + 3) 0) := by
  fun_induction packWords bs generalizing j with
  | case1 b0 b1 b2 b3 rest ih =>
    cases j with
    | zero => rfl
    | succ j =>
      rw [List.getD_cons_succ, ih j (by simp at h; omega)]
      rw [show 4 * (j + 1) = 4 * j + 1 + 1 + 1 + 1 by omega]
      rfl
  | case2 bs hn =>
    match bs, h with
    | [], h => simp at h
    | [_], h => simp at h
    | [_, _], h => simp at h
    | [_, _, _], h => simp at h
    | b0 :: b1 :: b2 :: b3 :: rest, _ => exact absurd rfl (hn b0 b1 b2 b3 rest)

theorem paddedWords_length (msg : List Byte) : (paddedWords msg).length = 16 * nblocks msg.length := by
  rw [paddedWords, packWords_length, paddedBytes_length]; omega

/-- A padded word from its four padded bytes. -/
theorem padWord_of_bytes (m : Memory) (len : Word) (j : Nat) (b0 b1 b2 b3 : Byte) (h0 : padByte m len (4 * j) = .ok b0)
    (h1 : padByte m len (4 * j + 1) = .ok b1) (h2 : padByte m len (4 * j + 2) = .ok b2)
    (h3 : padByte m len (4 * j + 3) = .ok b3) : padWord m len j = .ok (packBE b0 b1 b2 b3) := by
  unfold padWord; rw [h0, h1, h2, h3]; rfl

/-- The padded word of R123 is that word of the padded message of R120. -/
theorem padWord_of_holds (m : Memory) (msg : List Byte) (len : Word) (hl : len.toNat = msg.length) (h : m.holds msg)
    (j : Nat) (hj : j < 16 * nblocks msg.length) : padWord m len j = .ok ((paddedWords msg).getD j 0) := by
  have hb : ∀ k, k < 4 → padByte m len (4 * j + k) = .ok ((paddedBytes msg).getD (4 * j + k) 0) := fun k hk =>
    padByte_of_holds m msg len hl h _ (by omega)
  rw [padWord_of_bytes m len j _ _ _ _ (hb 0 (by omega)) (hb 1 (by omega)) (hb 2 (by omega)) (hb 3 (by omega)), paddedWords,
    packWords_getD _ _ (by rw [paddedBytes_length]; omega)]
  rfl

/-- Consecutive padded words, all defined. -/
theorem padWords_ok (m : Memory) (len : Word) (j n : Nat) (p : Nat → Word)
    (h : ∀ k, k < n → padWord m len (j + k) = .ok (p (j + k))) :
    padWords m len j n = .ok ((List.range' j n).map p) := by
  induction n generalizing j with
  | zero => rfl
  | succ n ih =>
    have h0 := h 0 (by omega)
    have hr := ih (j + 1) fun k hk => by
      have := h (k + 1) (by omega)
      rwa [show j + (k + 1) = j + 1 + k by omega] at this
    rw [Nat.add_zero] at h0
    unfold padWords
    rw [h0, hr]
    rfl

/-- The first undefined padded word of a stretch is the fault of the stretch. -/
theorem padWords_error (m : Memory) (len : Word) (j n k : Nat) (f : Fault) (hk : k < n)
    (ho : ∀ i, i < k → ∃ x, padWord m len (j + i) = .ok x) (he : padWord m len (j + k) = .error f) :
    padWords m len j n = .error f := by
  induction n generalizing j k with
  | zero => omega
  | succ n ih =>
    unfold padWords
    cases k with
    | zero => rw [Nat.add_zero] at he; rw [he]; rfl
    | succ k =>
      obtain ⟨x, hx⟩ := ho 0 (by omega)
      rw [Nat.add_zero] at hx
      rw [hx]
      have := ih (j + 1) k (by omega)
        (fun i hi => by
          have := ho (i + 1) (by omega)
          rwa [show j + (i + 1) = j + 1 + i by omega] at this)
        (by rwa [show j + 1 + k = j + (k + 1) by omega])
      exact congrArg (fun r : Except Fault (List Word) => r >>= fun ws => pure (x :: ws)) this

theorem storeWords_getElem {n : Nat} (k : Nat) (ws : List Word) (v : Vector Word n) (i : Nat) (hi : i < n) :
    (storeWords k ws v)[i] = if h : k ≤ i ∧ i < k + ws.length then ws[i - k]'(by omega) else v[i] := by
  induction ws generalizing k v with
  | nil =>
    have : ¬ (k ≤ i ∧ i < k + ([] : List Word).length) := by simp
    rw [dif_neg this]; rfl
  | cons x rest ih =>
    unfold storeWords
    rw [ih]
    by_cases h1 : k + 1 ≤ i ∧ i < k + 1 + rest.length
    · rw [dif_pos h1, dif_pos (by simp; omega)]
      simp only [show i - k = (i - (k + 1)) + 1 by omega, List.getElem_cons_succ]
    · rw [dif_neg h1, Vector.getElem_setIfInBounds]
      by_cases h2 : k = i
      · subst h2
        simp
      · rw [if_neg h2, dif_neg (by simp; omega)]

/-- Storing the next word of a schedule keeps the vector equal to the list of the words so far. -/
theorem set_next_getD {n : Nat} (w : Vector Word n) (t : Nat) (ht : t < n) (x : Word) (ws : List Word) (hl : ws.length = t)
    (hw : ∀ (j : Nat) (hj : j < n), j < t → w[j] = ws.getD j 0) (j : Nat) (hj : j < n) (hle : j ≤ t) :
    (w.set t x)[j] = (ws ++ [x]).getD j 0 := by
  rw [Vector.getElem_set]
  by_cases e : t = j
  · subst e
    rw [if_pos rfl, List.getD_append_right _ _ _ _ (by omega), hl]
    simp
  · rw [if_neg e, List.getD_append _ _ _ _ (by omega)]
    exact hw j hj (by omega)

/-- A message block has 16 words. -/
theorem messageBlock_length (msg : List Byte) (b : Nat) (h : b < nblocks msg.length) : (messageBlock msg b).length = 16 := by
  simp only [messageBlock, List.length_take, List.length_drop, paddedWords_length]
  omega

theorem messageBlock_getD (msg : List Byte) (b k : Nat) (hk : k < 16) :
    (messageBlock msg b).getD k 0 = (paddedWords msg).getD (16 * b + k) 0 := by
  simp only [messageBlock, List.getD_eq_getElem?_getD]
  rw [List.getElem?_take_of_lt hk, List.getElem?_drop]

/-- The LOAD step's words are the block of the padded message. -/
theorem blockWords_of_holds (m : Memory) (msg : List Byte) (len : Word) (hl : len.toNat = msg.length) (h : m.holds msg)
    (b : Nat) (hb : b < nblocks msg.length) : blockWords m len b = .ok (messageBlock msg b) := by
  unfold blockWords
  rw [padWords_ok m len (16 * b) 16 (fun j => (paddedWords msg).getD j 0)
    (fun k hk => padWord_of_holds m msg len hl h _ (by omega))]
  congr 1
  apply List.ext_getElem
  · simp [messageBlock_length msg b hb]
  · intro i h1 h2
    have hi : i < 16 := by simpa using h1
    have e := messageBlock_getD msg b i hi
    rw [List.getD_eq_getElem _ _ h2] at e
    simp only [List.getElem_map, List.getElem_range']
    rw [e]
    congr 1
    omega

end Sys2Proof.Machine
end

