-- ==== Sys2Proof/Laws/PerInstr.lean ====
section
/-! SUPPORT. Statements for all instructions, one lemma per constructor of Instr. -/

namespace Sys2Proof.Laws.OwnRow

open Sys2Proof

/-- The row of its own mnemonic in the opcode map accepts the word of a well-formed instruction (R84). -/
def Statement (i : Instr) : Prop :=
  i.wellFormed = true → ∃ r, r ∈ opcodeMap ∧ r.mnemonic = i.mnemonic ∧ r.accepts (encode i) = true

/-- The mask of the rotations passes the opcode and drops the amount. -/
theorem rotate_mask (amt : BitVec 5) (opc : BitVec 8) : commandWord amt opc &&& 0xFFFFE0FF = commandWord 0 opc := by
  apply BitVec.eq_of_getLsbD_eq
  intro i hi
  simp only [commandWord, BitVec.getLsbD_and, BitVec.getLsbD_append]
  interval_cases i <;> simp

theorem rotl (amt : Nat) : Statement (.rotl amt) := fun _ =>
  ⟨⟨"ROTL", 0x00000001, 0xFFFFE0FF⟩, by decide, rfl, by simp only [OpcodeRow.accepts, encode, rotate_mask]; rfl⟩

theorem rotr (amt : Nat) : Statement (.rotr amt) := fun _ =>
  ⟨⟨"ROTR", 0x00000002, 0xFFFFE0FF⟩, by decide, rfl, by simp only [OpcodeRow.accepts, encode, rotate_mask]; rfl⟩

theorem packbe : Statement .packbe := fun _ => ⟨⟨"PACKBE", 0x00000003, 0xFFFFFFFF⟩, by decide, rfl, by decide⟩

theorem unpackbe : Statement .unpackbe := fun _ => ⟨⟨"UNPACKBE", 0x00000004, 0xFFFFFFFF⟩, by decide, rfl, by decide⟩

theorem sha1Init : Statement .sha1Init := fun _ => ⟨⟨"SHA1.INIT", 0x00000010, 0xFFFFFFFF⟩, by decide, rfl, by decide⟩

theorem sha1Block : Statement .sha1Block := fun _ => ⟨⟨"SHA1.BLOCK", 0x00000011, 0xFFFFFFFF⟩, by decide, rfl, by decide⟩

theorem sha1Run : Statement .sha1Run := fun _ => ⟨⟨"SHA1.RUN", 0x00000012, 0xFFFFFFFF⟩, by decide, rfl, by decide⟩

theorem sha256Init : Statement .sha256Init := fun _ => ⟨⟨"SHA256.INIT", 0x00000020, 0xFFFFFFFF⟩, by decide, rfl, by decide⟩

theorem sha256Block : Statement .sha256Block := fun _ => ⟨⟨"SHA256.BLOCK", 0x00000021, 0xFFFFFFFF⟩, by decide, rfl, by decide⟩

theorem sha256Run : Statement .sha256Run := fun _ => ⟨⟨"SHA256.RUN", 0x00000022, 0xFFFFFFFF⟩, by decide, rfl, by decide⟩

end Sys2Proof.Laws.OwnRow
end

