-- ==== Sys2Proof/Laws/Sha1.lean ====
section
/-! SUPPORT. The SHA-1 engine: what a step can do, and its schedule and its rounds against those of the reference function. -/

namespace Sys2Proof.Machine

open Sys2Proof

theorem sha1Steps_zero (m : Memory) (e : Sha1Engine) : sha1Steps m 0 e = .ok e := rfl

theorem sha1Steps_succ (m : Memory) (n : Nat) (e e' : Sha1Engine) (h : sha1Step m e = .ok e') :
    sha1Steps m (n + 1) e = sha1Steps m n e' := by
  simp only [sha1Steps, h]

theorem sha1Steps_add (m : Memory) (a b : Nat) (e e' : Sha1Engine) (h : sha1Steps m a e = .ok e') :
    sha1Steps m (a + b) e = sha1Steps m b e' := by
  induction a generalizing e with
  | zero =>
    simp only [sha1Steps, Except.ok.injEq] at h
    rw [Nat.zero_add, h]
  | succ a ih =>
    rw [Nat.succ_add]
    simp only [sha1Steps] at h ⊢
    split at h
    · exact ih _ h
    · cases h

/-- Everything a step of the engine that answers a state can do. -/
theorem sha1Step_cases (m : Memory) (e e' : Sha1Engine) (h : sha1Step m e = .ok e') :
    (e.st = .idle ∧ e' = e) ∨
    (e.st = .load ∧ ∃ ws, blockWords m e.len e.blk.toNat = .ok ws ∧
      e' = { e with w := storeWords 0 ws e.w, work := workOf1 e.h, t := 16, st := .sched }) ∨
    (e.st = .sched ∧ e' = sha1Sched e) ∨ (e.st = .round ∧ e' = sha1Round e) ∨ (e.st = .add ∧ e' = sha1Add e) := by
  unfold sha1Step at h
  split at h
  · next hs => cases h; exact .inl ⟨hs, rfl⟩
  · next hs =>
    refine .inr (.inl ⟨hs, ?_⟩)
    unfold sha1Load at h
    cases hb : blockWords m e.len e.blk.toNat with
    | error f => rw [hb] at h; cases h
    | ok ws => rw [hb] at h; cases h; exact ⟨ws, rfl, rfl⟩
  · next hs => cases h; exact .inr (.inr (.inl ⟨hs, rfl⟩))
  · next hs => cases h; exact .inr (.inr (.inr (.inl ⟨hs, rfl⟩)))
  · next hs => cases h; exact .inr (.inr (.inr (.inr ⟨hs, rfl⟩)))

theorem sha1Load_of_words (m : Memory) (e : Sha1Engine) (ws : List Word) (h : blockWords m e.len e.blk.toNat = .ok ws) :
    sha1Load m e = .ok { e with w := storeWords 0 ws e.w, work := workOf1 e.h, t := 16, st := .sched } := by
  unfold sha1Load; rw [h]; rfl

theorem sha1Load_of_error (m : Memory) (e : Sha1Engine) (f : Fault) (h : blockWords m e.len e.blk.toNat = .error f) :
    sha1Load m e = .error f := by
  unfold sha1Load; rw [h]; rfl

/-- A SCHED step only writes one schedule word and moves the index and the state on. -/
theorem sha1Sched_eq (e : Sha1Engine) :
    sha1Sched e = { e with
      w := e.w.set e.t (sched1 (e.wBack 3) (e.wBack 8) (e.wBack 14) (e.wBack 16)),
      t := if h : e.t.val = 79 then 0 else ⟨e.t.val + 1, by omega⟩,
      st := if e.t.val = 79 then .round else e.st } := by
  unfold sha1Sched
  by_cases h : e.t.val = 79
  · simp only [dif_pos h, if_pos h]
  · simp only [dif_neg h, if_neg h]

/-- A ROUND step only does one round and moves the index and the state on. -/
theorem sha1Round_eq (e : Sha1Engine) :
    sha1Round e = { e with
      work := round1 e.t e.w[e.t] e.work,
      t := if h : e.t.val = 79 then e.t else ⟨e.t.val + 1, by omega⟩,
      st := if e.t.val = 79 then .add else e.st } := by
  unfold sha1Round
  by_cases h : e.t.val = 79
  · simp only [dif_pos h, if_pos h]
  · simp only [dif_neg h, if_neg h]

/-- An ADD step, field by field. -/
theorem sha1Add_eq (e : Sha1Engine) :
    sha1Add e = { e with
      h := addBack1 e.h e.work, blk := e.blk + 1,
      done := if e.blk + 1 = e.nblk then true else e.done,
      st := if e.blk + 1 = e.nblk then .idle else if e.mode = .all then .load else .idle } := by
  unfold sha1Add
  by_cases h : e.blk + 1 = e.nblk
  · simp only [if_pos h]
  · simp only [if_neg h]
    cases hm : e.mode <;> simp

theorem extend1_length (n : Nat) (ws : List Word) : (extend1 n ws).length = ws.length + n := by
  induction n generalizing ws with
  | zero => rfl
  | succ n ih => rw [extend1, ih]; simp; omega

/-- The word a SCHED step stores is the next word of the reference schedule. -/
theorem sha1Sched_word (e : Sha1Engine) (ws : List Word) (hlen : ws.length = e.t.val) (h16 : 16 ≤ e.t.val)
    (hw : ∀ (j : Nat) (hj : j < 80), j < e.t.val → e.w[j] = ws.getD j 0) :
    sched1 (e.wBack 3) (e.wBack 8) (e.wBack 14) (e.wBack 16) =
      sched1 (ws.getD (ws.length - 3) 0) (ws.getD (ws.length - 8) 0) (ws.getD (ws.length - 14) 0)
        (ws.getD (ws.length - 16) 0) := by
  have hb : ∀ k, 1 ≤ k → k ≤ 16 → e.wBack k = ws.getD (ws.length - k) 0 := fun k h1 h2 => by
    rw [hlen]; exact hw _ (by omega) (by omega)
  rw [hb 3 (by omega) (by omega), hb 8 (by omega) (by omega), hb 14 (by omega) (by omega), hb 16 (by omega) (by omega)]

/-- The SCHED steps extend the words already in W1 as the reference schedule does. -/
theorem sha1Steps_sched (m : Memory) (n : Nat) (e : Sha1Engine) (ws : List Word) (hst : e.st = .sched)
    (ht : e.t.val + (n + 1) = 80) (hlen : ws.length = e.t.val) (h16 : 16 ≤ e.t.val)
    (hw : ∀ (j : Nat) (hj : j < 80), j < e.t.val → e.w[j] = ws.getD j 0) :
    ∃ w, sha1Steps m (n + 1) e = .ok { e with w := w, t := 0, st := .round } ∧
      ∀ (j : Nat) (hj : j < 80), w[j] = (extend1 (n + 1) ws).getD j 0 := by
  induction n generalizing e ws with
  | zero =>
    have h79 : e.t.val = 79 := by omega
    have hs : sha1Step m e = .ok (sha1Sched e) := by simp only [sha1Step, hst]
    rw [sha1Steps_succ m 0 e _ hs, sha1Steps_zero, sha1Sched_eq, sha1Sched_word e ws hlen h16 hw]
    simp only [dif_pos h79, if_pos h79]
    exact ⟨_, rfl, fun j hj => set_next_getD e.w e.t.val e.t.isLt _ ws hlen hw j hj (by omega)⟩
  | succ n ih =>
    have h79 : e.t.val ≠ 79 := by omega
    have hs : sha1Step m e = .ok (sha1Sched e) := by simp only [sha1Step, hst]
    rw [sha1Steps_succ m (n + 1) e _ hs, sha1Sched_eq, sha1Sched_word e ws hlen h16 hw]
    simp only [dif_neg h79, if_neg h79]
    have hl2 : ∀ x : Word, (ws ++ [x]).length = e.t.val + 1 := fun x => by simp [hlen]
    obtain ⟨w, hr, hww⟩ := ih { e with w := e.w.set e.t _, t := ⟨e.t.val + 1, by omega⟩ } (ws ++ [_])
      hst (by simp only; omega) (hl2 _) (by simp only; omega)
      (fun j hj hlt => set_next_getD e.w e.t.val e.t.isLt _ ws hlen hw j hj (Nat.le_of_lt_succ hlt))
    exact ⟨w, hr, hww⟩

/-- The ROUND steps do the rounds of the reference function on the schedule in W1. -/
theorem sha1Steps_round (m : Memory) (n : Nat) (e : Sha1Engine) (ws : List Word) (hst : e.st = .round)
    (ht : e.t.val + (n + 1) = 80) (hlen : ws.length = n + 1)
    (hw : ∀ (j : Nat) (hj : j < 80), e.t.val ≤ j → e.w[j] = ws.getD (j - e.t.val) 0) :
    sha1Steps m (n + 1) e = .ok { e with work := rounds1 e.t.val ws e.work, t := 79, st := .add } := by
  induction n generalizing e ws with
  | zero =>
    have h79 : e.t.val = 79 := by omega
    have hs : sha1Step m e = .ok (sha1Round e) := by simp only [sha1Step, hst]
    rw [sha1Steps_succ m 0 e _ hs, sha1Steps_zero, sha1Round_eq]
    simp only [dif_pos h79, if_pos h79]
    match ws, hlen with
    | [x], _ =>
      have hx : e.w[e.t] = x := by
        have := hw e.t.val e.t.isLt (by omega)
        simpa using this
      have h79' : e.t = 79 := Fin.ext h79
      simp only [rounds1, hx]
      rw [← h79']
  | succ n ih =>
    have h79 : e.t.val ≠ 79 := by omega
    have hs : sha1Step m e = .ok (sha1Round e) := by simp only [sha1Step, hst]
    rw [sha1Steps_succ m (n + 1) e _ hs, sha1Round_eq]
    simp only [dif_neg h79, if_neg h79]
    match ws, hlen with
    | x :: rest, hl =>
      have hx : e.w[e.t] = x := by
        have := hw e.t.val e.t.isLt (by omega)
        simpa using this
      have hr := ih { e with work := round1 e.t e.w[e.t] e.work, t := ⟨e.t.val + 1, by omega⟩ } rest hst
        (by simp only; omega) (by simpa using hl) (fun j hj hle => by
          have hle' : e.t.val + 1 ≤ j := hle
          show e.w[j] = rest.getD (j - (e.t.val + 1)) 0
          rw [hw j hj (by omega), show j - e.t.val = (j - (e.t.val + 1)) + 1 by omega, List.getD_cons_succ])
      rw [hr]
      simp only [rounds1, hx]

/-- An idle engine stays as it is (R236). -/
theorem sha1Steps_idle (m : Memory) (n : Nat) (e : Sha1Engine) (h : e.st = .idle) : sha1Steps m n e = .ok e := by
  induction n with
  | zero => rfl
  | succ n ih => rw [sha1Steps_succ m n e e (by unfold sha1Step; rw [h]), ih]

/-- The idle state a computation reaches does not depend on when one looks. -/
theorem sha1Steps_idle_unique (m : Memory) (a b : Nat) (e e1 e2 : Sha1Engine) (h1 : sha1Steps m a e = .ok e1)
    (h2 : sha1Steps m b e = .ok e2) (i1 : e1.st = .idle) (i2 : e2.st = .idle) : e1 = e2 := by
  have x := sha1Steps_add m a b e e1 h1
  have y := sha1Steps_add m b a e e2 h2
  rw [sha1Steps_idle m b e1 i1] at x
  rw [sha1Steps_idle m a e2 i2, Nat.add_comm, x] at y
  exact Except.ok.inj y

end Sys2Proof.Machine
end

