-- ==== Sys2Proof/Laws/Sha256.lean ====
section
/-! SUPPORT. The SHA-256 engine: what a step can do, and its schedule and its rounds against those of the reference function. -/

namespace Sys2Proof.Machine

open Sys2Proof

theorem sha256Steps_zero (m : Memory) (e : Sha256Engine) : sha256Steps m 0 e = .ok e := rfl

theorem sha256Steps_succ (m : Memory) (n : Nat) (e e' : Sha256Engine) (h : sha256Step m e = .ok e') :
    sha256Steps m (n + 1) e = sha256Steps m n e' := by
  simp only [sha256Steps, h]

theorem sha256Steps_add (m : Memory) (a b : Nat) (e e' : Sha256Engine) (h : sha256Steps m a e = .ok e') :
    sha256Steps m (a + b) e = sha256Steps m b e' := by
  induction a generalizing e with
  | zero =>
    simp only [sha256Steps, Except.ok.injEq] at h
    rw [Nat.zero_add, h]
  | succ a ih =>
    rw [Nat.succ_add]
    simp only [sha256Steps] at h ⊢
    split at h
    · exact ih _ h
    · cases h

/-- Everything a step of the engine that answers a state can do. -/
theorem sha256Step_cases (m : Memory) (e e' : Sha256Engine) (h : sha256Step m e = .ok e') :
    (e.st = .idle ∧ e' = e) ∨
    (e.st = .load ∧ ∃ ws, blockWords m e.len e.blk.toNat = .ok ws ∧
      e' = { e with w := storeWords 0 ws e.w, work := workOf2 e.h, t := 16, st := .sched }) ∨
    (e.st = .sched ∧ e' = sha256Sched e) ∨ (e.st = .round ∧ e' = sha256Round e) ∨ (e.st = .add ∧ e' = sha256Add e) := by
  unfold sha256Step at h
  split at h
  · next hs => cases h; exact .inl ⟨hs, rfl⟩
  · next hs =>
    refine .inr (.inl ⟨hs, ?_⟩)
    unfold sha256Load at h
    cases hb : blockWords m e.len e.blk.toNat with
    | error f => rw [hb] at h; cases h
    | ok ws => rw [hb] at h; cases h; exact ⟨ws, rfl, rfl⟩
  · next hs => cases h; exact .inr (.inr (.inl ⟨hs, rfl⟩))
  · next hs => cases h; exact .inr (.inr (.inr (.inl ⟨hs, rfl⟩)))
  · next hs => cases h; exact .inr (.inr (.inr (.inr ⟨hs, rfl⟩)))

theorem sha256Load_of_words (m : Memory) (e : Sha256Engine) (ws : List Word) (h : blockWords m e.len e.blk.toNat = .ok ws) :
    sha256Load m e = .ok { e with w := storeWords 0 ws e.w, work := workOf2 e.h, t := 16, st := .sched } := by
  unfold sha256Load; rw [h]; rfl

theorem sha256Load_of_error (m : Memory) (e : Sha256Engine) (f : Fault) (h : blockWords m e.len e.blk.toNat = .error f) :
    sha256Load m e = .error f := by
  unfold sha256Load; rw [h]; rfl

/-- A SCHED step only writes one schedule word and moves the index and the state on. -/
theorem sha256Sched_eq (e : Sha256Engine) :
    sha256Sched e = { e with
      w := e.w.set e.t (sched2 (e.wBack 2) (e.wBack 7) (e.wBack 15) (e.wBack 16)),
      t := if h : e.t.val = 63 then 0 else ⟨e.t.val + 1, by omega⟩,
      st := if e.t.val = 63 then .round else e.st } := by
  unfold sha256Sched
  by_cases h : e.t.val = 63
  · simp only [dif_pos h, if_pos h]
  · simp only [dif_neg h, if_neg h]

/-- A ROUND step only does one round and moves the index and the state on. -/
theorem sha256Round_eq (e : Sha256Engine) :
    sha256Round e = { e with
      work := round2 k2[e.t] e.w[e.t] e.work,
      t := if h : e.t.val = 63 then e.t else ⟨e.t.val + 1, by omega⟩,
      st := if e.t.val = 63 then .add else e.st } := by
  unfold sha256Round
  by_cases h : e.t.val = 63
  · simp only [dif_pos h, if_pos h]
  · simp only [dif_neg h, if_neg h]

/-- An ADD step, field by field. -/
theorem sha256Add_eq (e : Sha256Engine) :
    sha256Add e = { e with
      h := addBack2 e.h e.work, blk := e.blk + 1,
      done := if e.blk + 1 = e.nblk then true else e.done,
      st := if e.blk + 1 = e.nblk then .idle else if e.mode = .all then .load else .idle } := by
  unfold sha256Add
  by_cases h : e.blk + 1 = e.nblk
  · simp only [if_pos h]
  · simp only [if_neg h]
    cases hm : e.mode <;> simp

theorem extend2_length (n : Nat) (ws : List Word) : (extend2 n ws).length = ws.length + n := by
  induction n generalizing ws with
  | zero => rfl
  | succ n ih => rw [extend2, ih]; simp; omega

/-- The word a SCHED step stores is the next word of the reference schedule. -/
theorem sha256Sched_word (e : Sha256Engine) (ws : List Word) (hlen : ws.length = e.t.val) (h16 : 16 ≤ e.t.val)
    (hw : ∀ (j : Nat) (hj : j < 64), j < e.t.val → e.w[j] = ws.getD j 0) :
    sched2 (e.wBack 2) (e.wBack 7) (e.wBack 15) (e.wBack 16) =
      sched2 (ws.getD (ws.length - 2) 0) (ws.getD (ws.length - 7) 0) (ws.getD (ws.length - 15) 0)
        (ws.getD (ws.length - 16) 0) := by
  have hb : ∀ k, 1 ≤ k → k ≤ 16 → e.wBack k = ws.getD (ws.length - k) 0 := fun k h1 h2 => by
    rw [hlen]; exact hw _ (by omega) (by omega)
  rw [hb 2 (by omega) (by omega), hb 7 (by omega) (by omega), hb 15 (by omega) (by omega), hb 16 (by omega) (by omega)]

/-- The SCHED steps extend the words already in W2 as the reference schedule does. -/
theorem sha256Steps_sched (m : Memory) (n : Nat) (e : Sha256Engine) (ws : List Word) (hst : e.st = .sched)
    (ht : e.t.val + (n + 1) = 64) (hlen : ws.length = e.t.val) (h16 : 16 ≤ e.t.val)
    (hw : ∀ (j : Nat) (hj : j < 64), j < e.t.val → e.w[j] = ws.getD j 0) :
    ∃ w, sha256Steps m (n + 1) e = .ok { e with w := w, t := 0, st := .round } ∧
      ∀ (j : Nat) (hj : j < 64), w[j] = (extend2 (n + 1) ws).getD j 0 := by
  induction n generalizing e ws with
  | zero =>
    have h63 : e.t.val = 63 := by omega
    have hs : sha256Step m e = .ok (sha256Sched e) := by simp only [sha256Step, hst]
    rw [sha256Steps_succ m 0 e _ hs, sha256Steps_zero, sha256Sched_eq, sha256Sched_word e ws hlen h16 hw]
    simp only [dif_pos h63, if_pos h63]
    exact ⟨_, rfl, fun j hj => set_next_getD e.w e.t.val e.t.isLt _ ws hlen hw j hj (by omega)⟩
  | succ n ih =>
    have h63 : e.t.val ≠ 63 := by omega
    have hs : sha256Step m e = .ok (sha256Sched e) := by simp only [sha256Step, hst]
    rw [sha256Steps_succ m (n + 1) e _ hs, sha256Sched_eq, sha256Sched_word e ws hlen h16 hw]
    simp only [dif_neg h63, if_neg h63]
    have hl2 : ∀ x : Word, (ws ++ [x]).length = e.t.val + 1 := fun x => by simp [hlen]
    obtain ⟨w, hr, hww⟩ := ih { e with w := e.w.set e.t _, t := ⟨e.t.val + 1, by omega⟩ } (ws ++ [_])
      hst (by simp only; omega) (hl2 _) (by simp only; omega)
      (fun j hj hlt => set_next_getD e.w e.t.val e.t.isLt _ ws hlen hw j hj (Nat.le_of_lt_succ hlt))
    exact ⟨w, hr, hww⟩

/-- The ROUND steps do the rounds of the reference function on the constants from K2 and the schedule in W2. -/
theorem sha256Steps_round (m : Memory) (n : Nat) (e : Sha256Engine) (ks ws : List Word) (hst : e.st = .round)
    (ht : e.t.val + (n + 1) = 64) (hkl : ks.length = n + 1) (hlen : ws.length = n + 1)
    (hk : ∀ (j : Nat) (hj : j < 64), e.t.val ≤ j → k2[j] = ks.getD (j - e.t.val) 0)
    (hw : ∀ (j : Nat) (hj : j < 64), e.t.val ≤ j → e.w[j] = ws.getD (j - e.t.val) 0) :
    sha256Steps m (n + 1) e = .ok { e with work := rounds2 ks ws e.work, t := 63, st := .add } := by
  induction n generalizing e ks ws with
  | zero =>
    have h63 : e.t.val = 63 := by omega
    have hs : sha256Step m e = .ok (sha256Round e) := by simp only [sha256Step, hst]
    rw [sha256Steps_succ m 0 e _ hs, sha256Steps_zero, sha256Round_eq]
    simp only [dif_pos h63, if_pos h63]
    match ks, ws, hkl, hlen with
    | [k], [x], _, _ =>
      have hx : e.w[e.t] = x := by
        have := hw e.t.val e.t.isLt (by omega)
        simpa using this
      have hkx : k2[e.t] = k := by
        have := hk e.t.val e.t.isLt (by omega)
        simpa using this
      have h63' : e.t = 63 := Fin.ext h63
      simp only [rounds2, hx, hkx]
      rw [← h63']
  | succ n ih =>
    have h63 : e.t.val ≠ 63 := by omega
    have hs : sha256Step m e = .ok (sha256Round e) := by simp only [sha256Step, hst]
    rw [sha256Steps_succ m (n + 1) e _ hs, sha256Round_eq]
    simp only [dif_neg h63, if_neg h63]
    match ks, ws, hkl, hlen with
    | k :: krest, x :: rest, hkl, hl =>
      have hx : e.w[e.t] = x := by
        have := hw e.t.val e.t.isLt (by omega)
        simpa using this
      have hkx : k2[e.t] = k := by
        have := hk e.t.val e.t.isLt (by omega)
        simpa using this
      have hr := ih { e with work := round2 k2[e.t] e.w[e.t] e.work, t := ⟨e.t.val + 1, by omega⟩ } krest rest hst
        (by simp only; omega) (by simpa using hkl) (by simpa using hl)
        (fun j hj hle => by
          have hle' : e.t.val + 1 ≤ j := hle
          show k2[j] = krest.getD (j - (e.t.val + 1)) 0
          rw [hk j hj (by omega), show j - e.t.val = (j - (e.t.val + 1)) + 1 by omega, List.getD_cons_succ])
        (fun j hj hle => by
          have hle' : e.t.val + 1 ≤ j := hle
          show e.w[j] = rest.getD (j - (e.t.val + 1)) 0
          rw [hw j hj (by omega), show j - e.t.val = (j - (e.t.val + 1)) + 1 by omega, List.getD_cons_succ])
      rw [hr]
      simp only [rounds2, hx, hkx]

theorem k2Rows_length : k2Rows.length = 64 := rfl

/-- K2 by index is its list of rows. -/
theorem k2_getElem (j : Nat) (hj : j < 64) : k2[j] = k2Rows.getD j 0 := by
  rw [List.getD_eq_getElem _ _ (by rw [k2Rows_length]; exact hj)]
  rfl

/-- An idle engine stays as it is (R236). -/
theorem sha256Steps_idle (m : Memory) (n : Nat) (e : Sha256Engine) (h : e.st = .idle) : sha256Steps m n e = .ok e := by
  induction n with
  | zero => rfl
  | succ n ih => rw [sha256Steps_succ m n e e (by unfold sha256Step; rw [h]), ih]

/-- The idle state a computation reaches does not depend on when one looks. -/
theorem sha256Steps_idle_unique (m : Memory) (a b : Nat) (e e1 e2 : Sha256Engine) (h1 : sha256Steps m a e = .ok e1)
    (h2 : sha256Steps m b e = .ok e2) (i1 : e1.st = .idle) (i2 : e2.st = .idle) : e1 = e2 := by
  have x := sha256Steps_add m a b e e1 h1
  have y := sha256Steps_add m b a e e2 h2
  rw [sha256Steps_idle m b e1 i1] at x
  rw [sha256Steps_idle m a e2 i2, Nat.add_comm, x] at y
  exact Except.ok.inj y

end Sys2Proof.Machine
end

