-- ==== Sys2Proof/Laws/Step.lean ====
section
/-! SUPPORT. Everything one step of the machine can do, and how runs compose. -/

namespace Sys2Proof.Machine

open Sys2Proof

/-- A turn of the SHA-1 engine that answers a state. -/
theorem sha1Turn_next_iff (s t : State) :
    sha1Turn s = .next t ↔ ∃ e, sha1Step s.mem s.sha1 = .ok e ∧ t = { s with sha1 := e } := by
  unfold sha1Turn
  cases sha1Step s.mem s.sha1 with
  | ok e => simp [eq_comm]
  | error f => simp

/-- A turn of the SHA-256 engine that answers a state. -/
theorem sha256Turn_next_iff (s t : State) :
    sha256Turn s = .next t ↔ ∃ e, sha256Step s.mem s.sha256 = .ok e ∧ t = { s with sha256 := e } := by
  unfold sha256Turn
  cases sha256Step s.mem s.sha256 with
  | ok e => simp [eq_comm]
  | error f => simp

/-- Everything a step that answers a state can do: a step of one engine, or a statement of the host. -/
theorem step_cases (s t : State) (h : step s = .next t) :
    ((takeTurn s).1 = .sha1 ∧ ∃ e, sha1Step s.mem s.sha1 = .ok e ∧ t = { (takeTurn s).2 with sha1 := e }) ∨
    ((takeTurn s).1 = .sha256 ∧ ∃ e, sha256Step s.mem s.sha256 = .ok e ∧ t = { (takeTurn s).2 with sha256 := e }) ∨
    ((takeTurn s).1 = .host ∧ hostTurn (takeTurn s).2 = .next t) := by
  unfold step at h
  cases ha : (takeTurn s).1 with
  | host => rw [ha] at h; exact .inr (.inr ⟨rfl, h⟩)
  | sha1 =>
    rw [ha] at h
    obtain ⟨e, he, ht⟩ := (sha1Turn_next_iff _ _).mp h
    rw [takeTurn_mem, takeTurn_sha1] at he
    exact .inl ⟨rfl, e, he, ht⟩
  | sha256 =>
    rw [ha] at h
    obtain ⟨e, he, ht⟩ := (sha256Turn_next_iff _ _).mp h
    rw [takeTurn_mem, takeTurn_sha256] at he
    exact .inr (.inl ⟨rfl, e, he, ht⟩)

@[simp] theorem core_run_zero (s : State) : core.run 0 s = .next s := rfl

theorem run_succ_of_next (M : Host.Core) (n : Nat) (s t : M.State) (h : M.step s = .next t) : M.run (n + 1) s = M.run n t := by
  simp only [Host.Core.run, h]

theorem run_succ_of_fault (M : Host.Core) (n : Nat) (s : M.State) (f : M.Fault) (h : M.step s = .fault f) :
    M.run (n + 1) s = .fault f := by
  simp only [Host.Core.run, h]

theorem run_succ_of_refused (M : Host.Core) (n : Nat) (s : M.State) (r : M.Refusal) (h : M.step s = .refused r) :
    M.run (n + 1) s = .refused r := by
  simp only [Host.Core.run, h]

theorem core_run_succ (n : Nat) (s t : State) (h : step s = .next t) : core.run (n + 1) s = core.run n t :=
  run_succ_of_next core n s t h

theorem core_run_succ_fault (n : Nat) (s : State) (f : Fault) (h : step s = .fault f) : core.run (n + 1) s = .fault f :=
  run_succ_of_fault core n s f h

theorem core_run_succ_refused (n : Nat) (s : State) (r : Refusal) (h : step s = .refused r) :
    core.run (n + 1) s = .refused r :=
  run_succ_of_refused core n s r h

/-- A run of one step more that answers a state starts with a step that does. -/
theorem core_run_succ_next (n : Nat) (s t : State) (h : core.run (n + 1) s = .next t) :
    ∃ u, step s = .next u ∧ core.run n u = .next t := by
  cases hs : step s with
  | next u => exact ⟨u, rfl, core_run_succ n s u hs ▸ h⟩
  | fault f => rw [core_run_succ_fault n s f hs] at h; cases h
  | refused r => rw [core_run_succ_refused n s r hs] at h; cases h

/-- A host access or statement never stops the machine. -/
theorem hostTurn_next (s : State) : ∃ t, hostTurn s = .next t := (hostTurn_cases s).imp fun _ h => h.1

/-- The message buffer is frozen while an engine is busy, unless the host asserts reset (R12, R65). -/
theorem hostTurn_mem_of_busy (s t : State) (h : hostTurn s = .next t) (hb : busy1 s = true ∨ busy2 s = true)
    (hr : s.prog[s.hpc]? ≠ some .reset) : t.mem = s.mem := by
  obtain ⟨t', ht', hc⟩ := hostTurn_cases s
  rw [h] at ht'
  obtain rfl : t = t' := by cases ht'; rfl
  rcases hc with hc | ⟨cw, i, _, _, hx⟩ | ⟨e, hc⟩ | ⟨v, _, hc⟩ | hc | ⟨i, v, _, h1, h2, _, _⟩ | ⟨hp, _⟩
  · rw [hc]
  · obtain ⟨u, hu, hc⟩ := exec_cases i { advance s with resp := .okay }
    rw [hx] at hu
    obtain rfl : t = u := by cases hu; rfl
    rcases hc with hc | ⟨e, hc⟩ | ⟨_, _, _, hc⟩ | ⟨_, _, _, hc⟩ | ⟨_, _, _, hc⟩ | ⟨_, _, _, hc⟩ | ⟨_, _, _, hc⟩ | ⟨_, _, _, hc⟩ <;>
      (rw [hc]; rfl)
  · rw [hc]; rfl
  · rw [hc]; rfl
  · rw [hc]
  · rcases hb with hb | hb
    · rw [hb] at h1; cases h1
    · rw [hb] at h2; cases h2
  · exact absurd hp hr

/-- A statement of the host leaves a busy SHA-1 engine alone, unless it asserts reset (R222, R257). -/
theorem hostTurn_sha1_of_busy (s t : State) (h : hostTurn s = .next t) (hb : busy1 s = true)
    (hr : s.prog[s.hpc]? ≠ some .reset) : t.sha1 = s.sha1 := by
  obtain ⟨t', ht', hc⟩ := hostTurn_cases s
  rw [h] at ht'
  obtain rfl : t = t' := by cases ht'; rfl
  rcases hc with hc | ⟨cw, i, _, _, hx⟩ | ⟨e, hc⟩ | ⟨v, _, hc⟩ | hc | ⟨i, v, _, h1, h2, _, _⟩ | ⟨hp, _⟩
  · rw [hc]
  · obtain ⟨u, hu, hc⟩ := exec_cases i { advance s with resp := .okay }
    rw [hx] at hu
    obtain rfl : t = u := by cases hu; rfl
    have hb' : busy1 { advance s with resp := .okay } = true := hb
    rcases hc with hc | ⟨e, hc⟩ | ⟨h1, _, _, hc⟩ | ⟨h1, _, _, hc⟩ | ⟨h1, _, _, hc⟩ | ⟨_, _, _, hc⟩ | ⟨_, _, _, hc⟩ | ⟨_, _, _, hc⟩
    · rw [hc]; rfl
    · rw [hc]; rfl
    · rw [hb'] at h1; cases h1
    · rw [hb'] at h1; cases h1
    · rw [hb'] at h1; cases h1
    · rw [hc]; rfl
    · rw [hc]; rfl
    · rw [hc]; rfl
  · rw [hc]; rfl
  · rw [hc]; rfl
  · rw [hc]
  · rw [hb] at h1; cases h1
  · exact absurd hp hr

/-- A statement of the host leaves a busy SHA-256 engine alone, unless it asserts reset (R222, R257). -/
theorem hostTurn_sha256_of_busy (s t : State) (h : hostTurn s = .next t) (hb : busy2 s = true)
    (hr : s.prog[s.hpc]? ≠ some .reset) : t.sha256 = s.sha256 := by
  obtain ⟨t', ht', hc⟩ := hostTurn_cases s
  rw [h] at ht'
  obtain rfl : t = t' := by cases ht'; rfl
  rcases hc with hc | ⟨cw, i, _, _, hx⟩ | ⟨e, hc⟩ | ⟨v, _, hc⟩ | hc | ⟨i, v, _, h1, h2, _, _⟩ | ⟨hp, _⟩
  · rw [hc]
  · obtain ⟨u, hu, hc⟩ := exec_cases i { advance s with resp := .okay }
    rw [hx] at hu
    obtain rfl : t = u := by cases hu; rfl
    have hb' : busy2 { advance s with resp := .okay } = true := hb
    rcases hc with hc | ⟨e, hc⟩ | ⟨_, _, _, hc⟩ | ⟨_, _, _, hc⟩ | ⟨_, _, _, hc⟩ | ⟨h1, _, _, hc⟩ | ⟨h1, _, _, hc⟩ | ⟨h1, _, _, hc⟩
    · rw [hc]; rfl
    · rw [hc]; rfl
    · rw [hc]; rfl
    · rw [hc]; rfl
    · rw [hc]; rfl
    · rw [hb'] at h1; cases h1
    · rw [hb'] at h1; cases h1
    · rw [hb'] at h1; cases h1
  · rw [hc]; rfl
  · rw [hc]; rfl
  · rw [hc]
  · rw [hb] at h2; cases h2
  · exact absurd hp hr

/-- No statement of the host changes the host's program. -/
theorem hostTurn_prog (s t : State) (h : hostTurn s = .next t) : t.prog = s.prog := by
  obtain ⟨t', ht', hc⟩ := hostTurn_cases s
  rw [h] at ht'
  obtain rfl : t = t' := by cases ht'; rfl
  rcases hc with hc | ⟨cw, i, _, _, hx⟩ | ⟨e, hc⟩ | ⟨v, _, hc⟩ | hc | ⟨i, v, _, _, _, _, hc⟩ | ⟨_, hc⟩
  · rw [hc]
  · obtain ⟨u, hu, hc⟩ := exec_cases i { advance s with resp := .okay }
    rw [hx] at hu
    obtain rfl : t = u := by cases hu; rfl
    rcases hc with hc | ⟨e, hc⟩ | ⟨_, _, _, hc⟩ | ⟨_, _, _, hc⟩ | ⟨_, _, _, hc⟩ | ⟨_, _, _, hc⟩ | ⟨_, _, _, hc⟩ | ⟨_, _, _, hc⟩ <;>
      (rw [hc]; rfl)
  · rw [hc]; rfl
  · rw [hc]; rfl
  · rw [hc]
  · rw [hc]
  · rw [hc]; rfl

/-- A step in which the host does `op`. -/
theorem step_of_hostDoes (s : State) (op : HostOp) (h : hostDoes s op) :
    step s = hostTurn (takeTurn s).2 ∧ (takeTurn s).2.prog[(takeTurn s).2.hpc]? = some op := by
  refine ⟨?_, ?_⟩
  · unfold step; rw [h.1]; rfl
  · rw [takeTurn_prog, takeTurn_hpc]; exact h.2

end Sys2Proof.Machine
end

