-- ==== Sys2Proof/Machine/Assembler.lean ====
section
/-! DEFINITION. The syntax of host programs (R88) and its pseudo-statements (R89), as data and their expansions into the host's
statements. It is notation for bus accesses (D23): a program's meaning is that of the accesses. -/

namespace Sys2Proof.Machine

open Sys2Proof

/-- A statement of R88. A label is a number here. -/
inductive Stmt where
  /-- `WR <reg>, <imm32>`. -/
  | wr (reg : Reg) (imm : Word)
  /-- `RD <reg>`. -/
  | rd (reg : Reg)
  /-- `WRB MSG+<i>, <imm8>`. -/
  | wrb (i : Nat) (imm : Byte)
  /-- `RDB MSG+<i>`. -/
  | rdb (i : Nat)
  /-- A command mnemonic. -/
  | command (i : Instr)
  /-- `CMD <imm32>`, any word, also an illegal one. -/
  | cmd (imm : Word)
  /-- `<label>:`. -/
  | label (l : Nat)
  /-- `BNZ <label>, <reg>, <mask>`. -/
  | bnz (l : Nat) (reg : Reg) (mask : Word)
  deriving DecidableEq, Repr

/-- The bus address of a register. -/
def Reg.address (r : Reg) : Word := BitVec.ofNat 32 (Config.regBase + r.offset)

/-- The bus address of message byte `i`. An index that leaves the address space, of which R88 says nothing, is taken modulo 2^32
(DESIGN CHOICE, log 21). -/
def msgAddress (i : Nat) : Word := BitVec.ofNat 32 (Config.msgBase + i)

/-- The index of the statement after a label, counting only the statements that are host statements. R88 does not say what a label
means that no statement defines, that no statement follows, or that several define: the model takes the end of the program for the
first two, where the host does nothing, and the first definition for the third (DESIGN CHOICE, log 21). -/
def labelIndex (l : Nat) (prog : List Stmt) : Nat :=
  match prog with
  | [] => 0
  | .label l' :: rest => if l' = l then 0 else labelIndex l rest
  | _ :: rest => labelIndex l rest + 1

/-- The host statements of a statement of R88, labels resolved in `whole`. A rotation whose amount is above 31 is no statement of R88
and becomes the word `encode` gives it (DESIGN CHOICE, log 14). -/
def lowerStmt (whole : List Stmt) (st : Stmt) : List HostOp :=
  match st with
  | .wr reg imm => [.access (.write reg.address 4 imm)]
  | .rd reg => [.access (.read reg.address 4)]
  | .wrb i imm => [.access (.write (msgAddress i) 1 (zextByte imm))]
  | .rdb i => [.access (.read (msgAddress i) 1)]
  | .command i => [.access (.write Reg.cmd.address 4 (encode i))]
  | .cmd imm => [.access (.write Reg.cmd.address 4 imm)]
  | .label _ => []
  | .bnz l reg mask => [.bnz (labelIndex l whole) reg mask]

/-- A host program of R88 as the host's statements. -/
def assemble (prog : List Stmt) : List HostOp := prog.flatMap (lowerStmt prog)

/-- The byte writes of a message from index `i` on. -/
def writeBytes (i : Nat) (bs : List Byte) : List Stmt :=
  match bs with
  | [] => []
  | b :: rest => .wrb i b :: writeBytes (i + 1) rest

/-- `MSG "<s>"` for the bytes of `s` (R89). A length that LEN cannot hold, of which R89 says nothing, is taken modulo 2^32 (DESIGN
CHOICE, log 21). -/
def msgStmts (bs : List Byte) : List Stmt := writeBytes 0 bs ++ [.wr .len (BitVec.ofNat 32 bs.length)]

/-- `MSGFILL <n>, <imm8>` (R89). -/
def msgFill (n : Nat) (imm : Byte) : List Stmt := msgStmts (List.replicate n imm)

/-- `WAIT1`, with a fresh label (R89). -/
def wait1 (l : Nat) : List Stmt := [.label l, .bnz l .status 0x1]

/-- `WAIT2`, with a fresh label (R89). -/
def wait2 (l : Nat) : List Stmt := [.label l, .bnz l .status 0x4]

/-- `WAITALL`, with a fresh label (R89). -/
def waitAll (l : Nat) : List Stmt := [.label l, .bnz l .status 0x5]

/-- `CLRERR` (R89). -/
def clrErr : List Stmt := [.wr .status 0x00000F00]

/-- `RDDIGEST1` (R89). -/
def rdDigest1 : List Stmt := [.rd (.h1 0), .rd (.h1 1), .rd (.h1 2), .rd (.h1 3), .rd (.h1 4)]

/-- `RDDIGEST2` (R89). -/
def rdDigest2 : List Stmt :=
  [.rd (.h2 0), .rd (.h2 1), .rd (.h2 2), .rd (.h2 3), .rd (.h2 4), .rd (.h2 5), .rd (.h2 6), .rd (.h2 7)]

/-- `s` with a host program in place, at its first statement (log 7). -/
def State.withProgram (s : State) (prog : List Stmt) : State := { s with prog := assemble prog, hpc := 0 }

end Sys2Proof.Machine
end

