-- ==== Sys2Proof/Tests/Slice0.lean ====
section
/-! SUPPORT. The model's own tests, expected results from spec/95_test_vectors.md, and a witness for the hypotheses of every
obligation that has some. -/

namespace Sys2Proof.Tests

open Sys2Proof Sys2Proof.Machine

/-! ### Helpers -/

/-- The state an outcome answers, if any. -/
def after (o : Host.Outcome State Fault Refusal) : Option State :=
  match o with
  | .next s => some s
  | .fault _ => none
  | .refused _ => none

/-- The fault an outcome answers, if any. -/
def faultOf (o : Host.Outcome State Fault Refusal) : Option Fault :=
  match o with
  | .next _ => none
  | .fault f => some f
  | .refused _ => none

/-- A state in which the host has the turn and its next statement is `op`. -/
def hostState (op : HostOp) (s : State) : State := { s with prog := [op], hpc := 0, sched := [.host] }

/-- A write of `v` to the register at `off`. -/
def wr (off : Nat) (v : Word) : HostOp := .access (.write (BitVec.ofNat 32 (Config.regBase + off)) 4 v)

/-- "abc". -/
def abc : List Byte := [0x61, 0x62, 0x63]

/-- A buffer that holds "abc". -/
def abcMem : Memory := [(Config.msgBase, 0x61), (Config.msgBase + 1, 0x62), (Config.msgBase + 2, 0x63)]

/-- After reset with "abc" written and LEN = 3. -/
def abcState : State := { State.reset with mem := abcMem, len := 3 }

/-- `abcState` with the SHA-1 engine started by RUN, or idle after INIT. -/
def abc1 (mode : RunMode) (st : Phase) : State :=
  { abcState with sha1 := latch1 3 mode st Sha1Engine.reset, sched := List.replicate 146 .sha1 }

/-- `abcState` with the SHA-256 engine started by RUN, or idle after INIT. -/
def abc2 (mode : RunMode) (st : Phase) : State :=
  { abcState with sha256 := latch2 3 mode st Sha256Engine.reset, sched := List.replicate 114 .sha256 }

/-- The SHA-1 engine in a state of its machine, at index `t`, over words that are all 1. -/
def at1 (st : Phase) (t : Fin 80) : State :=
  { State.reset with
    sched := [.sha1], sha1 := { Sha1Engine.reset with st := st, t := t, nblk := 1, w := Vector.replicate 80 1 } }

/-- The SHA-256 engine in a state of its machine, at index `t`, over words that are all 1. -/
def at2 (st : Phase) (t : Fin 64) : State :=
  { State.reset with
    sched := [.sha256], sha256 := { Sha256Engine.reset with st := st, t := t, nblk := 1, w := Vector.replicate 64 1 } }

theorem abcMem_holds : Memory.holds abcMem abc := by
  intro i hi
  have h : i < 3 := hi
  interval_cases i <;> decide

theorem abc_fits : abc.length ≤ Config.maxMsgBytes :=
  Nat.le_trans (by decide : abc.length ≤ Config.minCapacity) minCapacity_le_maxMsgBytes

/-! ### WellFormed and decoding: the words of section 7 and of R84 -/

theorem test_rotl_32_ill_formed : (Instr.rotl 32).wellFormed = false := by decide
theorem test_rotr_32_ill_formed : (Instr.rotr 32).wellFormed = false := by decide
theorem test_rotl_31_well_formed : (Instr.rotl 31).wellFormed = true := by decide

/-- RSV 0 | AMT 00100 | OPC 00000001. -/
theorem test_decode_rotl_4 : decode 0b0000000000000000000_00100_00000001 = .ok (.rotl 4) := by decide
theorem test_decode_rotl_0 : decode 0x00000001 = .ok (.rotl 0) := by decide
/-- RSV 0 | AMT 11111 | OPC 00000010. -/
theorem test_decode_rotr_31 : decode 0b0000000000000000000_11111_00000010 = .ok (.rotr 31) := by decide
theorem test_decode_packbe : decode 0b0000000000000000000_00000_00000011 = .ok .packbe := by decide
theorem test_decode_unpackbe : decode 0b0000000000000000000_00000_00000100 = .ok .unpackbe := by decide
theorem test_decode_sha1Init : decode 0b0000000000000000000_00000_00010000 = .ok .sha1Init := by decide
theorem test_decode_sha1Block : decode 0b0000000000000000000_00000_00010001 = .ok .sha1Block := by decide
theorem test_decode_sha1Run : decode 0b0000000000000000000_00000_00010010 = .ok .sha1Run := by decide
theorem test_decode_sha256Init : decode 0b0000000000000000000_00000_00100000 = .ok .sha256Init := by decide
theorem test_decode_sha256Block : decode 0b0000000000000000000_00000_00100001 = .ok .sha256Block := by decide
theorem test_decode_sha256Run : decode 0b0000000000000000000_00000_00100010 = .ok .sha256Run := by decide
theorem test_decode_unassigned : decode 0x00000005 = .error .unassignedOpcode ∧ decode 0x00000013 = .error .unassignedOpcode ∧
    decode 0x00000023 = .error .unassignedOpcode ∧ decode 0x000000FF = .error .unassignedOpcode := by decide
theorem test_decode_amount : decode 0x00000110 = .error .amountNotZero := by decide
theorem test_decode_reserved : decode 0x00002001 = .error .reservedBits ∧ decode 0xFFFFFFFF = .error .reservedBits := by decide
theorem test_table_word : decodeTableWord 32 0x00001F02 = some (.rotr 31) ∧ decodeTableWord 32 0x00000103 = none := by decide

/-! ### Utilities: section 2 -/

theorem test_rotl_31 : (after (exec (.rotl 31) { State.reset with ua := 0x12345678 })).map (·.uy) = some 0x091a2b3c := by decide
theorem test_rotl_1 : (after (exec (.rotl 1) { State.reset with ua := 0x80000001 })).map (·.uy) = some 0x00000003 := by decide
theorem test_rotr_4 : (after (exec (.rotr 4) { State.reset with ua := 0x12345678 })).map (·.uy) = some 0x81234567 := by decide
theorem test_rotr_31 : (after (exec (.rotr 31) { State.reset with ua := 0x12345678 })).map (·.uy) = some 0x2468acf0 := by decide
theorem test_packbe :
    (after (exec .packbe { State.reset with ub0 := 0x61, ub1 := 0x62, ub2 := 0x63, ub3 := 0x80 })).map (·.uy) =
      some 0x61626380 := by decide
theorem test_unpackbe :
    (after (exec .unpackbe { State.reset with ua := 0xDEADBEEF, uy := 7 })).map (fun s => (s.ub0, s.ub1, s.ub2, s.ub3, s.uy)) =
      some (0xDE, 0xAD, 0xBE, 0xEF, 7) := by decide

/-! ### Padding: section 3 -/

theorem test_block_counts : nblocks 0 = 1 ∧ nblocks 55 = 1 ∧ nblocks 56 = 2 ∧ nblocks 63 = 2 ∧ nblocks 64 = 2 ∧ nblocks 65 = 2 ∧
    nblocks 119 = 2 ∧ nblocks 120 = 3 ∧ nblocks 1000000 = 15626 := by decide
theorem test_pad_abc : padWord abcMem 3 0 = .ok 0x61626380 ∧ padWord abcMem 3 14 = .ok 0 ∧ padWord abcMem 3 15 = .ok 0x18 := by
  decide +kernel
theorem test_pad_length_high : padWord [] 0x80000000 (16 * nblocks 0x80000000 - 2) = .ok 4 := by decide +kernel
theorem test_pad_unwritten : padWord [] 1 0 = .error (.unwrittenMessageByte 0) := by decide +kernel

/-! ### The SHA-1 functions, steps and commands: section 4 -/

theorem test_f1_bands : f1 19 0xf0f0f0f0 0xff00ff00 0x0f0f0f0f = 0xff0fff0f ∧ f1 20 0xf0f0f0f0 0xff00ff00 0x0f0f0f0f = 0x00ff00ff ∧
    f1 40 0xf0f0f0f0 0xff00ff00 0x0f0f0f0f = 0xff00ff00 ∧ f1 60 0xffffffff 0x12345678 0x9abcdef0 = 0x77777777 := by decide
theorem test_sched1 : sched1 0 0 0 0x61626380 = 0xc2c4c700 := by decide
theorem test_round1_0 : round1 0 0x61626380 (workOf1 iv1) = ⟨0x0116fc33, 0x67452301, 0x7bf36ae2, 0x98badcfe, 0x10325476⟩ := by
  decide
theorem test_round1_79 : (round1 79 0x822e0879 ⟨0x5738d5e1, 0x860d21cc, 0x681e6df6, 0xd8fdf6ad, 0xd7b9da25⟩) =
    ⟨0x42541b35, 0x5738d5e1, 0x21834873, 0x681e6df6, 0xd8fdf6ad⟩ := by decide
theorem test_add1 : addBack1 iv1 ⟨0x42541b35, 0x5738d5e1, 0x21834873, 0x681e6df6, 0xd8fdf6ad⟩ =
    #v[0xa9993e36, 0x4706816a, 0xba3e2571, 0x7850c26c, 0x9cd0d89d] := by decide
theorem test_sha1Init : (after (exec .sha1Init { State.reset with len := 56 })).map (fun s => (s.sha1.nblk, s.sha1.h[0], s.sha1.st)) =
    some (2, 0x67452301, .idle) := by decide
theorem test_sha1Init_busy : (after (exec .sha1Init { abc1 .all .sched with len := 0xFFFFFFFF })).map (·.err) = some 0b0010 := by decide
theorem test_sha1Block_after_reset : (after (exec .sha1Block State.reset)).map statusWord = some 0x00000400 := by decide
theorem test_sha1Block_accepted : (after (exec .sha1Block (abc1 .single .idle))).map (fun s => (s.sha1.st, s.sha1.mode)) =
    some (.load, .single) := by decide
theorem test_sha1Run_too_long : (after (exec .sha1Run { State.reset with len := 0xFFFFFFFF })).map statusWord = some 0x00000800 := by
  decide
theorem test_sha1Run : (after (exec .sha1Run abcState)).map (fun s => (s.sha1.st, s.sha1.mode, s.sha1.len, s.sha1.nblk)) =
    some (.load, .all, 3, 1) := by decide

/-! ### The SHA-256 functions, steps and commands: section 5 -/

theorem test_small_sigmas : smallSigma0 0x80000000 = 0x11002000 ∧ smallSigma1 0x80000000 = 0x00205000 ∧
    smallSigma0 0x12345678 = 0xe7fce6ee ∧ smallSigma1 0x12345678 = 0xa1f78649 := by decide
theorem test_big_sigmas : bigSigma0 0x80000000 = 0x20040200 ∧ bigSigma1 0x80000000 = 0x02100040 ∧
    bigSigma0 0x12345678 = 0x66146474 ∧ bigSigma1 0x12345678 = 0x3561abda := by decide
theorem test_sched2 : sched2 0x18 0 0 0 = 0x000f0000 := by decide
theorem test_round2_0 : round2 k2[0] 0x61626380 (workOf2 iv2) =
    ⟨0x5d6aebcd, 0x6a09e667, 0xbb67ae85, 0x3c6ef372, 0xfa2a4622, 0x510e527f, 0x9b05688c, 0x1f83d9ab⟩ := by decide
theorem test_round2_63 :
    round2 k2[63] 0x12b1edeb
      ⟨0xd39a2165, 0x04d24d6c, 0xb85e2ce9, 0xb6ae8fff, 0xfb121210, 0x948d25b6, 0x961f4894, 0xb21bad3d⟩ =
      ⟨0x506e3058, 0xd39a2165, 0x04d24d6c, 0xb85e2ce9, 0x5ef50f24, 0xfb121210, 0x948d25b6, 0x961f4894⟩ := by decide
theorem test_add2 :
    addBack2 iv2 ⟨0x506e3058, 0xd39a2165, 0x04d24d6c, 0xb85e2ce9, 0x5ef50f24, 0xfb121210, 0x948d25b6, 0x961f4894⟩ =
      #v[0xba7816bf, 0x8f01cfea, 0x414140de, 0x5dae2223, 0xb00361a3, 0x96177a9c, 0xb410ff61, 0xf20015ad] := by decide
theorem test_sha256Init :
    (after (exec .sha256Init { State.reset with len := 55 })).map (fun s => (s.sha256.nblk, s.sha256.h[7], s.sha256.st)) =
      some (1, 0x5be0cd19, .idle) := by decide
theorem test_sha256Init_while_sha1_busy : (after (exec .sha256Init (abc1 .all .sched))).map (·.err) = some 0 := by decide
theorem test_sha256Block_after_reset : (after (exec .sha256Block State.reset)).map statusWord = some 0x00000400 := by decide
theorem test_sha256Block_accepted : (after (exec .sha256Block (abc2 .single .idle))).map statusWord = some 0x00000004 := by decide
theorem test_sha256Run : (after (exec .sha256Run abcState)).map (fun s => (s.sha256.st, s.sha256.mode, s.sha256.nblk)) =
    some (.load, .all, 1) := by decide
theorem test_sha256Run_busy : (after (exec .sha256Run (abc2 .all .add))).map (·.err) = some 0b0010 := by decide

/-! ### The source's own vectors (section 1), against the reference functions -/

theorem test_sha1_empty : sha1 [] = [0xda, 0x39, 0xa3, 0xee, 0x5e, 0x6b, 0x4b, 0x0d, 0x32, 0x55, 0xbf, 0xef, 0x95, 0x60, 0x18, 0x90,
    0xaf, 0xd8, 0x07, 0x09] := by decide +kernel
theorem test_sha1_abc : sha1 abc = [0xa9, 0x99, 0x3e, 0x36, 0x47, 0x06, 0x81, 0x6a, 0xba, 0x3e, 0x25, 0x71, 0x78, 0x50, 0xc2, 0x6c,
    0x9c, 0xd0, 0xd8, 0x9d] := by decide +kernel
theorem test_sha256_empty : sha256 [] = [0xe3, 0xb0, 0xc4, 0x42, 0x98, 0xfc, 0x1c, 0x14, 0x9a, 0xfb, 0xf4, 0xc8, 0x99, 0x6f, 0xb9, 0x24,
    0x27, 0xae, 0x41, 0xe4, 0x64, 0x9b, 0x93, 0x4c, 0xa4, 0x95, 0x99, 0x1b, 0x78, 0x52, 0xb8, 0x55] := by decide +kernel
theorem test_sha256_abc : sha256 abc = [0xba, 0x78, 0x16, 0xbf, 0x8f, 0x01, 0xcf, 0xea, 0x41, 0x41, 0x40, 0xde, 0x5d, 0xae, 0x22, 0x23,
    0xb0, 0x03, 0x61, 0xa3, 0x96, 0x17, 0x7a, 0x9c, 0xb4, 0x10, 0xff, 0x61, 0xf2, 0x00, 0x15, 0xad] := by decide +kernel

/-! ### Registers, errors and the bus: section 8 -/

theorem test_status_after_reset : (readOffset 0x004 State.reset).1 = 0 := by decide
theorem test_h_resets_to_zero : (readOffset 0x040 State.reset).1 = 0 ∧ (readOffset 0x1FC State.reset).1 = 0 := by decide
theorem test_clear_error : (clearErrors 0x00000400 { State.reset with err := 0b1101 }).err = 0b1001 ∧
    (clearErrors 0xFFFFFFFF { State.reset with err := 0b1101 }).err = 0 := by decide
theorem test_ub_keeps_low_byte : (after (writeOffset 0x018 0x000001FF State.reset)).map (fun s => (readOffset 0x018 s).1) =
    some 0x000000FF := by decide
theorem test_read_only_h1 : (after (writeOffset 0x040 0x12345678 State.reset)).map (fun s => (readOffset 0x040 s).1) = some 0 := by
  decide
theorem test_digest_bytes : (readOffset 0x100 { State.reset with sha1 := latch1 3 .single .idle Sha1Engine.reset }).1 = 0x67 ∧
    (readOffset 0x14C { State.reset with sha1 := latch1 3 .single .idle Sha1Engine.reset }).1 = 0xF0 := by decide
theorem test_illegal_word : (after (step (hostState (wr 0 0x00000103) State.reset))).map statusWord = some 0x00000100 := by decide
theorem test_reserved_offset_reads_zero :
    (after (busAccess (.read 0x0000000C 4) State.reset)).map (·.resp) = some (.data 0) := by decide
theorem test_misaligned_read : (after (busAccess (.read 0x00000002 4) State.reset)).map (·.resp) =
    some (.busError (.read 2 4)) := by decide
theorem test_word_write_to_buffer : (after (busAccess (.write 0x00100000 4 0x61626364) State.reset)).map (·.mem) = some [] := by decide
theorem test_byte_write_to_buffer : (after (busAccess (.write 0x00100000 1 0x41) State.reset)).map (·.mem) =
    some [(0x00100000, 0x41)] := by decide +kernel
theorem test_buffer_write_while_busy :
    (after (busAccess (.write 0x00100000 1 0x41) (abc1 .all .sched))).map (fun s => (msgByte s.mem 0, s.err)) =
      some (some 0x61, 0b0010) := by decide +kernel

/-! ### Steps -/

theorem test_step_runs_rotl : (after (step ({ State.reset with ua := 0x12345678 }.withFetchWord 32 0x00000401))).map (·.uy) =
    some 0x23456781 := by decide
theorem test_step_runs_sha1Run : (after (step (State.reset.withFetchWord 32 0x00000012))).map statusWord = some 0x00000001 := by decide
theorem test_step_load : (after (step (abc1 .all .load))).map (fun s => (s.sha1.w[0], s.sha1.w[15], s.sha1.t, s.sha1.st)) =
    some (0x61626380, 0x18, 16, .sched) := by decide +kernel
theorem test_step_unwritten : faultOf (step { abc1 .all .load with mem := [] }) = some (.unwrittenMessageByte 0) := by decide +kernel
theorem test_step_reset : (after (step (hostState .reset (abc1 .all .round)))).map (fun s => (statusWord s, s.len, s.mem)) =
    some (0, 0, []) := by decide
theorem test_wait1_assembles : assemble (wait1 7) = [.bnz 0 .status 1] := by decide
theorem test_msg_assembles : assemble (msgStmts [0x61]) =
    [.access (.write 0x00100000 1 0x61), .access (.write 0x00000008 4 1)] := by decide +kernel

/-! ### Witnesses: for every obligation with hypotheses, a state and operands that meet them -/

theorem capacity_pos : 0 < Config.maxMsgBytes :=
  Nat.lt_of_lt_of_le (by decide : 0 < Config.minCapacity) minCapacity_le_maxMsgBytes

theorem capacity_lt : Config.maxMsgBytes < (0xFFFFFFFF : Word).toNat :=
  Nat.lt_of_le_of_lt maxMsgBytes_le_maxCapacity (by decide)

theorem fits_of_le_min (n : Nat) (h : n ≤ Config.minCapacity) : n ≤ Config.maxMsgBytes :=
  Nat.le_trans h minCapacity_le_maxMsgBytes

theorem witness_DecodeInvertsEncode : (Instr.rotl 31).wellFormed = true ∧ Instr.sha256Run.wellFormed = true := by decide

theorem witness_EncodeInvertsDecode : decode 0x00001F02 = .ok (.rotr 31) := by decide

theorem witness_LegalWordsAreTheOpcodeMap :
    decode 0x00001F01 = .ok (.rotl 31) ∧ OpcodeRow.mk "ROTL" 0x00000001 0xFFFFE0FF ∈ opcodeMap := by decide

/-- Each of the three kinds of illegal word, and a legal word. -/
theorem witness_IllegalWordsRaiseOnlyErrIll :
    (0x00002001 : Word).extractLsb' 13 19 ≠ 0 ∧
    (0x00000005 : Word).extractLsb' 0 8 ∉ ([0x01, 0x02, 0x03, 0x04, 0x10, 0x11, 0x12, 0x20, 0x21, 0x22] : List (BitVec 8)) ∧
    ((0x00000103 : Word).extractLsb' 8 5 ≠ 0 ∧ (0x00000103 : Word).extractLsb' 0 8 ≠ 0x01 ∧
      (0x00000103 : Word).extractLsb' 0 8 ≠ 0x02) ∧
    ((0x00001F02 : Word).extractLsb' 13 19 = 0 ∧ (0x00001F02 : Word).extractLsb' 0 8 = 0x02) := by decide

theorem witness_CommandWriteRunsTheCommand :
    (hostWrites (hostState (wr 0 0x00001F02) State.reset) 0x000 0x00001F02 ∧ decode 0x00001F02 = .ok (.rotr 31)) ∧
    (hostWrites (hostState (wr 0 0x00002001) State.reset) 0x000 0x00002001 ∧ decode 0x00002001 = .error .reservedBits) ∧
    hostDoes (hostState (.access (.read 0x00000000 4)) State.reset) (.access (.read 0x00000000 4)) :=
  ⟨⟨⟨rfl, rfl⟩, by decide⟩, ⟨⟨rfl, rfl⟩, by decide⟩, ⟨rfl, rfl⟩⟩

theorem witness_FetchWordRunsTheDecodedCommand : decodeTableWord 32 0x00000022 = some .sha256Run := by decide

/-- The first and the last word of the register window. -/
theorem witness_RegisterWindowConventions_bus :
    ((0x00000000 : Word).toNat % 4 = 0 ∧ (0x00000000 : Word).toNat < 0x400) ∧
    ((0x000003FC : Word).toNat % 4 = 0 ∧ (0x000003FC : Word).toNat < 0x400) := by decide

/-- Reserved offsets: in the middle of the window and its last word. -/
theorem witness_RegisterWindowConventions :
    (0x00C % 4 = 0 ∧ 0x00C < 0x400 ∧ ∀ r : Reg, r.offset ≠ 0x00C) ∧ (0x3FC % 4 = 0 ∧ 0x3FC < 0x400 ∧ ∀ r : Reg, r.offset ≠ 0x3FC) := by
  refine ⟨⟨rfl, by decide, fun r => ?_⟩, ⟨rfl, by decide, fun r => ?_⟩⟩ <;> cases r <;> simp only [Reg.offset] <;> omega

theorem witness_OperandRegistersReadAndWrite : (3 : Fin 4) ≠ 0 := by decide

theorem witness_ResultsReadExactlyOnlyWhenIdle :
    (busy1 State.reset = false ∧ busy2 State.reset = false) ∧ busy1 (abc1 .all .load) = true ∧ busy2 (abc2 .all .add) = true := by
  decide

theorem witness_DigestByteViews :
    (busy1 (abc1 .single .idle) = false ∧ busy2 (abc2 .single .idle) = false) ∧ busy1 (abc1 .all .add) = true ∧
      busy2 (abc2 .all .load) = true := by decide

/-- The last byte of the buffer has an address, whatever the capacity. -/
theorem last_byte_address :
    (BitVec.ofNat 32 (0x00100000 + (Config.maxMsgBytes - 1))).toNat = 0x00100000 + (Config.maxMsgBytes - 1) := by
  have h := msgBase_add_capacity_le
  have hb : Config.msgBase = 0x00100000 := rfl
  have hp := capacity_pos
  rw [BitVec.toNat_ofNat, Nat.mod_eq_of_lt (by omega)]

/-- The first and the last byte of the buffer; both engines idle; a written and an unwritten byte. -/
theorem witness_MessageBytesReadAndWrite :
    (0 < Config.maxMsgBytes ∧ (0x00100000 : Word).toNat = 0x00100000 + 0) ∧
    (Config.maxMsgBytes - 1 < Config.maxMsgBytes ∧
      (BitVec.ofNat 32 (0x00100000 + (Config.maxMsgBytes - 1))).toNat = 0x00100000 + (Config.maxMsgBytes - 1)) ∧
    busy1 abcState = false ∧ busy2 abcState = false ∧
    msgByte abcState.mem 0 = some 0x61 ∧ msgByte State.reset.mem 0 = none ∧
    msgByte State.reset.mem (Config.maxMsgBytes - 1) = none :=
  ⟨⟨capacity_pos, rfl⟩, ⟨Nat.sub_lt capacity_pos Nat.one_pos, last_byte_address⟩, by decide, by decide, by decide, rfl, rfl⟩

theorem witness_MessageWriteWhileBusyIsDropped :
    0 < Config.maxMsgBytes ∧ (busy1 (abc1 .all .load) = true ∨ busy2 (abc1 .all .load) = true) ∧
    (busy1 (abc2 .all .load) = true ∨ busy2 (abc2 .all .load) = true) ∧ msgByte (abc1 .all .load).mem 0 = some 0x61 :=
  ⟨capacity_pos, by decide, by decide, by decide⟩

/-- A misaligned word, the word after the window, a byte of a register, the byte before the buffer, and a 2-byte access. -/
theorem witness_MalformedAccessGetsBusError :
    ∀ p ∈ ([(0x00000002, 4), (0x00000400, 4), (0x00000004, 1), (0x000FFFFF, 1), (0x00100000, 2)] : List (Word × Nat)),
      ¬(p.2 = 4 ∧ p.1.toNat % 4 = 0 ∧ p.1.toNat < 0x400) ∧
      ¬(p.2 = 1 ∧ 0x00100000 ≤ p.1.toNat ∧ p.1.toNat < 0x00100000 + Config.maxMsgBytes) := by
  intro p hp
  simp only [List.mem_cons, List.not_mem_nil, or_false] at hp
  rcases hp with rfl | rfl | rfl | rfl | rfl
  · exact ⟨by decide, fun h => absurd h.1 (by decide)⟩
  · exact ⟨by decide, fun h => absurd h.1 (by decide)⟩
  · exact ⟨by decide, fun h => absurd h.2.1 (by decide)⟩
  · exact ⟨by decide, fun h => absurd h.2.1 (by decide)⟩
  · exact ⟨by decide, fun h => absurd h.1 (by decide)⟩

theorem witness_HostReadsChangeNoCoreState :
    hostDoes (hostState (.access (.read 0x00000040 4)) (abc1 .all .sched)) (.access (.read 0x00000040 4)) ∧
    hostDoes (hostState (.bnz 0 .status 1) (abc1 .all .sched)) (.bnz 0 .status 1) := ⟨⟨rfl, rfl⟩, ⟨rfl, rfl⟩⟩

theorem witness_BranchNonzeroOnStatus :
    (hostState (.bnz 0 .status 1) (abc1 .all .sched)).prog[(hostState (.bnz 0 .status 1) (abc1 .all .sched)).hpc]? =
      some (.bnz 0 .status 1) := rfl

/-- The two ends of the amount's range, and the two fixed words. -/
theorem witness_RotlCommand : 0 ≤ 31 ∧ 31 ≤ 31 ∧ State.reset.ua = 0 ∧ { State.reset with ua := 0xFFFFFFFF }.ua = 0xFFFFFFFF := by
  decide

theorem witness_RotrCommand : 0 ≤ 31 ∧ 31 ≤ 31 := by decide

theorem witness_RotationsMoveEveryBit : (0 ≤ 31 ∧ 0 < 32) ∧ (31 ≤ 31 ∧ 1 ≤ 31 ∧ 31 < 32) := by decide

theorem witness_PrimitiveLaws : 31 ≤ 31 := by decide

theorem witness_UtilityUnitIsIndependentOfTheEngines :
    (∃ n, Instr.rotr 31 = .rotr n) ∧ (Agent.sha1 ≠ .host ∧ ∃ t, agentTurn .sha1 (at1 .round 79) = .next t) ∧
    (Agent.sha256 ≠ .host ∧ ∃ t, agentTurn .sha256 (at2 .sched 63) = .next t) :=
  ⟨⟨31, rfl⟩, ⟨by decide, _, rfl⟩, ⟨by decide, _, rfl⟩⟩

theorem witness_PaddedWordsArePaddedMessage :
    abc.length ≤ Config.maxMsgBytes ∧ Memory.holds abcMem abc ∧ 15 < 16 * nblocks abc.length :=
  ⟨abc_fits, abcMem_holds, by decide⟩

theorem witness_EmptyMessageIsOneBlock : 1 ≤ 15 ∧ 15 ≤ 15 := by decide

/-- Two buffers that differ only beyond the length. -/
theorem witness_BytesBeyondTheLengthNeverMatter :
    (∀ i, i < (2 : Word).toNat → msgByte abcMem i = msgByte (setMsgByte abcMem 2 0xFF) i) ∧
      abcMem ≠ setMsgByte abcMem 2 0xFF := by
  refine ⟨fun i hi => ?_, by decide⟩
  have h : i < 2 := hi
  interval_cases i <;> decide

/-- A busy engine; an idle one with too great a length; an idle one with the length 0, and with the greatest every capacity has. -/
theorem witness_Sha1InitCommand_and_Sha1RunCommand :
    busy1 (abc1 .all .round) = true ∧
    (busy1 { State.reset with len := 0xFFFFFFFF } = false ∧ Config.maxMsgBytes < { State.reset with len := 0xFFFFFFFF }.len.toNat) ∧
    (busy1 State.reset = false ∧ State.reset.len.toNat ≤ Config.maxMsgBytes) ∧
    (busy1 { State.reset with len := 1000000 } = false ∧ { State.reset with len := 1000000 }.len.toNat ≤ Config.maxMsgBytes) :=
  ⟨by decide, ⟨by decide, capacity_lt⟩, ⟨by decide, Nat.zero_le _⟩, ⟨by decide, fits_of_le_min _ (by decide)⟩⟩

theorem witness_Sha256InitCommand_and_Sha256RunCommand :
    busy2 (abc2 .all .round) = true ∧
    (busy2 { State.reset with len := 0xFFFFFFFF } = false ∧ Config.maxMsgBytes < { State.reset with len := 0xFFFFFFFF }.len.toNat) ∧
    (busy2 State.reset = false ∧ State.reset.len.toNat ≤ Config.maxMsgBytes) ∧
    (busy2 { State.reset with len := 1000000 } = false ∧ { State.reset with len := 1000000 }.len.toNat ≤ Config.maxMsgBytes) :=
  ⟨by decide, ⟨by decide, capacity_lt⟩, ⟨by decide, Nat.zero_le _⟩, ⟨by decide, fits_of_le_min _ (by decide)⟩⟩

theorem witness_Sha1BlockCommand :
    busy1 (abc1 .all .add) = true ∧ (busy1 State.reset = false ∧ State.reset.sha1.nblk.toNat ≤ State.reset.sha1.blk.toNat) ∧
    (busy1 (abc1 .single .idle) = false ∧ (abc1 .single .idle).sha1.blk.toNat < (abc1 .single .idle).sha1.nblk.toNat) := by
  decide

theorem witness_Sha256BlockCommand :
    busy2 (abc2 .all .add) = true ∧ (busy2 State.reset = false ∧ State.reset.sha256.nblk.toNat ≤ State.reset.sha256.blk.toNat) ∧
    (busy2 (abc2 .single .idle) = false ∧ (abc2 .single .idle).sha256.blk.toNat < (abc2 .single .idle).sha256.nblk.toNat) := by
  decide

/-- The 16 padded words of a written block, and an unwritten first byte. -/
theorem witness_Sha1LoadStep :
    (abc1 .all .load).sha1.st = .load ∧
    (∀ k : Fin 16, padWord abcMem 3 (16 * 0 + k.val) = .ok ((paddedWords abc).getD k.val 0)) ∧
    padWord [] 3 (16 * 0 + 0) = .error (.unwrittenMessageByte 0) := by decide +kernel

theorem witness_Sha256LoadStep :
    (abc2 .all .load).sha256.st = .load ∧
    (∀ k : Fin 16, padWord abcMem 3 (16 * 0 + k.val) = .ok ((paddedWords abc).getD k.val 0)) ∧
    padWord [] 3 (16 * 0 + 0) = .error (.unwrittenMessageByte 0) := by decide +kernel

/-- The first and the last index of each phase. -/
theorem witness_Sha1SchedAndRoundSteps :
    ((at1 .sched 16).sha1.st = .sched ∧ (at1 .sched 16).sha1.t.val = 16) ∧
    ((at1 .sched 79).sha1.st = .sched ∧ (at1 .sched 79).sha1.t.val = 79) ∧
    ((at1 .round 0).sha1.st = .round ∧ (at1 .round 0).sha1.t.val = 0) ∧
    ((at1 .round 79).sha1.st = .round ∧ (at1 .round 79).sha1.t.val = 79) := by decide

theorem witness_Sha256SchedAndRoundSteps :
    ((at2 .sched 16).sha256.st = .sched ∧ (at2 .sched 16).sha256.t.val = 16) ∧
    ((at2 .sched 63).sha256.st = .sched ∧ (at2 .sched 63).sha256.t.val = 63) ∧
    ((at2 .round 0).sha256.st = .round ∧ (at2 .round 0).sha256.t.val = 0) ∧
    ((at2 .round 63).sha256.st = .round ∧ (at2 .round 63).sha256.t.val = 63) := by decide

theorem witness_Sha1AddStep : (at1 .add 79).sha1.st = .add := rfl

theorem witness_Sha256AddStep : (at2 .add 63).sha256.st = .add := rfl

theorem witness_Sha1BlockIsCompress1 :
    abc.length ≤ Config.maxMsgBytes ∧ Memory.holds abcMem abc ∧ (abc1 .all .load).sha1.st = .load ∧
    (abc1 .all .load).sha1.len.toNat = abc.length ∧ (abc1 .all .load).sha1.blk.toNat < nblocks abc.length :=
  ⟨abc_fits, abcMem_holds, rfl, rfl, by decide⟩

theorem witness_Sha256BlockIsCompress2 :
    abc.length ≤ Config.maxMsgBytes ∧ Memory.holds abcMem abc ∧ (abc2 .all .load).sha256.st = .load ∧
    (abc2 .all .load).sha256.len.toNat = abc.length ∧ (abc2 .all .load).sha256.blk.toNat < nblocks abc.length :=
  ⟨abc_fits, abcMem_holds, rfl, rfl, by decide⟩

/-- Whether `n` steps lead from `s` to an idle SHA-1 engine that was busy before each of them. -/
def endsIdle1 (n : Nat) (s : State) : Bool :=
  match n with
  | 0 => !busy1 s
  | n + 1 => busy1 s && (match step s with
    | .next u => endsIdle1 n u
    | .fault _ => false
    | .refused _ => false)

/-- Whether `n` steps lead from `s` to an idle SHA-256 engine that was busy before each of them. -/
def endsIdle2 (n : Nat) (s : State) : Bool :=
  match n with
  | 0 => !busy2 s
  | n + 1 => busy2 s && (match step s with
    | .next u => endsIdle2 n u
    | .fault _ => false
    | .refused _ => false)

theorem busyRun1_of_endsIdle1 (n : Nat) (s : State) (h : endsIdle1 n s = true) : ∃ t, busyRun1 n s t ∧ busy1 t = false := by
  induction n generalizing s with
  | zero => exact ⟨s, ⟨rfl, fun k hk => absurd hk (Nat.not_lt_zero k)⟩, by simpa [endsIdle1] using h⟩
  | succ n ih =>
    simp only [endsIdle1, Bool.and_eq_true] at h
    cases hs : step s with
    | fault f => rw [hs] at h; exact absurd h.2 Bool.false_ne_true
    | refused r => rw [hs] at h; exact absurd h.2 Bool.false_ne_true
    | next u =>
      rw [hs] at h
      obtain ⟨t, ⟨hr, hb⟩, ht⟩ := ih u h.2
      refine ⟨t, ⟨(core_run_succ n s u hs).trans hr, fun k hk v hv => ?_⟩, ht⟩
      cases k with
      | zero => cases hv; exact h.1
      | succ k => exact hb k (Nat.lt_of_succ_lt_succ hk) v ((core_run_succ k s u hs).symm.trans hv)

theorem busyRun2_of_endsIdle2 (n : Nat) (s : State) (h : endsIdle2 n s = true) : ∃ t, busyRun2 n s t ∧ busy2 t = false := by
  induction n generalizing s with
  | zero => exact ⟨s, ⟨rfl, fun k hk => absurd hk (Nat.not_lt_zero k)⟩, by simpa [endsIdle2] using h⟩
  | succ n ih =>
    simp only [endsIdle2, Bool.and_eq_true] at h
    cases hs : step s with
    | fault f => rw [hs] at h; exact absurd h.2 Bool.false_ne_true
    | refused r => rw [hs] at h; exact absurd h.2 Bool.false_ne_true
    | next u =>
      rw [hs] at h
      obtain ⟨t, ⟨hr, hb⟩, ht⟩ := ih u h.2
      refine ⟨t, ⟨(core_run_succ n s u hs).trans hr, fun k hk v hv => ?_⟩, ht⟩
      cases k with
      | zero => cases hv; exact h.1
      | succ k => exact hb k (Nat.lt_of_succ_lt_succ hk) v ((core_run_succ k s u hs).symm.trans hv)

/-- SHA1.RUN on "abc": the command is accepted, and 146 steps later the engine is idle. -/
theorem witness_Sha1RunGivesTheDigest :
    busy1 (abc1 .single .idle) = false ∧ (3 : Word).toNat = abc.length ∧ abc.length ≤ Config.maxMsgBytes ∧
    Memory.holds abcMem abc ∧ HostOp.reset ∉ (abc1 .single .idle).prog ∧
    exec .sha1Run (abc1 .single .idle) = .next (abc1 .all .load) ∧
    ∃ t, busyRun1 146 (abc1 .all .load) t ∧ busy1 t = false :=
  ⟨by decide, rfl, abc_fits, abcMem_holds, by decide, rfl, busyRun1_of_endsIdle1 _ _ (by decide +kernel)⟩

/-- SHA1.BLOCK on "abc" after SHA1.INIT. -/
theorem witness_Sha1BlockGivesTheRunningState :
    busy1 (abc1 .single .idle) = false ∧ abc.length ≤ Config.maxMsgBytes ∧ Memory.holds abcMem abc ∧
    HostOp.reset ∉ (abc1 .single .idle).prog ∧ (abc1 .single .idle).sha1.len.toNat = abc.length ∧
    (abc1 .single .idle).sha1.nblk.toNat = nblocks abc.length ∧ (abc1 .single .idle).sha1.blk.toNat = 0 ∧
    0 < nblocks abc.length ∧ (abc1 .single .idle).sha1.done = false ∧ (abc1 .single .idle).sha1.h = running1 abc 0 ∧
    exec .sha1Block (abc1 .single .idle) = .next (abc1 .single .load) ∧
    ∃ t, busyRun1 146 (abc1 .single .load) t ∧ busy1 t = false :=
  ⟨by decide, abc_fits, abcMem_holds, by decide, rfl, by decide, rfl, by decide, rfl, rfl, rfl,
    busyRun1_of_endsIdle1 _ _ (by decide +kernel)⟩

/-- SHA256.RUN on "abc": the command is accepted, and 114 steps later the engine is idle. -/
theorem witness_Sha256RunGivesTheDigest :
    busy2 (abc2 .single .idle) = false ∧ (3 : Word).toNat = abc.length ∧ abc.length ≤ Config.maxMsgBytes ∧
    Memory.holds abcMem abc ∧ HostOp.reset ∉ (abc2 .single .idle).prog ∧
    exec .sha256Run (abc2 .single .idle) = .next (abc2 .all .load) ∧
    ∃ t, busyRun2 114 (abc2 .all .load) t ∧ busy2 t = false :=
  ⟨by decide, rfl, abc_fits, abcMem_holds, by decide, rfl, busyRun2_of_endsIdle2 _ _ (by decide +kernel)⟩

/-- SHA256.BLOCK on "abc" after SHA256.INIT. -/
theorem witness_Sha256BlockGivesTheRunningState :
    busy2 (abc2 .single .idle) = false ∧ abc.length ≤ Config.maxMsgBytes ∧ Memory.holds abcMem abc ∧
    HostOp.reset ∉ (abc2 .single .idle).prog ∧ (abc2 .single .idle).sha256.len.toNat = abc.length ∧
    (abc2 .single .idle).sha256.nblk.toNat = nblocks abc.length ∧ (abc2 .single .idle).sha256.blk.toNat = 0 ∧
    0 < nblocks abc.length ∧ (abc2 .single .idle).sha256.done = false ∧ (abc2 .single .idle).sha256.h = running2 abc 0 ∧
    exec .sha256Block (abc2 .single .idle) = .next (abc2 .single .load) ∧
    ∃ t, busyRun2 114 (abc2 .single .load) t ∧ busy2 t = false :=
  ⟨by decide, abc_fits, abcMem_holds, by decide, rfl, by decide, rfl, by decide, rfl, rfl, rfl,
    busyRun2_of_endsIdle2 _ _ (by decide +kernel)⟩

theorem witness_EngineCommandsTouchOnlyTheirEngine :
    (Instr.sha1Run = .sha1Init ∨ Instr.sha1Run = .sha1Block ∨ Instr.sha1Run = .sha1Run) ∧
    (Instr.sha256Init = .sha256Init ∨ Instr.sha256Init = .sha256Block ∨ Instr.sha256Init = .sha256Run) := by decide

/-- A step that answers a state, with an error bit set before it. -/
theorem witness_ErrorBitsAreSticky :
    (∃ t, step (hostState (wr 0 0x00000001) { State.reset with err := 0b1000 }) = .next t) ∧
    (hostState (wr 0 0x00000001) { State.reset with err := 0b1000 }).err.getLsbD 3 = true := ⟨⟨_, rfl⟩, rfl⟩

/-- The two ways an error bit falls: a STATUS write with a 1 at its place, and reset. -/
theorem witness_ErrorBitsAreSticky_cleared :
    (hostWrites (hostState (wr 4 0x00000800) State.reset) 0x004 0x00000800 ∧ (0x00000800 : Word).getLsbD (8 + 3) = true) ∧
    hostDoes (hostState .reset State.reset) .reset := ⟨⟨⟨rfl, rfl⟩, rfl⟩, ⟨rfl, rfl⟩⟩

/-- Reset in a step, with an engine busy. -/
theorem witness_BusyAndDoneChangeOnlyByTheirRules_reset :
    hostDoes (hostState .reset (abc1 .all .round)) .reset ∧ ∃ t, step (hostState .reset (abc1 .all .round)) = .next t :=
  ⟨⟨rfl, rfl⟩, _, rfl⟩

/-- Each of the four changes of BUSY1 and DONE1 happens in some step. -/
theorem witness_BusyAndDoneChangeOnlyByTheirRules_sha1 :
    (∃ t, step (hostState (wr 0 0x00000012) State.reset) = .next t ∧
      busy1 (hostState (wr 0 0x00000012) State.reset) = false ∧ busy1 t = true) ∧
    (∃ t, step (at1 .add 79) = .next t ∧ busy1 (at1 .add 79) = true ∧ busy1 t = false ∧
      (at1 .add 79).sha1.done = false ∧ t.sha1.done = true) ∧
    (∃ s t, step s = .next t ∧ s.sha1.done = true ∧ t.sha1.done = false) := by
  refine ⟨⟨_, rfl, by decide, by decide⟩, ⟨_, rfl, by decide, by decide, by decide, by decide⟩,
    ⟨hostState (wr 0 0x00000010) { State.reset with sha1 := { Sha1Engine.reset with nblk := 1, blk := 1, done := true } }, _,
      rfl, by decide, by decide⟩⟩

theorem witness_BusyAndDoneChangeOnlyByTheirRules_sha256 :
    (∃ t, step (hostState (wr 0 0x00000022) State.reset) = .next t ∧
      busy2 (hostState (wr 0 0x00000022) State.reset) = false ∧ busy2 t = true) ∧
    (∃ t, step (at2 .add 63) = .next t ∧ busy2 (at2 .add 63) = true ∧ busy2 t = false ∧
      (at2 .add 63).sha256.done = false ∧ t.sha256.done = true) ∧
    (∃ s t, step s = .next t ∧ s.sha256.done = true ∧ t.sha256.done = false) := by
  refine ⟨⟨_, rfl, by decide, by decide⟩, ⟨_, rfl, by decide, by decide, by decide, by decide⟩,
    ⟨hostState (wr 0 0x00000020) { State.reset with sha256 := { Sha256Engine.reset with nblk := 1, blk := 1, done := true } }, _,
      rfl, by decide, by decide⟩⟩

/-- A byte write changes a byte, and so does reset. -/
theorem witness_MessageBufferChangesOnlyByTheHost :
    (0 < Config.maxMsgBytes ∧ busy1 State.reset = false ∧ busy2 State.reset = false ∧
      hostDoes (hostState (.access (.write 0x00100000 1 0x41)) State.reset)
        (.access (.write (BitVec.ofNat 32 (Config.msgBase + 0)) 1 0x41))) ∧
    hostDoes (hostState .reset abcState) .reset ∧
    (∃ t, step (hostState (.access (.write 0x00100000 1 0x41)) State.reset) = .next t ∧
      msgByte t.mem 0 ≠ msgByte (hostState (.access (.write 0x00100000 1 0x41)) State.reset).mem 0) ∧
    (∃ t, step (hostState .reset abcState) = .next t ∧ msgByte t.mem 2 ≠ msgByte (hostState .reset abcState).mem 2) := by
  refine ⟨⟨capacity_pos, by decide, by decide, ⟨rfl, by decide +kernel⟩⟩, ⟨rfl, rfl⟩, ⟨_, rfl, by decide +kernel⟩,
    ⟨_, rfl, by decide +kernel⟩⟩

/-- Each engine meets an unwritten byte: the first of the message, and the last. -/
theorem witness_OnlyUnwrittenReadsFault :
    faultOf (step { abc1 .all .load with mem := [] }) = some (.unwrittenMessageByte 0) ∧
    faultOf (step { abc2 .all .load with mem := abcMem.take 2 }) = some (.unwrittenMessageByte 2) := by decide +kernel

theorem witness_EnginesShareNoMutableState :
    (busy1 State.reset = false ∧ busy2 State.reset = false) ∧ (∃ t, sha1Turn (at1 .sched 79) = .next t) ∧
    (∃ t, sha256Turn (at2 .round 63) = .next t) ∧
    ∃ s t u, sha1Turn s = .next t ∧ sha256Turn s = .next u ∧ busy1 s = true ∧ busy2 s = true :=
  ⟨by decide, ⟨_, rfl⟩, ⟨_, rfl⟩, { at1 .sched 16 with sha256 := (at2 .round 0).sha256 }, _, _, rfl, rfl, by decide, by decide⟩

theorem witness_ResetInputRestoresEveryResetValue :
    (hostState .reset (abc1 .all .round)).prog[(hostState .reset (abc1 .all .round)).hpc]? = some .reset := rfl

/-- A state that meets the invariant, with the SHA-1 engine busy on "abc". -/
theorem abc1_inv : (abc1 .all .load).Inv where
  memWf := by decide
  memIn := by
    have h : (3 : Nat) ≤ Config.maxMsgBytes := abc_fits
    intro c hc
    simp only [abc1, abcState, abcMem, List.mem_cons, List.not_mem_nil, or_false] at hc
    rcases hc with rfl | rfl | rfl <;> (simp only; omega)
  sha1 := {
    lenFits := abc_fits
    blkLe := by decide
    nblkOf := fun _ => by decide
    busyBlk := fun _ => by decide
    schedIndex := fun h => absurd h (by decide)
    doneIff := by decide }
  sha256 := {
    lenFits := Nat.zero_le _
    blkLe := by decide
    nblkOf := fun h => absurd rfl h
    busyBlk := fun h => absurd rfl h
    schedIndex := fun h => absurd h (by decide)
    doneIff := by decide }

theorem witness_StepKeepsTheInvariant : (abc1 .all .load).Inv ∧ ∃ t, step (abc1 .all .load) = .next t :=
  ⟨abc1_inv, by
    have h : (after (step (abc1 .all .load))).isSome = true := by decide +kernel
    cases hs : step (abc1 .all .load) with
    | next t => exact ⟨t, rfl⟩
    | fault f => rw [hs] at h; exact absurd h Bool.false_ne_true
    | refused r => rw [hs] at h; exact absurd h Bool.false_ne_true⟩

/-- Both engines idle and a run that goes on; and one that stops at an unwritten byte. -/
theorem witness_UnspecifiedRegistersAreNeverObserved :
    (busy1 (hostState (wr 0 0x00000012) State.reset) = false ∧ busy2 (hostState (wr 0 0x00000012) State.reset) = false ∧
      ∃ t, core.run 1 (hostState (wr 0 0x00000012) State.reset) = .next t) ∧
    (∃ s f, busy1 s = false ∧ busy2 s = false ∧ core.run 2 s = .fault f) := by
  refine ⟨⟨by decide, by decide, _, rfl⟩,
    ⟨{ hostState (wr 0 0x00000012) { State.reset with len := 3 } with sched := [.host, .sha1] },
      .unwrittenMessageByte 0, by decide, by decide, ?_⟩⟩
  have h : faultOf (core.run 2 { hostState (wr 0 0x00000012) { State.reset with len := 3 } with sched := [.host, .sha1] }) =
      some (.unwrittenMessageByte 0) := by decide +kernel
  cases hs : core.run 2 { hostState (wr 0 0x00000012) { State.reset with len := 3 } with sched := [.host, .sha1] } with
  | next t => rw [hs] at h; cases h
  | refused r => rw [hs] at h; cases h
  | fault f => rw [hs] at h; rw [Option.some.inj h]

theorem witness_EveryComputationEnds : (abc1 .all .load).Inv ∧ busy1 (abc1 .all .load) = true := ⟨abc1_inv, by decide⟩

end Sys2Proof.Tests
end

section
/-! SUPPORT. The register window and the message buffer at the level of a step: what a step does to the error bits and to the
buffer, and the statements about them. -/

namespace Sys2Proof.Machine

open Sys2Proof

/-! ### Bus accesses by register and by message byte -/

/-- Every register lies at a word offset in the window (R25, R61). -/
theorem Reg.offset_inWindow (r : Reg) : r.offset % 4 = 0 ∧ r.offset < 0x400 := by
  cases r with
  | ub k => simp only [Reg.offset]; omega
  | h1 k => simp only [Reg.offset]; omega
  | h2 k => simp only [Reg.offset]; omega
  | dout1 k => simp only [Reg.offset]; omega
  | dout2 k => simp only [Reg.offset]; omega
  | _ => decide

/-- The bus address of a register, read as a number (R25, R61). -/
theorem regAddress_toNat (r : Reg) : (BitVec.ofNat 32 (Config.regBase + r.offset) : Word).toNat = r.offset := by
  obtain ⟨_, hlt⟩ := r.offset_inWindow
  rw [BitVec.toNat_ofNat, Config.regBase, Nat.zero_add, Nat.mod_eq_of_lt (by omega)]

/-- The bus address of a register is a register access, at the register's own offset (R25, R62). -/
theorem regAddress_access (r : Reg) :
    regAccess (BitVec.ofNat 32 (Config.regBase + r.offset)) 4 = true ∧
      regOffset (BitVec.ofNat 32 (Config.regBase + r.offset)) = r.offset := by
  rw [regAccess_iff, regOffset_eq, regAddress_toNat]
  exact ⟨⟨rfl, r.offset_inWindow⟩, rfl⟩

/-- A 4-byte write at a register's address is a write of that register. -/
theorem busAccess_writeReg (r : Reg) (v : Word) (s : State) :
    busAccess (.write (BitVec.ofNat 32 (Config.regBase + r.offset)) 4 v) s = writeReg r v { s with resp := .okay } := by
  obtain ⟨hacc, hoff⟩ := regAddress_access r
  rw [busAccess, if_pos hacc, hoff, writeOffset_offset]

/-- A 4-byte read at a register's address is a read of that register. -/
theorem busAccess_readReg (r : Reg) (s : State) :
    busAccess (.read (BitVec.ofNat 32 (Config.regBase + r.offset)) 4) s = .next (respond (readReg r s)) := by
  obtain ⟨hacc, hoff⟩ := regAddress_access r
  rw [busAccess, if_pos hacc, hoff, readOffset_offset]

/-- A 1-byte write at the address of message byte `i` is a write of that byte. -/
theorem busAccess_writeMsg (i : Nat) (hi : i < Config.maxMsgBytes) (v : Word) (s : State) :
    busAccess (.write (BitVec.ofNat 32 (Config.msgBase + i)) 1 v) s =
      .next (writeMsg i (v.setWidth 8) { s with resp := .okay }) := by
  obtain ⟨hreg, hmsg, hidx⟩ := msgAddress_access i hi
  rw [busAccess, if_neg (by rw [hreg]; exact Bool.false_ne_true), if_pos hmsg, hidx]

theorem writeMsg_of_idle (i : Nat) (b : Byte) (s : State) (h1 : busy1 s = false) (h2 : busy2 s = false) :
    writeMsg i b s = { s with mem := setMsgByte s.mem i b } := by
  simp [writeMsg, h1, h2]

theorem writeCmd_of_ok (cw : Word) (i : Instr) (s : State) (h : decode cw = .ok i) : writeCmd cw s = exec i s := by
  rw [writeCmd, h]

theorem writeCmd_of_error (cw : Word) (e : Illegal) (s : State) (h : decode cw = .error e) :
    writeCmd cw s = .next (raiseError .ill s) := by
  rw [writeCmd, h]

/-! ### The host's turn inside a step -/

@[simp] theorem takeTurn_busy1 (s : State) : busy1 (takeTurn s).2 = busy1 s := by
  rw [busy1, takeTurn_sha1, busy1]

@[simp] theorem takeTurn_busy2 (s : State) : busy2 (takeTurn s).2 = busy2 s := by
  rw [busy2, takeTurn_sha256, busy2]

/-- The statement the host takes up after the schedule has moved on is the one it was at. -/
theorem hostDoes_of_takeTurn (s : State) (op : HostOp) (ha : (takeTurn s).1 = .host)
    (hop : (takeTurn s).2.prog[(takeTurn s).2.hpc]? = some op) : hostDoes s op := by
  rw [takeTurn_prog, takeTurn_hpc] at hop
  exact ⟨ha, hop⟩

/-- A step in which the host makes a bus access. -/
theorem step_access (s : State) (a : Access) (h : hostDoes s (.access a)) :
    step s = busAccess a (advance (takeTurn s).2) := by
  obtain ⟨hstep, hop⟩ := step_of_hostDoes s _ h
  rw [hstep, hostTurn, hop]

/-- A step in which the host asserts reset. -/
theorem step_reset (s : State) (h : hostDoes s .reset) : step s = .next (assertReset (advance (takeTurn s).2)) := by
  obtain ⟨hstep, hop⟩ := step_of_hostDoes s _ h
  rw [hstep, hostTurn, hop]

/-- A step in which the host writes a register. -/
theorem step_writeReg (s : State) (r : Reg) (v : Word) (h : hostWrites s r.offset v) :
    step s = writeReg r v { advance (takeTurn s).2 with resp := .okay } := by
  rw [step_access s _ h, busAccess_writeReg]

/-! ### What a command does to the error bits and the buffer -/

/-- A command leaves the error bits alone, or raises one of them and does nothing else (R222). -/
theorem exec_err_cases (i : Instr) (s t : State) (h : exec i s = .next t) : t.err = s.err ∨ ∃ e, t = raiseError e s := by
  obtain ⟨t', ht', hc⟩ := exec_cases i s
  obtain rfl : t = t' := Host.Outcome.next.inj (h.symm.trans ht')
  rcases hc with hc | ⟨e, hc⟩ | ⟨_, _, _, hc⟩ | ⟨_, _, _, hc⟩ | ⟨_, _, _, hc⟩ | ⟨_, _, _, hc⟩ | ⟨_, _, _, hc⟩ | ⟨_, _, _, hc⟩
  case inr.inl => exact .inr ⟨e, hc⟩
  all_goals exact .inl (by rw [hc])

/-- No command writes the message buffer (R72). -/
theorem exec_mem (i : Instr) (s t : State) (h : exec i s = .next t) : t.mem = s.mem := by
  obtain ⟨t', ht', hc⟩ := exec_cases i s
  obtain rfl : t = t' := Host.Outcome.next.inj (h.symm.trans ht')
  rcases hc with hc | ⟨e, hc⟩ | ⟨_, _, _, hc⟩ | ⟨_, _, _, hc⟩ | ⟨_, _, _, hc⟩ | ⟨_, _, _, hc⟩ | ⟨_, _, _, hc⟩ | ⟨_, _, _, hc⟩
  case inr.inl => rw [hc, raiseError_mem]
  all_goals rw [hc]

/-! ### The error bits -/

/-- A STATUS write, bit by bit (R31). -/
theorem clearErrors_bit (v : Word) (s : State) (i : Nat) (hi : i < 4) :
    (clearErrors v s).err.getLsbD i = (s.err.getLsbD i && !v.getLsbD (8 + i)) := by
  rw [clearErrors_err, BitVec.getLsbD_and, BitVec.getLsbD_not, BitVec.getLsbD_extractLsb']
  simp only [hi, decide_true, Bool.true_and]

/-- An error bit falls in the host's turn only by a STATUS write with a 1 at its place, or by reset (R30). -/
theorem hostTurn_err_sticky (s t : State) (h : hostTurn s = .next t) (i : Nat) (hi : i < 4) (hbit : s.err.getLsbD i = true) :
    t.err.getLsbD i = true ∨
      (∃ v : Word, s.prog[s.hpc]? = some (.access (.write 4#32 4 v)) ∧ v.getLsbD (8 + i) = true) ∨
      s.prog[s.hpc]? = some .reset := by
  obtain ⟨t', ht', hc⟩ := hostTurn_cases s
  obtain rfl : t = t' := Host.Outcome.next.inj (h.symm.trans ht')
  rcases hc with hread | ⟨cw, cmd, _, _, hexec⟩ | ⟨e, hraise⟩ | ⟨v, hop, hclear⟩ | hreg | ⟨j, v, _, _, _, _, hmem⟩ | ⟨hop, _⟩
  · exact .inl (by rw [hread]; exact hbit)
  · rcases exec_err_cases cmd _ t hexec with herr | ⟨e, hraise⟩
    · exact .inl (by rw [herr]; exact hbit)
    · exact .inl (by rw [hraise]; exact raiseError_keeps e _ i hbit)
  · exact .inl (by rw [hraise]; exact raiseError_keeps e _ i hbit)
  · cases hv : v.getLsbD (8 + i)
    · refine .inl ?_
      rw [hclear, clearErrors_bit v _ i hi, hv, Bool.not_false, Bool.and_true]
      exact hbit
    · exact .inr (.inl ⟨v, hop, hv⟩)
  · exact .inl (by rw [hreg]; exact hbit)
  · exact .inl (by rw [hmem]; exact hbit)
  · exact .inr (.inr hop)

/-- Settles O49: an engine's step leaves the error bits alone, and in the host's turn they fall by the two rules only. -/
theorem errorBitsAreSticky : Obligations.ErrorBitsAreSticky := by
  unfold Obligations.ErrorBitsAreSticky
  intro s t hstep i hi hbit
  have hbit' : (takeTurn s).2.err.getLsbD i = true := by rw [takeTurn_err]; exact hbit
  rcases step_cases s t hstep with ⟨_, e, _, ht⟩ | ⟨_, e, _, ht⟩ | ⟨ha, hturn⟩
  · exact .inl (by rw [ht]; exact hbit')
  · exact .inl (by rw [ht]; exact hbit')
  · rcases hostTurn_err_sticky _ t hturn i hi hbit' with hkept | ⟨v, hop, hv⟩ | hop
    · exact .inl hkept
    · exact .inr (.inl ⟨v, hostDoes_of_takeTurn s _ ha hop, hv⟩)
    · exact .inr (.inr (hostDoes_of_takeTurn s _ ha hop))

/-! ### The message buffer -/

/-- Everything the host's turn can do to the message buffer (R43, R65): nothing, a byte write with both engines idle, or reset. -/
theorem hostTurn_mem_cases (s t : State) (h : hostTurn s = .next t) :
    t.mem = s.mem ∨
      (∃ (i : Nat) (v : Word), i < Config.maxMsgBytes ∧ busy1 s = false ∧ busy2 s = false ∧
        s.prog[s.hpc]? = some (.access (.write (BitVec.ofNat 32 (Config.msgBase + i)) 1 v)) ∧
        t.mem = setMsgByte s.mem i (v.extractLsb' 0 8)) ∨
      s.prog[s.hpc]? = some .reset := by
  obtain ⟨t', ht', hc⟩ := hostTurn_cases s
  obtain rfl : t = t' := Host.Outcome.next.inj (h.symm.trans ht')
  rcases hc with hread | ⟨cw, cmd, _, _, hexec⟩ | ⟨e, hraise⟩ | ⟨v, _, hclear⟩ | hreg | ⟨i, v, hi, h1, h2, hop, hmem⟩ | ⟨hop, _⟩
  · exact .inl (by rw [hread])
  · exact .inl ((exec_mem cmd { advance s with resp := .okay } t hexec).trans (advance_mem s))
  · exact .inl (by rw [hraise]; rfl)
  · exact .inl (by rw [hclear]; rfl)
  · exact .inl (by rw [hreg])
  · exact .inr (.inl ⟨i, v, hi, h1, h2, hop, by rw [hmem]⟩)
  · exact .inr (.inr hop)

/-- Everything a step can do to the message buffer: the engines only read it (R72). -/
theorem step_mem_cases (s t : State) (h : step s = .next t) :
    t.mem = s.mem ∨
      (∃ (i : Nat) (v : Word), i < Config.maxMsgBytes ∧ busy1 s = false ∧ busy2 s = false ∧
        hostDoes s (.access (.write (BitVec.ofNat 32 (Config.msgBase + i)) 1 v)) ∧
        t.mem = setMsgByte s.mem i (v.extractLsb' 0 8)) ∨
      hostDoes s .reset := by
  rcases step_cases s t h with ⟨_, e, _, ht⟩ | ⟨_, e, _, ht⟩ | ⟨ha, hturn⟩
  · exact .inl (by rw [ht]; exact takeTurn_mem s)
  · exact .inl (by rw [ht]; exact takeTurn_mem s)
  · have hc := hostTurn_mem_cases _ t hturn
    rw [takeTurn_mem, takeTurn_busy1, takeTurn_busy2] at hc
    rcases hc with hkept | ⟨i, v, hi, h1, h2, hop, hmem⟩ | hop
    · exact .inl hkept
    · exact .inr (.inl ⟨i, v, hi, h1, h2, hostDoes_of_takeTurn s _ ha hop, hmem⟩)
    · exact .inr (.inr (hostDoes_of_takeTurn s _ ha hop))

/-- A step in which the host writes message byte `i` while both engines are idle (R63). -/
theorem step_writeMsg_of_idle (s : State) (i : Nat) (v : Word) (hi : i < Config.maxMsgBytes) (h1 : busy1 s = false)
    (h2 : busy2 s = false) (h : hostDoes s (.access (.write (BitVec.ofNat 32 (Config.msgBase + i)) 1 v))) :
    step s = .next { advance (takeTurn s).2 with mem := setMsgByte s.mem i (v.setWidth 8), resp := .okay } := by
  have hidle1 : busy1 { advance (takeTurn s).2 with resp := .okay } = false := (takeTurn_busy1 s).trans h1
  have hidle2 : busy2 { advance (takeTurn s).2 with resp := .okay } = false := (takeTurn_busy2 s).trans h2
  rw [step_access s _ h, busAccess_writeMsg i hi, writeMsg_of_idle i _ _ hidle1 hidle2]
  simp only [advance_mem, takeTurn_mem]

/-- Settles O51: the write and reset by what the step is then, the rest by `step_mem_cases`. -/
theorem messageBufferChangesOnlyByTheHost : Obligations.MessageBufferChangesOnlyByTheHost := by
  unfold Obligations.MessageBufferChangesOnlyByTheHost
  intro s t hstep
  refine ⟨fun i v hi h1 h2 hop => ?_, fun hop i => ?_, fun j hj => ?_⟩
  · obtain rfl := Host.Outcome.next.inj (hstep.symm.trans (step_writeMsg_of_idle s i v hi h1 h2 hop))
    rw [msgByte_setMsgByte_same, BitVec.setWidth_eq_extractLsb' (by decide)]
  · obtain rfl := Host.Outcome.next.inj (hstep.symm.trans (step_reset s hop))
    rfl
  · rcases step_mem_cases s t hstep with hkept | ⟨i, v, hi, h1, h2, hop, hmem⟩ | hop
    · exact absurd (by rw [hkept]) hj
    · by_cases hji : j = i
      · exact .inl ⟨v, hji ▸ hi, h1, h2, hji ▸ hop⟩
      · exact absurd (by rw [hmem, msgByte_setMsgByte_other _ _ _ _ hji]) hj
    · exact .inr hop

/-! ### The CMD and STATUS registers -/

/-- Settles O6: the access at offset 0 is one of CMD, and a CMD write is `exec` of what the word decodes to. -/
theorem commandWriteRunsTheCommand : Obligations.CommandWriteRunsTheCommand := by
  unfold Obligations.CommandWriteRunsTheCommand
  refine fun s => ⟨fun cw i hw hd => ?_, fun cw e hw hd => ?_, fun hop => ?_⟩
  · exact (step_writeReg s .cmd cw hw).trans (writeCmd_of_ok cw i _ hd)
  · rw [step_writeReg s .cmd cw hw, writeReg, writeCmd_of_error cw e _ hd, raiseError]
    simp only [advance_err, takeTurn_err, ErrorBit.mask]
  · exact (step_access s _ hop).trans (busAccess_readReg .cmd _)

/-- Settles O11: the register at offset 4 is STATUS, and `clearErrors_bit` says what is left of each bit. -/
theorem statusWriteClearsWrittenErrorBits : Obligations.StatusWriteClearsWrittenErrorBits := by
  unfold Obligations.StatusWriteClearsWrittenErrorBits
  exact fun s v => ⟨clearErrors v s, writeOffset_offset .status v s, rfl, clearErrors_bit v s⟩

end Sys2Proof.Machine
end

section
/-! SUPPORT. Malformed bus accesses (R64): those that are neither a register access (R62) nor a message byte access (R63). -/

namespace Sys2Proof.Machine

open Sys2Proof

/-- Settles O16: the two hypotheses deny `regAccess_iff` and `msgAccess_iff_base`, so a read and a write both fall through to
the last branch of `busAccess`. -/
theorem malformedAccessGetsBusError : Obligations.MalformedAccessGetsBusError := by
  unfold Obligations.MalformedAccessGetsBusError
  intro addr width s hnotReg hnotMsg
  have hreg : ¬regAccess addr width = true := mt (regAccess_iff addr width).mp hnotReg
  have hmsg : ¬msgAccess addr width = true := mt (msgAccess_iff_base addr width).mp hnotMsg
  refine ⟨?read, fun v => ?write⟩
  case read => rw [busAccess, if_neg hreg, if_neg hmsg]
  case write => rw [busAccess, if_neg hreg, if_neg hmsg]

end Sys2Proof.Machine
end

section
/-! SUPPORT. The utility unit (41_utilities.md): the command words of its four commands, the laws of the rotations and of the
packing, what each command does, and that the unit and the engines do not meet. -/

namespace Sys2Proof

/-! ### Command words -/

/-- The word written as `(amt << 8) | OPC` in a rotation's rule has the amount and the opcode as its fields (R80, R82). -/
theorem ofNat_amount_or_opcode (amt : Nat) (hamt : amt ≤ 31) (opc : BitVec 8) :
    BitVec.ofNat 32 (amt <<< 8 ||| opc.toNat) = commandWord (BitVec.ofNat 5 amt) opc := by
  have hshift : amt <<< 8 < 2 ^ 32 := by rw [Nat.shiftLeft_eq]; omega
  have hopc : opc.toNat < 2 ^ 32 := by omega
  refine BitVec.eq_of_toNat_eq ?_
  rw [BitVec.toNat_ofNat, Nat.mod_eq_of_lt (Nat.or_lt_two_pow hshift hopc), commandWord, BitVec.toNat_append,
    BitVec.toNat_append, BitVec.toNat_ofNat amt, Nat.mod_eq_of_lt (by omega : amt < 2 ^ 5)]
  simp

/-- ROTL's word decodes to ROTL with its amount (R104). -/
theorem decode_rotl_word (amt : Nat) (hamt : amt ≤ 31) : decode (BitVec.ofNat 32 (amt <<< 8 ||| 0x01)) = .ok (.rotl amt) := by
  have hfield : (BitVec.ofNat 5 amt).toNat = amt := Nat.mod_eq_of_lt (by omega)
  calc decode (BitVec.ofNat 32 (amt <<< 8 ||| 0x01))
      = decode (commandWord (BitVec.ofNat 5 amt) 0x01) := congrArg decode (ofNat_amount_or_opcode amt hamt 0x01)
    _ = .ok (.rotl (BitVec.ofNat 5 amt).toNat) := decode_commandWord _ 0x01
    _ = .ok (.rotl amt) := by rw [hfield]

/-- ROTR's word decodes to ROTR with its amount (R105). -/
theorem decode_rotr_word (amt : Nat) (hamt : amt ≤ 31) : decode (BitVec.ofNat 32 (amt <<< 8 ||| 0x02)) = .ok (.rotr amt) := by
  have hfield : (BitVec.ofNat 5 amt).toNat = amt := Nat.mod_eq_of_lt (by omega)
  calc decode (BitVec.ofNat 32 (amt <<< 8 ||| 0x02))
      = decode (commandWord (BitVec.ofNat 5 amt) 0x02) := congrArg decode (ofNat_amount_or_opcode amt hamt 0x02)
    _ = .ok (.rotr (BitVec.ofNat 5 amt).toNat) := decode_commandWord _ 0x02
    _ = .ok (.rotr amt) := by rw [hfield]

/-- The mask of the rotations leaves a rotation's word its opcode only (R84). -/
theorem rotation_word_mask (amt : Nat) (hamt : amt ≤ 31) (opc : BitVec 8) :
    BitVec.ofNat 32 (amt <<< 8 ||| opc.toNat) &&& 0xFFFFE0FF = commandWord 0 opc := by
  rw [ofNat_amount_or_opcode amt hamt opc, Laws.OwnRow.rotate_mask]

/-- A command without an amount is accepted with AMT = 0 only, and is then the one its opcode names (R85). -/
theorem withoutAmount_ok {amt : BitVec 5} {i j : Instr} (h : withoutAmount amt i = .ok j) : amt = 0 ∧ i = j := by
  unfold withoutAmount at h
  split at h
  case isTrue hamt => exact ⟨hamt, Except.ok.inj h⟩
  case isFalse => cases h

/-- A legal word is the word of the instruction it decodes to: RSV is 0, the opcode is the row's, and AMT is the instruction's
amount, 0 where it has none (R85). -/
theorem encode_of_decode_ok {cw : Word} {i : Instr} (h : decode cw = .ok i) : encode i = cw := by
  by_cases hrsv : rsvField cw = 0
  case neg => rw [decode_reserved cw hrsv] at h; cases h
  rw [commandWord_of_fields cw hrsv] at h ⊢
  generalize amtField cw = a, opcField cw = o at h
  rw [decode_commandWord] at h
  split at h
  case h_11 => cases h
  case h_1 ho =>
    obtain rfl := Except.ok.inj h
    rw [encode, BitVec.ofNat_toNat, BitVec.setWidth_eq, BitVec.eq_of_toNat_eq (y := 0x01) ho]
  case h_2 ho =>
    obtain rfl := Except.ok.inj h
    rw [encode, BitVec.ofNat_toNat, BitVec.setWidth_eq, BitVec.eq_of_toNat_eq (y := 0x02) ho]
  all_goals
    next ho =>
    obtain ⟨rfl, rfl⟩ := withoutAmount_ok h
    exact congrArg (commandWord 0) (BitVec.eq_of_toNat_eq ho.symm)

/-- PACKBE has one word (R106). -/
theorem decode_eq_packbe_iff (cw : Word) : decode cw = .ok .packbe ↔ cw = 0x00000003 :=
  ⟨fun h => (encode_of_decode_ok h).symm, fun h => by rw [h]; rfl⟩

/-- UNPACKBE has one word (R107). -/
theorem decode_eq_unpackbe_iff (cw : Word) : decode cw = .ok .unpackbe ↔ cw = 0x00000004 :=
  ⟨fun h => (encode_of_decode_ok h).symm, fun h => by rw [h]; rfl⟩

end Sys2Proof

namespace Sys2Proof.Machine

open Sys2Proof

/-! ### Rotations -/

@[simp] theorem rotl32_zero (x : Word) : rotl32 x 0 = x := if_pos rfl

@[simp] theorem rotr32_zero (x : Word) : rotr32 x 0 = x := if_pos rfl

/-- Both rotations by an amount that is not 0 as the two shifts of their rules (R100, R101). -/
theorem rotate_shifts (x : Word) (n : Nat) (h : 1 ≤ n) :
    rotl32 x n = (x <<< n) ||| (x >>> (32 - n)) ∧ rotr32 x n = (x >>> n) ||| (x <<< (32 - n)) :=
  ⟨if_neg (Nat.ne_of_gt h), if_neg (Nat.ne_of_gt h)⟩

/-- Where bit `j` of the left rotation comes from: `rotl32_bit` read backwards. -/
theorem getLsbD_rotl32 (x : Word) (n j : Nat) (h : n ≤ 31) (hj : j < 32) :
    (rotl32 x n).getLsbD j = x.getLsbD ((j + (32 - n)) % 32) := by
  have hbit := rotl32_bit x n ((j + (32 - n)) % 32) h (Nat.mod_lt _ (by decide))
  rwa [show ((j + (32 - n)) % 32 + n) % 32 = j by omega] at hbit

/-- A right rotation is the left rotation by the rest of the word (R105). -/
theorem rotr32_eq_rotl32 (x : Word) (n : Nat) (h : n ≤ 31) : rotr32 x n = rotl32 x ((32 - n) % 32) := by
  refine BitVec.eq_of_getLsbD_eq fun i hi => ?_
  rw [rotr32_bit x n i h hi, getLsbD_rotl32 x _ i (by omega) hi]
  congr 1
  omega

/-- Left rotations compose by adding their amounts modulo 32 (R109). -/
theorem rotl32_rotl32 (x : Word) (n m : Nat) (hn : n ≤ 31) (hm : m ≤ 31) :
    rotl32 (rotl32 x n) m = rotl32 x ((n + m) % 32) := by
  refine BitVec.eq_of_getLsbD_eq fun i hi => ?_
  rw [getLsbD_rotl32 _ m i hm hi, getLsbD_rotl32 x n _ hn (Nat.mod_lt _ (by decide)), getLsbD_rotl32 x _ i (by omega) hi]
  congr 1
  omega

/-- The right rotation undoes the left one: the amounts of the two left rotations add up to 0 modulo 32 (R109). -/
theorem rotr32_rotl32 (x : Word) (n : Nat) (h : n ≤ 31) : rotr32 (rotl32 x n) n = x := by
  rw [rotr32_eq_rotl32 _ n h, rotl32_rotl32 x n _ h (by omega), show (n + (32 - n) % 32) % 32 = 0 by omega, rotl32_zero]

/-- A word whose bits are all the same is every rotation of itself. -/
theorem rotl32_of_equal_bits (x : Word) (b : Bool) (hx : ∀ i < 32, x.getLsbD i = b) (n : Nat) (h : n ≤ 31) :
    rotl32 x n = x := by
  refine BitVec.eq_of_getLsbD_eq fun i hi => ?_
  rw [getLsbD_rotl32 x n i h hi, hx _ (Nat.mod_lt _ (by decide)), hx i hi]

/-- Settles O21: the shift formulas are the definitions, the bits are those of `rotl32_bit` and `rotr32_bit`. -/
theorem rotationsMoveEveryBit : Obligations.RotationsMoveEveryBit := by
  unfold Obligations.RotationsMoveEveryBit
  exact fun x n hn => ⟨rotl32_zero x, rotr32_zero x, rotate_shifts x n,
    fun i hi => ⟨rotl32_bit x n i hn hi, rotr32_bit x n i hn hi⟩⟩

/-! ### Packing -/

/-- Unpacking a packed word gives its bytes in order (R109). -/
theorem unpackBE_packBE (b0 b1 b2 b3 : Byte) : unpackBE (packBE b0 b1 b2 b3) = [b0, b1, b2, b3] := by
  obtain ⟨h0, h1, h2, h3⟩ := unpackByte_packBE b0 b1 b2 b3
  rw [unpackBE, h0, h1, h2, h3]

/-- Settles O24: left rotations add their amounts, a right rotation is a left one, and the packing laws hold byte by byte. -/
theorem primitiveLaws : Obligations.PrimitiveLaws := by
  unfold Obligations.PrimitiveLaws
  exact ⟨rotr32_rotl32, rotl32_rotl32, unpackBE_packBE, fun w => ⟨_, _, _, _, rfl, packBE_unpackByte w⟩⟩

/-! ### The four commands -/

theorem exec_rotl (amt : Nat) (s : State) : exec (.rotl amt) s = .next (setUy (rotl32 s.ua amt) s) := rfl

theorem exec_rotr (amt : Nat) (s : State) : exec (.rotr amt) s = .next (setUy (rotr32 s.ua amt) s) := rfl

theorem exec_packbe (s : State) : exec .packbe s = .next (setUy (packedUb s) s) := rfl

theorem exec_unpackbe (s : State) : exec .unpackbe s = .next (setUbs s.ua s) := rfl

/-- Settles O19: the effect is `exec_rotl`, and the corner cases are laws of the left rotation. -/
theorem rotlCommand : Obligations.RotlCommand := by
  unfold Obligations.RotlCommand
  refine fun s amt hamt => ⟨decode_rotl_word amt hamt, rotation_word_mask amt hamt 0x01, exec_rotl amt s, ?zero, ?last,
    ?constant, by decide⟩
  case zero => exact fun h => by rw [h, rotl32_zero]
  case last => exact fun h => by rw [h, rotr32_eq_rotl32 s.ua 1 (by decide)]
  case constant =>
    rintro (h | h)
    · exact rotl32_of_equal_bits _ false (by rw [h]; decide) amt hamt
    · exact rotl32_of_equal_bits _ true (by rw [h]; decide) amt hamt

/-- Settles O20: the effect is `exec_rotr`, and the equation with ROTL is `rotr32_eq_rotl32`. -/
theorem rotrCommand : Obligations.RotrCommand := by
  unfold Obligations.RotrCommand
  exact fun s amt hamt => ⟨decode_rotr_word amt hamt, rotation_word_mask amt hamt 0x02, exec_rotr amt s,
    fun h => by rw [h, rotr32_zero], rotr32_eq_rotl32 s.ua amt hamt, by decide⟩

/-- Settles O22: the word is the only one, and the bytes of the packed word are UB0..UB3 by `unpackByte_packBE`. -/
theorem packbeCommand : Obligations.PackbeCommand := by
  unfold Obligations.PackbeCommand
  refine ⟨decode_eq_packbe_iff, fun s => ?_, by decide, by decide⟩
  exact ⟨_, exec_packbe s, rfl, unpackByte_packBE s.ub0 s.ub1 s.ub2 s.ub3⟩

/-- Settles O23: the word is the only one, and `setUbs` writes UB0..UB3 and nothing else. -/
theorem unpackbeCommand : Obligations.UnpackbeCommand := by
  unfold Obligations.UnpackbeCommand
  exact ⟨decode_eq_unpackbe_iff, exec_unpackbe, by decide⟩

/-! ### The utility unit and the engines (R108) -/

/-- The two states hold the same in every utility register. -/
structure State.SameUtility (s' s : State) : Prop where
  ua : s'.ua = s.ua
  uy : s'.uy = s.uy
  ub0 : s'.ub0 = s.ub0
  ub1 : s'.ub1 = s.ub1
  ub2 : s'.ub2 = s.ub2
  ub3 : s'.ub3 = s.ub3

/-- `s` with the registers a utility command can write, UY and UB0..UB3, taken from `t`. -/
def State.withResultsOf (t s : State) : State :=
  { s with uy := t.uy, ub0 := t.ub0, ub1 := t.ub1, ub2 := t.ub2, ub3 := t.ub3 }

theorem packedUb_of_sameUtility {s s' : State} (h : s'.SameUtility s) : packedUb s' = packedUb s := by
  rw [packedUb, h.ub0, h.ub1, h.ub2, h.ub3, packedUb]

theorem setUy_of_sameUtility {s s' : State} (h : s'.SameUtility s) (v : Word) :
    setUy v s' = (setUy v s).withResultsOf s' := by
  simp only [State.withResultsOf, setUy_uy, setUy_ub0, setUy_ub1, setUy_ub2, setUy_ub3, ← h.ub0, ← h.ub1, ← h.ub2, ← h.ub3]
  rfl

theorem setUbs_of_sameUtility {s s' : State} (h : s'.SameUtility s) (v : Word) :
    setUbs v s' = (setUbs v s).withResultsOf s' := by
  simp only [State.withResultsOf, setUbs_uy, setUbs_ub0, setUbs_ub1, setUbs_ub2, setUbs_ub3, ← h.uy]
  rfl

/-- The command answers in every state, writes UY and UB0..UB3 at most, and what it writes there depends on the utility registers
only. -/
def ActsOnUtilityOnly (i : Instr) : Prop :=
  ∀ s : State, ∃ t, exec i s = .next t ∧ t = t.withResultsOf s ∧
    ∀ s' : State, s'.SameUtility s → exec i s' = .next (t.withResultsOf s')

/-- A command that writes UY with a value of the utility registers. -/
theorem actsOnUtilityOnly_of_setUy (i : Instr) (v : State → Word) (hexec : ∀ s, exec i s = .next (setUy (v s) s))
    (hv : ∀ s s' : State, s'.SameUtility s → v s' = v s) : ActsOnUtilityOnly i := fun s =>
  ⟨_, hexec s, rfl, fun s' h => by rw [hexec, hv s s' h, setUy_of_sameUtility h]⟩

theorem rotl_actsOnUtilityOnly (amt : Nat) : ActsOnUtilityOnly (.rotl amt) :=
  actsOnUtilityOnly_of_setUy _ (fun s => rotl32 s.ua amt) (exec_rotl amt) fun _ _ h => by rw [h.ua]

theorem rotr_actsOnUtilityOnly (amt : Nat) : ActsOnUtilityOnly (.rotr amt) :=
  actsOnUtilityOnly_of_setUy _ (fun s => rotr32 s.ua amt) (exec_rotr amt) fun _ _ h => by rw [h.ua]

theorem packbe_actsOnUtilityOnly : ActsOnUtilityOnly .packbe :=
  actsOnUtilityOnly_of_setUy _ packedUb exec_packbe fun _ _ => packedUb_of_sameUtility

theorem unpackbe_actsOnUtilityOnly : ActsOnUtilityOnly .unpackbe := fun s =>
  ⟨_, exec_unpackbe s, rfl, fun s' h => by rw [exec_unpackbe, h.ua, setUbs_of_sameUtility h]⟩

/-- An engine's turn writes the engines only, and reads the engines and the message buffer only: it does the same in every state
that has these (R72, R236). -/
theorem engineTurn_reads_writes (a : Agent) (s t : State) (ha : a ≠ .host) (h : agentTurn a s = .next t) :
    ∃ (e1 : Sha1Engine) (e2 : Sha256Engine), t = { s with sha1 := e1, sha256 := e2 } ∧
      ∀ s' : State, s'.mem = s.mem → s'.sha1 = s.sha1 → s'.sha256 = s.sha256 →
        agentTurn a s' = .next { s' with sha1 := e1, sha256 := e2 } := by
  cases a with
  | host => exact absurd rfl ha
  | sha1 =>
    obtain ⟨e, he, ht⟩ := (sha1Turn_next_iff s t).mp h
    refine ⟨e, s.sha256, ht, fun s' hmem h1 h2 => (sha1Turn_next_iff s' _).mpr ⟨e, by rw [hmem, h1, he], ?_⟩⟩
    rw [← h2]
  | sha256 =>
    obtain ⟨e, he, ht⟩ := (sha256Turn_next_iff s t).mp h
    refine ⟨s.sha1, e, ht, fun s' hmem h1 h2 => (sha256Turn_next_iff s' _).mpr ⟨e, by rw [hmem, h2, he], ?_⟩⟩
    rw [← h1]

/-- Settles O25: each command acts on the utility registers only, and an engine's turn on the engines and the buffer only. -/
theorem utilityUnitIsIndependentOfTheEngines : Obligations.UtilityUnitIsIndependentOfTheEngines := by
  unfold Obligations.UtilityUnitIsIndependentOfTheEngines
  refine ⟨fun i s hi => ?commands, fun s t ua uy len ub0 ub1 ub2 ub3 a ha hturn => ?engines⟩
  case commands =>
    have hacts : ActsOnUtilityOnly i := by
      rcases hi with ⟨n, rfl⟩ | ⟨n, rfl⟩ | rfl | rfl
      · exact rotl_actsOnUtilityOnly n
      · exact rotr_actsOnUtilityOnly n
      · exact packbe_actsOnUtilityOnly
      · exact unpackbe_actsOnUtilityOnly
    obtain ⟨t, hexec, hframe, hsame⟩ := hacts s
    exact ⟨t, hexec, hframe, fun s' hua huy h0 h1 h2 h3 => hsame s' ⟨hua, huy, h0, h1, h2, h3⟩⟩
  case engines =>
    obtain ⟨e1, e2, rfl, hsame⟩ := engineTurn_reads_writes a s t ha hturn
    exact ⟨rfl, rfl, rfl, rfl, rfl, rfl, rfl, hsame _ rfl rfl rfl⟩

end Sys2Proof.Machine
end

section
/-! SUPPORT. The padding (42_padding.md): the block count against the number of zero bytes, and the words that two buffers with the
same message bytes give. -/

namespace Sys2Proof.Machine

open Sys2Proof

/-! ### The block count (R121) -/

theorem zeroCount_le (len : Nat) : zeroCount len ≤ 63 := by
  unfold zeroCount; omega

/-- The message, the 0x80 byte, the zeros of R120 and the length field fill the blocks (R121). -/
theorem paddedLength_eq (len : Nat) : len + 1 + zeroCount len + 8 = 64 * nblocks len := by
  unfold zeroCount nblocks; omega

theorem nblocks_pos (len : Nat) : 1 ≤ nblocks len := Nat.le_add_left 1 _

/-- Settles O26: the number `z` of zero bytes is the `zeroCount` of R120. -/
theorem blockCountOfAMessage : Obligations.BlockCountOfAMessage := by
  unfold Obligations.BlockCountOfAMessage
  exact fun len => ⟨rfl, nblocks_pos len, zeroCount len, zeroCount_le len, paddedLength_eq len⟩

/-! ### What the padding depends on (R128) -/

/-- A padded word reads the buffer through its four padded bytes only (R123). -/
theorem padWord_congr (m m' : Memory) (len : Word) (j : Nat)
    (h : ∀ k, k < 4 → padByte m len (4 * j + k) = padByte m' len (4 * j + k)) : padWord m len j = padWord m' len j := by
  have h0 : padByte m len (4 * j) = padByte m' len (4 * j) := h 0 (by decide)
  rw [padWord, padWord, h0, h 1 (by decide), h 2 (by decide), h 3 (by decide)]

/-- Settles O29: the four bytes of the word agree by `padByte_congr`, as values or as the same fault. -/
theorem bytesBeyondTheLengthNeverMatter : Obligations.BytesBeyondTheLengthNeverMatter := by
  unfold Obligations.BytesBeyondTheLengthNeverMatter
  exact fun m m' len hagree j => padWord_congr m m' len j fun k _ => padByte_congr m m' len hagree (4 * j + k)

end Sys2Proof.Machine
end

section
/-! SUPPORT. The SHA-1 engine (43_sha1.md): the word and the outcomes of SHA1.INIT, and what the engine's turn does in each of the
phases SCHED, ROUND and ADD. -/

namespace Sys2Proof

/-- SHA1.INIT has one word (R153). -/
theorem decode_eq_sha1Init_iff (cw : Word) : decode cw = .ok .sha1Init ↔ cw = 0x00000010 :=
  ⟨fun h => (encode_of_decode_ok h).symm, fun h => by rw [h]; rfl⟩

end Sys2Proof

namespace Sys2Proof.Machine

open Sys2Proof

/-! ### The command SHA1.INIT (R153) -/

theorem exec_sha1Init (s : State) : exec .sha1Init s = .next (start1 .single .idle s) := rfl

/-- A busy engine gives ERR_BUSY, whatever LEN holds (R153, R155, R227). -/
theorem start1_of_busy (mode : RunMode) (st : Phase) (s : State) (hbusy : busy1 s = true) :
    start1 mode st s = raiseError .busy s := if_pos hbusy

/-- An idle engine and a LEN beyond the capacity give ERR_LEN (R153, R155). -/
theorem start1_of_tooLong (mode : RunMode) (st : Phase) (s : State) (hidle : busy1 s = false)
    (hlen : Config.maxMsgBytes < s.len.toNat) : start1 mode st s = raiseError .len s := by
  rcases start1_cases mode st s with ⟨hbusy, _⟩ | ⟨_, _, h⟩ | ⟨_, hfits, _⟩
  · exact absurd (hbusy.symm.trans hidle) (by decide)
  · exact h
  · exact absurd hlen (Nat.not_lt.mpr hfits)

/-- An idle engine and a LEN within the capacity give the latch (R153, R155). -/
theorem start1_of_fits (mode : RunMode) (st : Phase) (s : State) (hidle : busy1 s = false)
    (hfits : s.len.toNat ≤ Config.maxMsgBytes) : start1 mode st s = { s with sha1 := latch1 s.len mode st s.sha1 } := by
  rcases start1_cases mode st s with ⟨hbusy, _⟩ | ⟨_, hlen, _⟩ | ⟨_, _, h⟩
  · exact absurd (hbusy.symm.trans hidle) (by decide)
  · exact absurd hfits (Nat.not_le.mpr hlen)
  · exact h

/-- The engine is idle exactly when BUSY1 is 0 (R28). -/
theorem st_of_busy1_false {s : State} (hidle : busy1 s = false) : s.sha1.st = .idle := by
  simpa [busy1] using hidle

/-- Settles O30: the three outcomes are those of `start1`; the state IDLE that the latch writes is the one an idle engine has. -/
theorem sha1InitCommand : Obligations.Sha1InitCommand := by
  unfold Obligations.Sha1InitCommand
  refine ⟨decode_eq_sha1Init_iff, rfl, rfl, fun s => ⟨fun hbusy => ?busy, fun hidle hlen => ?tooLong,
    fun hidle hfits => ?latch⟩⟩
  case busy => rw [exec_sha1Init, start1_of_busy _ _ s hbusy, raiseError, ErrorBit.mask]
  case tooLong => rw [exec_sha1Init, start1_of_tooLong _ _ s hidle hlen, raiseError, ErrorBit.mask]
  case latch => rw [exec_sha1Init, start1_of_fits _ _ s hidle hfits, ← st_of_busy1_false hidle]; rfl

/-! ### The engine's turn in a phase without a fault (R150 to R152) -/

/-- The turn of the engine in a phase whose step answers `e`. -/
theorem sha1Turn_of_step (s : State) (e : Sha1Engine) (h : sha1Step s.mem s.sha1 = .ok e) :
    sha1Turn s = .next { s with sha1 := e } := (sha1Turn_next_iff s _).mpr ⟨e, h, rfl⟩

theorem sha1Turn_sched (s : State) (hst : s.sha1.st = .sched) : sha1Turn s = .next { s with sha1 := sha1Sched s.sha1 } :=
  sha1Turn_of_step s _ (by rw [sha1Step, hst])

theorem sha1Turn_round (s : State) (hst : s.sha1.st = .round) : sha1Turn s = .next { s with sha1 := sha1Round s.sha1 } :=
  sha1Turn_of_step s _ (by rw [sha1Step, hst])

theorem sha1Turn_add (s : State) (hst : s.sha1.st = .add) : sha1Turn s = .next { s with sha1 := sha1Add s.sha1 } :=
  sha1Turn_of_step s _ (by rw [sha1Step, hst])

/-! ### The SCHED step (R150) -/

theorem sha1Sched_frame (e : Sha1Engine) :
    sha1Sched e = { e with w := (sha1Sched e).w, t := (sha1Sched e).t, st := (sha1Sched e).st } := by
  rw [sha1Sched_eq]

/-- SCHED stores the word of R141 at index `t1`. -/
theorem sha1Sched_w_same (e : Sha1Engine) :
    (sha1Sched e).w[e.t.val] = sched1 (e.wBack 3) (e.wBack 8) (e.wBack 14) (e.wBack 16) := by
  rw [sha1Sched_eq]
  exact Vector.getElem_set_self _

theorem sha1Sched_w_other (e : Sha1Engine) (j : Nat) (hj : j < 80) (hne : j ≠ e.t.val) : (sha1Sched e).w[j] = e.w[j] := by
  rw [sha1Sched_eq]
  exact Vector.getElem_set_ne e.t.isLt hj hne.symm

theorem sha1Sched_last (e : Sha1Engine) (h : e.t.val = 79) : (sha1Sched e).t.val = 0 ∧ (sha1Sched e).st = .round := by
  rw [sha1Sched_eq, dif_pos h, if_pos h]
  exact ⟨rfl, rfl⟩

theorem sha1Sched_before_last (e : Sha1Engine) (h : e.t.val < 79) :
    (sha1Sched e).t.val = e.t.val + 1 ∧ (sha1Sched e).st = e.st := by
  rw [sha1Sched_eq, dif_neg (Nat.ne_of_lt h), if_neg (Nat.ne_of_lt h)]
  exact ⟨rfl, rfl⟩

/-! ### The ROUND step (R151) -/

theorem sha1Round_frame (e : Sha1Engine) :
    sha1Round e = { e with work := (sha1Round e).work, t := (sha1Round e).t, st := (sha1Round e).st } := by
  rw [sha1Round_eq]

theorem sha1Round_work (e : Sha1Engine) : (sha1Round e).work = round1 e.t.val e.w[e.t.val] e.work := by
  rw [sha1Round_eq]; rfl

theorem sha1Round_last (e : Sha1Engine) (h : e.t.val = 79) : (sha1Round e).t.val = 79 ∧ (sha1Round e).st = .add := by
  rw [sha1Round_eq, dif_pos h, if_pos h]
  exact ⟨h, rfl⟩

theorem sha1Round_before_last (e : Sha1Engine) (h : e.t.val < 79) :
    (sha1Round e).t.val = e.t.val + 1 ∧ (sha1Round e).st = e.st := by
  rw [sha1Round_eq, dif_neg (Nat.ne_of_lt h), if_neg (Nat.ne_of_lt h)]
  exact ⟨rfl, rfl⟩

/-- The mixing function by its bands, the two parity bands as the rest (R142). -/
theorem f1_bands (t : Nat) (x y z : Word) :
    f1 t x y z = if t < 20 then ch x y z else if 40 ≤ t ∧ t < 60 then maj x y z else parity x y z := by
  unfold f1
  by_cases h20 : t < 20
  · rw [if_pos h20, if_pos (Nat.le_of_lt_succ h20)]
  rw [if_neg h20, if_neg (by omega)]
  by_cases h40 : t < 40
  · rw [if_pos (Nat.le_of_lt_succ h40), if_neg (by omega)]
  rw [if_neg (by omega)]
  by_cases h60 : t < 60
  · rw [if_pos (Nat.le_of_lt_succ h60), if_pos ⟨Nat.le_of_not_lt h40, h60⟩]
  · rw [if_neg (by omega), if_neg (by omega)]

/-- The constant of a round by its bands (R143). -/
theorem ks1_bands (t : Nat) :
    ks1 t = if t < 20 then 0x5A827999 else if t < 40 then 0x6ED9EBA1 else if t < 60 then 0x8F1BBCDC else 0xCA62C1D6 := by
  simp only [ks1, Nat.lt_succ_iff]

/-- Settles O34: the engine's turn is `sha1Sched` or `sha1Round`; the formulas are `sched1` and `round1` with their bands. -/
theorem sha1SchedAndRoundSteps : Obligations.Sha1SchedAndRoundSteps := by
  unfold Obligations.Sha1SchedAndRoundSteps
  refine ⟨?sched, ?round⟩
  case sched =>
    rintro s i hi hst rfl h16
    refine ⟨_, sha1Turn_sched s hst, congrArg (fun e => { s with sha1 := e }) (sha1Sched_frame s.sha1),
      sha1Sched_w_same s.sha1, sha1Sched_w_other s.sha1, sha1Sched_last s.sha1, fun hlt => ?_⟩
    rw [← hst]
    exact sha1Sched_before_last s.sha1 hlt
  case round =>
    rintro s i hi hst rfl
    refine ⟨_, sha1Turn_round s hst, congrArg (fun e => { s with sha1 := e }) (sha1Round_frame s.sha1), ?work,
      sha1Round_last s.sha1, fun hlt => ?_⟩
    case work =>
      calc (sha1Round s.sha1).work
          = round1 s.sha1.t.val s.sha1.w[s.sha1.t.val] s.sha1.work := sha1Round_work s.sha1
        _ = _ := by rw [round1, f1_bands, ks1_bands]; rfl
    rw [← hst]
    exact sha1Round_before_last s.sha1 hlt

/-! ### The ADD step (R152) -/

/-- Settles O35: the engine's turn is `sha1Add`, whose law `sha1Add_eq` says each field. -/
theorem sha1AddStep : Obligations.Sha1AddStep := by
  unfold Obligations.Sha1AddStep
  intro s hst
  rw [sha1Turn_add s hst, sha1Add_eq, addBack1]

end Sys2Proof.Machine
end

section
/-! SUPPORT. The SHA-256 engine (44_sha256.md): the word and the outcomes of SHA256.INIT, and what the engine's turn does in each of
the phases SCHED, ROUND and ADD. -/

namespace Sys2Proof

/-- SHA256.INIT has one word (R195). -/
theorem decode_eq_sha256Init_iff (cw : Word) : decode cw = .ok .sha256Init ↔ cw = 0x00000020 :=
  ⟨fun h => (encode_of_decode_ok h).symm, fun h => by rw [h]; rfl⟩

end Sys2Proof

namespace Sys2Proof.Machine

open Sys2Proof

/-! ### The command SHA256.INIT (R195) -/

theorem exec_sha256Init (s : State) : exec .sha256Init s = .next (start2 .single .idle s) := rfl

/-- A busy engine gives ERR_BUSY, whatever LEN holds (R195, R197, R227). -/
theorem start2_of_busy (mode : RunMode) (st : Phase) (s : State) (hbusy : busy2 s = true) :
    start2 mode st s = raiseError .busy s := if_pos hbusy

/-- An idle engine and a LEN beyond the capacity give ERR_LEN (R195, R197). -/
theorem start2_of_tooLong (mode : RunMode) (st : Phase) (s : State) (hidle : busy2 s = false)
    (hlen : Config.maxMsgBytes < s.len.toNat) : start2 mode st s = raiseError .len s := by
  rcases start2_cases mode st s with ⟨hbusy, _⟩ | ⟨_, _, h⟩ | ⟨_, hfits, _⟩
  · exact absurd (hbusy.symm.trans hidle) (by decide)
  · exact h
  · exact absurd hlen (Nat.not_lt.mpr hfits)

/-- An idle engine and a LEN within the capacity give the latch (R195, R197). -/
theorem start2_of_fits (mode : RunMode) (st : Phase) (s : State) (hidle : busy2 s = false)
    (hfits : s.len.toNat ≤ Config.maxMsgBytes) :
    start2 mode st s = { s with sha256 := latch2 s.len mode st s.sha256 } := by
  rcases start2_cases mode st s with ⟨hbusy, _⟩ | ⟨_, hlen, _⟩ | ⟨_, _, h⟩
  · exact absurd (hbusy.symm.trans hidle) (by decide)
  · exact absurd hfits (Nat.not_le.mpr hlen)
  · exact h

/-- The engine is idle when BUSY2 is 0 (R28). -/
theorem st_of_busy2_false {s : State} (hidle : busy2 s = false) : s.sha256.st = .idle := by
  simpa [busy2] using hidle

/-- Settles O39: the three outcomes are those of `start2`; the state IDLE that the latch writes is the one an idle engine has. -/
theorem sha256InitCommand : Obligations.Sha256InitCommand := by
  unfold Obligations.Sha256InitCommand
  refine ⟨decode_eq_sha256Init_iff, rfl, rfl, fun s => ⟨fun hbusy => ?busy, fun hidle hlen => ?tooLong,
    fun hidle hfits => ?latch⟩⟩
  case busy => rw [exec_sha256Init, start2_of_busy _ _ s hbusy, raiseError, ErrorBit.mask]
  case tooLong => rw [exec_sha256Init, start2_of_tooLong _ _ s hidle hlen, raiseError, ErrorBit.mask]
  case latch => rw [exec_sha256Init, start2_of_fits _ _ s hidle hfits, latch2, iv2, ← st_of_busy2_false hidle]

/-! ### The engine's turn in a phase without a fault (R192 to R194) -/

/-- The turn of the engine in a phase whose step answers `e`. -/
theorem sha256Turn_of_step (s : State) (e : Sha256Engine) (h : sha256Step s.mem s.sha256 = .ok e) :
    sha256Turn s = .next { s with sha256 := e } := (sha256Turn_next_iff s _).mpr ⟨e, h, rfl⟩

theorem sha256Turn_sched (s : State) (hst : s.sha256.st = .sched) :
    sha256Turn s = .next { s with sha256 := sha256Sched s.sha256 } :=
  sha256Turn_of_step s _ (by rw [sha256Step, hst])

theorem sha256Turn_round (s : State) (hst : s.sha256.st = .round) :
    sha256Turn s = .next { s with sha256 := sha256Round s.sha256 } :=
  sha256Turn_of_step s _ (by rw [sha256Step, hst])

theorem sha256Turn_add (s : State) (hst : s.sha256.st = .add) :
    sha256Turn s = .next { s with sha256 := sha256Add s.sha256 } :=
  sha256Turn_of_step s _ (by rw [sha256Step, hst])

/-! ### The SCHED step (R192) -/

theorem sha256Sched_frame (e : Sha256Engine) :
    sha256Sched e = { e with w := (sha256Sched e).w, t := (sha256Sched e).t, st := (sha256Sched e).st } := by
  rw [sha256Sched_eq]

/-- SCHED stores the word of R185 at index `t2`. -/
theorem sha256Sched_w_same (e : Sha256Engine) :
    (sha256Sched e).w[e.t.val] = sched2 (e.wBack 2) (e.wBack 7) (e.wBack 15) (e.wBack 16) := by
  rw [sha256Sched_eq]
  exact Vector.getElem_set_self _

theorem sha256Sched_w_other (e : Sha256Engine) (j : Nat) (hj : j < 64) (hne : j ≠ e.t.val) :
    (sha256Sched e).w[j] = e.w[j] := by
  rw [sha256Sched_eq]
  exact Vector.getElem_set_ne e.t.isLt hj hne.symm

theorem sha256Sched_last (e : Sha256Engine) (h : e.t.val = 63) :
    (sha256Sched e).t.val = 0 ∧ (sha256Sched e).st = .round := by
  rw [sha256Sched_eq, dif_pos h, if_pos h]
  exact ⟨rfl, rfl⟩

theorem sha256Sched_before_last (e : Sha256Engine) (h : e.t.val < 63) :
    (sha256Sched e).t.val = e.t.val + 1 ∧ (sha256Sched e).st = e.st := by
  rw [sha256Sched_eq, dif_neg (Nat.ne_of_lt h), if_neg (Nat.ne_of_lt h)]
  exact ⟨rfl, rfl⟩

/-! ### The ROUND step (R193) -/

theorem sha256Round_frame (e : Sha256Engine) :
    sha256Round e = { e with work := (sha256Round e).work, t := (sha256Round e).t, st := (sha256Round e).st } := by
  rw [sha256Round_eq]

theorem sha256Round_work (e : Sha256Engine) :
    (sha256Round e).work = round2 k2[e.t.val] e.w[e.t.val] e.work := by
  rw [sha256Round_eq]; rfl

theorem sha256Round_last (e : Sha256Engine) (h : e.t.val = 63) :
    (sha256Round e).t.val = 63 ∧ (sha256Round e).st = .add := by
  rw [sha256Round_eq, dif_pos h, if_pos h]
  exact ⟨h, rfl⟩

theorem sha256Round_before_last (e : Sha256Engine) (h : e.t.val < 63) :
    (sha256Round e).t.val = e.t.val + 1 ∧ (sha256Round e).st = e.st := by
  rw [sha256Round_eq, dif_neg (Nat.ne_of_lt h), if_neg (Nat.ne_of_lt h)]
  exact ⟨rfl, rfl⟩

/-- Settles O43: the engine's turn is `sha256Sched` or `sha256Round`; the formulas are `sched2` and `round2` with their functions
unfolded. -/
theorem sha256SchedAndRoundSteps : Obligations.Sha256SchedAndRoundSteps := by
  unfold Obligations.Sha256SchedAndRoundSteps
  refine ⟨rfl, ?sched, ?round⟩
  case sched =>
    rintro s i hi hst rfl h16
    refine ⟨_, sha256Turn_sched s hst, congrArg (fun e => { s with sha256 := e }) (sha256Sched_frame s.sha256), ?word,
      sha256Sched_w_other s.sha256, sha256Sched_last s.sha256, fun hlt => ?next⟩
    case word => exact sha256Sched_w_same s.sha256
    case next =>
      rw [← hst]
      exact sha256Sched_before_last s.sha256 hlt
  case round =>
    rintro s i hi hst rfl
    refine ⟨_, sha256Turn_round s hst, congrArg (fun e => { s with sha256 := e }) (sha256Round_frame s.sha256), ?work,
      sha256Round_last s.sha256, fun hlt => ?next⟩
    case work => exact sha256Round_work s.sha256
    case next =>
      rw [← hst]
      exact sha256Round_before_last s.sha256 hlt

/-! ### The ADD step (R194) -/

/-- Settles O44: the engine's turn is `sha256Add`, whose law `sha256Add_eq` says each field. -/
theorem sha256AddStep : Obligations.Sha256AddStep := by
  unfold Obligations.Sha256AddStep
  intro s hst
  rw [sha256Turn_add s hst, sha256Add_eq, addBack2]

end Sys2Proof.Machine
end

section
/-! SUPPORT. The illegal command words (30_encoding.md R85): the decoder refuses exactly these, and a write of one to CMD raises
ERR_ILL (60_exceptions.md R223). -/

namespace Sys2Proof

/-- The ten assigned opcodes, the OPC column of R84. -/
def assignedOpcodes : List (BitVec 8) := [0x01, 0x02, 0x03, 0x04, 0x10, 0x11, 0x12, 0x20, 0x21, 0x22]

/-- The fields AMT and OPC are those of an illegal word: OPC is unassigned, or AMT is not 0 where no rotation reads it (R85). -/
def IllegalFields (amt : BitVec 5) (opc : BitVec 8) : Prop :=
  opc ∉ assignedOpcodes ∨ (amt ≠ 0 ∧ opc ≠ 0x01 ∧ opc ≠ 0x02)

/-- The three kinds of illegal words (R85). -/
def IllegalWord (cw : Word) : Prop := rsvField cw ≠ 0 ∨ IllegalFields (amtField cw) (opcField cw)

theorem illegalWord_commandWord (amt : BitVec 5) (opc : BitVec 8) :
    IllegalWord (commandWord amt opc) ↔ IllegalFields amt opc := by
  obtain ⟨hrsv, hamt, hopc⟩ := commandWord_fields amt opc
  rw [IllegalWord, hrsv, hamt, hopc]
  exact or_iff_right (fun h => h rfl)

theorem not_illegalFields_rotation (amt : BitVec 5) {opc : BitVec 8} (h : opc = 0x01 ∨ opc = 0x02) :
    ¬ IllegalFields amt opc := by
  rintro (hopc | ⟨-, hrotl, hrotr⟩)
  · exact hopc (by rcases h with rfl | rfl <;> decide)
  · exact h.elim hrotl hrotr

theorem not_illegalFields_zero {opc : BitVec 8} (h : opc ∈ assignedOpcodes) : ¬ IllegalFields 0 opc := by
  rintro (hopc | ⟨hamt, -⟩)
  · exact hopc h
  · exact hamt rfl

/-- Every row of R84 is legal, with any amount where it takes one. -/
theorem not_illegalWord_encode (i : Instr) : ¬ IllegalWord (encode i) := by
  cases i <;> rw [encode, illegalWord_commandWord]
  case rotl => exact not_illegalFields_rotation _ (.inl rfl)
  case rotr => exact not_illegalFields_rotation _ (.inr rfl)
  all_goals exact not_illegalFields_zero (by decide)

/-- An assigned opcode decodes to its row's instruction, once AMT is 0 where the row has no amount (R84). -/
theorem decode_commandWord_ok (amt : BitVec 5) (opc : BitVec 8) (h : ¬ IllegalFields amt opc) :
    ∃ i, decode (commandWord amt opc) = .ok i := by
  obtain ⟨hopc, hamt⟩ := not_or.mp h
  have hzero : opc ≠ 0x01 → opc ≠ 0x02 → amt = 0 := fun hrotl hrotr => by_contra fun hne => hamt ⟨hne, hrotl, hrotr⟩
  have hrow : opc ∈ assignedOpcodes := not_not.mp hopc
  simp only [assignedOpcodes, List.mem_cons, List.not_mem_nil, or_false] at hrow
  rw [decode_commandWord]
  rcases hrow with rfl | rfl | rfl | rfl | rfl | rfl | rfl | rfl | rfl | rfl
  case inl => exact ⟨.rotl amt.toNat, rfl⟩
  case inr.inl => exact ⟨.rotr amt.toNat, rfl⟩
  all_goals
    obtain rfl := hzero (by decide) (by decide)
    exact ⟨_, rfl⟩

/-- The decoder accepts exactly the words of no illegal kind: a word it accepts is an instruction's encoding (R85). -/
theorem decode_ok_iff_not_illegalWord (cw : Word) : (∃ i, decode cw = .ok i) ↔ ¬ IllegalWord cw := by
  constructor
  · rintro ⟨i, hi⟩
    rw [← encode_of_decode_ok hi]
    exact not_illegalWord_encode i
  · intro h
    have hrsv : rsvField cw = 0 := by_contra fun hne => h (.inl hne)
    rw [commandWord_of_fields cw hrsv] at h ⊢
    exact decode_commandWord_ok _ _ (h ∘ (illegalWord_commandWord _ _).mpr)

theorem decode_error_of_illegalWord (cw : Word) (h : IllegalWord cw) : ∃ e, decode cw = .error e := by
  cases hd : decode cw with
  | error e => exact ⟨e, rfl⟩
  | ok i => exact absurd h ((decode_ok_iff_not_illegalWord cw).mp ⟨i, hd⟩)

end Sys2Proof

namespace Sys2Proof.Machine

open Sys2Proof

/-- Settles O5: the three kinds are `IllegalWord`, which the decoder refuses with ERR_ILL; any other word decodes. -/
theorem illegalWordsRaiseOnlyErrIll : Obligations.IllegalWordsRaiseOnlyErrIll := by
  unfold Obligations.IllegalWordsRaiseOnlyErrIll
  intro cw s
  refine ⟨fun hill => ?illegal, fun hleg => ?legal⟩
  case illegal =>
    obtain ⟨e, he⟩ := decode_error_of_illegalWord cw hill
    exact writeCmd_of_error cw e s he
  case legal =>
    obtain ⟨i, hi⟩ := (decode_ok_iff_not_illegalWord cw).mpr hleg
    exact ⟨i, hi, writeCmd_of_ok cw i s hi⟩

end Sys2Proof.Machine
end

section
/-! SUPPORT. The command words (30_encoding.md): the decoder and the encoder undo each other, and the opcode map's columns name the
legal words and their instructions. -/

namespace Sys2Proof

/-- Settles O1: each word decodes by evaluation of its three fields. -/
theorem decodeOfTableWords : Obligations.DecodeOfTableWords := by
  unfold Obligations.DecodeOfTableWords
  decide

/-! ### Decoder and encoder -/

/-- An amount of 0..31 is kept by the field AMT (R82). -/
theorem toNat_ofNat_amount {amt : Nat} (h : amt ≤ 31) : (BitVec.ofNat 5 amt).toNat = amt :=
  Nat.mod_eq_of_lt (Nat.lt_succ_of_le h)

theorem decode_encode_rotl {amt : Nat} (h : amt ≤ 31) : decode (encode (.rotl amt)) = .ok (.rotl amt) := by
  rw [encode, decode_commandWord]
  exact congrArg (fun n => Except.ok (Instr.rotl n)) (toNat_ofNat_amount h)

theorem decode_encode_rotr {amt : Nat} (h : amt ≤ 31) : decode (encode (.rotr amt)) = .ok (.rotr amt) := by
  rw [encode, decode_commandWord]
  exact congrArg (fun n => Except.ok (Instr.rotr n)) (toNat_ofNat_amount h)

/-- Settles O2: the two rotations keep an amount of 0..31, and every other instruction has one word. -/
theorem decodeInvertsEncode : Obligations.DecodeInvertsEncode := by
  unfold Obligations.DecodeInvertsEncode
  intro i hi
  cases i with
  | rotl amt => exact decode_encode_rotl (of_decide_eq_true hi)
  | rotr amt => exact decode_encode_rotr (of_decide_eq_true hi)
  | _ => rfl

/-- The decoder answers well-formed instructions only: the amount of a rotation comes from the five bits of AMT (R82). -/
theorem wellFormed_of_decode_ok {cw : Word} {i : Instr} (h : decode cw = .ok i) : i.wellFormed = true := by
  by_cases hrsv : rsvField cw = 0
  case neg => rw [decode_reserved cw hrsv] at h; cases h
  rw [commandWord_of_fields cw hrsv, decode_commandWord] at h
  have hamt : (amtField cw).toNat ≤ 31 := Nat.le_of_lt_succ (amtField cw).isLt
  split at h
  case h_11 => cases h
  case h_1 => obtain rfl := Except.ok.inj h; exact decide_eq_true hamt
  case h_2 => obtain rfl := Except.ok.inj h; exact decide_eq_true hamt
  all_goals
    obtain ⟨-, rfl⟩ := withoutAmount_ok h
    rfl

/-- Settles O3: the decoder's answers are well-formed, and `encode_of_decode_ok` says the word. -/
theorem encodeInvertsDecode : Obligations.EncodeInvertsDecode := by
  unfold Obligations.EncodeInvertsDecode
  exact fun cw i h => ⟨wellFormed_of_decode_ok h, encode_of_decode_ok h⟩

/-! ### The opcode map (R84) -/

/-- The lemmas of `Laws.OwnRow` for every instruction. -/
theorem ownRow_accepts (i : Instr) : Laws.OwnRow.Statement i := by
  cases i with
  | rotl amt => exact Laws.OwnRow.rotl amt
  | rotr amt => exact Laws.OwnRow.rotr amt
  | packbe => exact Laws.OwnRow.packbe
  | unpackbe => exact Laws.OwnRow.unpackbe
  | sha1Init => exact Laws.OwnRow.sha1Init
  | sha1Block => exact Laws.OwnRow.sha1Block
  | sha1Run => exact Laws.OwnRow.sha1Run
  | sha256Init => exact Laws.OwnRow.sha256Init
  | sha256Block => exact Laws.OwnRow.sha256Block
  | sha256Run => exact Laws.OwnRow.sha256Run

/-- A legal word is accepted by a row with the mnemonic of its instruction. -/
theorem exists_row_of_decode_ok {cw : Word} {i : Instr} (h : decode cw = .ok i) :
    ∃ r, r ∈ opcodeMap ∧ r.mnemonic = i.mnemonic ∧ cw &&& r.mask = r.pattern := by
  obtain ⟨r, hr, hname, hacc⟩ := ownRow_accepts i (wellFormed_of_decode_ok h)
  rw [OpcodeRow.accepts, encode_of_decode_ok h] at hacc
  exact ⟨r, hr, hname, eq_of_beq hacc⟩

/-- A mnemonic has one row. -/
theorem row_eq_of_mnemonic_eq : ∀ r ∈ opcodeMap, ∀ r' ∈ opcodeMap, r.mnemonic = r'.mnemonic → r = r' := by
  decide

/-- The mask of the rotations leaves RSV and OPC: a word that is a bare opcode under it has RSV = 0 and that opcode. -/
theorem fields_of_rotation_mask {cw : Word} {opc : BitVec 8} (h : cw &&& 0xFFFFE0FF = commandWord 0 opc) :
    rsvField cw = 0 ∧ opcField cw = opc := by
  obtain ⟨hrsv, -, hopc⟩ := commandWord_fields 0 opc
  rw [← h] at hrsv hopc
  have hand : ∀ start len, (cw &&& 0xFFFFE0FF).extractLsb' start len =
      cw.extractLsb' start len &&& (0xFFFFE0FF : Word).extractLsb' start len := fun _ _ => BitVec.extractLsb'_and
  rw [rsvField, hand, show (0xFFFFE0FF : Word).extractLsb' 13 19 = BitVec.allOnes 19 by decide, BitVec.and_allOnes] at hrsv
  rw [opcField, hand, show (0xFFFFE0FF : Word).extractLsb' 0 8 = BitVec.allOnes 8 by decide, BitVec.and_allOnes] at hopc
  exact ⟨hrsv, hopc⟩

/-- A word that a rotation's row accepts is that rotation's word, with its own amount. -/
theorem commandWord_of_rotation_mask {cw : Word} {opc : BitVec 8} (h : cw &&& 0xFFFFE0FF = commandWord 0 opc) :
    cw = commandWord (amtField cw) opc := by
  obtain ⟨hrsv, hopc⟩ := fields_of_rotation_mask h
  rw [← hopc]
  exact commandWord_of_fields cw hrsv

/-- A row that compares all 32 bits accepts its `match` column only. -/
theorem eq_of_full_mask {cw p : Word} (h : cw &&& 0xFFFFFFFF = p) : cw = p := by
  rwa [show (0xFFFFFFFF : Word) = BitVec.allOnes 32 by decide, BitVec.and_allOnes] at h

/-- A word that a row accepts decodes to an instruction with the row's mnemonic. -/
theorem decode_ok_of_row {cw : Word} {r : OpcodeRow} (hr : r ∈ opcodeMap) (h : cw &&& r.mask = r.pattern) :
    ∃ i, decode cw = .ok i ∧ i.mnemonic = r.mnemonic := by
  simp only [opcodeMap, List.mem_cons, List.not_mem_nil, or_false] at hr
  rcases hr with rfl | rfl | rfl | rfl | rfl | rfl | rfl | rfl | rfl | rfl
  case inl =>
    rw [commandWord_of_rotation_mask (opc := 0x01) h]
    exact ⟨_, decode_commandWord _ _, rfl⟩
  case inr.inl =>
    rw [commandWord_of_rotation_mask (opc := 0x02) h]
    exact ⟨_, decode_commandWord _ _, rfl⟩
  all_goals
    obtain rfl := eq_of_full_mask h
    exact ⟨_, rfl, rfl⟩

/-- Settles O4: the rows that accept a word are, both ways, those of the mnemonic it decodes to, and a mnemonic has one row. -/
theorem legalWordsAreTheOpcodeMap : Obligations.LegalWordsAreTheOpcodeMap := by
  unfold Obligations.LegalWordsAreTheOpcodeMap
  refine fun cw => ⟨⟨?legal, ?accepted⟩, fun i hi r hr => ⟨fun hacc => ?own, fun hname => ?accepts⟩⟩
  case legal =>
    rintro ⟨i, hi⟩
    obtain ⟨r, hr, -, hacc⟩ := exists_row_of_decode_ok hi
    exact ⟨r, hr, hacc⟩
  case accepted =>
    rintro ⟨r, hr, hacc⟩
    exact (decode_ok_of_row hr hacc).imp fun _ h => h.1
  case own =>
    obtain ⟨j, hj, hname⟩ := decode_ok_of_row hr hacc
    obtain rfl : i = j := Except.ok.inj (hi.symm.trans hj)
    exact hname.symm
  case accepts =>
    obtain ⟨r', hr', hname', hacc⟩ := exists_row_of_decode_ok hi
    rwa [row_eq_of_mnemonic_eq r hr r' hr' (hname.trans hname'.symm)]

end Sys2Proof
end

section
/-! SUPPORT. The register window and the message buffer at the level of an access (10_state.md, 20_memory.md): what each register
reads and what a write to it does, and the host's reads and branches. -/

namespace Sys2Proof.Machine

open Sys2Proof

/-! ### Accesses by offset and by message byte -/

/-- An aligned offset that no register has is a reserved one (R24). -/
theorem regAt_eq_none {off : Nat} (h4 : off % 4 = 0) (h : ∀ r : Reg, r.offset ≠ off) : regAt off = none := by
  cases hr : regAt off with
  | none => rfl
  | some r => exact absurd (regAt_some_offset off r hr h4) (h r)

theorem readOffset_reserved {off : Nat} (h : regAt off = none) (s : State) : readOffset off s = (0, s) := by
  rw [readOffset, h]

theorem writeOffset_reserved {off : Nat} (h : regAt off = none) (v : Word) (s : State) :
    writeOffset off v s = .next s := by
  rw [writeOffset, h]

/-- A 1-byte read at an address of the buffer is a read of that byte. -/
theorem busAccess_readMsg {addr : Word} {i : Nat} (hi : i < Config.maxMsgBytes) (ha : addr.toNat = 0x00100000 + i)
    (s : State) : busAccess (.read addr 1) s = .next (respond (readMsg i s)) := by
  obtain ⟨hreg, hmsg, hidx⟩ := msgAccess_of_toNat addr i hi ha
  rw [busAccess, if_neg (by rw [hreg]; exact Bool.false_ne_true), if_pos hmsg, hidx]

/-- The address of message byte `i` is the base plus `i` (R61). -/
theorem eq_msgAddress {addr : Word} {i : Nat} (hi : i < Config.maxMsgBytes) (ha : addr.toNat = 0x00100000 + i) :
    addr = BitVec.ofNat 32 (Config.msgBase + i) :=
  BitVec.eq_of_toNat_eq (by rw [ha, msgAddress_toNat i hi, msgBase_eq])

/-- Settles O8: an aligned access below 0x400 is a register access, and the window's offsets are those of `Reg.offset`. -/
theorem registerWindowConventions : Obligations.RegisterWindowConventions := by
  unfold Obligations.RegisterWindowConventions
  refine ⟨fun addr v s h4 hlt => ?bus, regAt_offset, fun off s v h4 _ hfree => ?reserved, fun s v => ?readOnly⟩
  case bus =>
    have hacc := regAccess_of_lt addr h4 hlt
    exact ⟨by rw [busAccess, if_pos hacc, regOffset_eq, respond], by rw [busAccess, if_pos hacc, regOffset_eq]⟩
  case reserved =>
    have hnone := regAt_eq_none h4 hfree
    exact ⟨readOffset_reserved hnone s, writeOffset_reserved hnone v s⟩
  case readOnly =>
    exact ⟨writeOffset_offset .uy v s, fun k => writeOffset_offset (.h1 k) v s, fun k => writeOffset_offset (.h2 k) v s,
      writeOffset_offset .blk1 v s, writeOffset_offset .nblk1 v s, writeOffset_offset .blk2 v s,
      writeOffset_offset .nblk2 v s, fun k => writeOffset_offset (.dout1 k) v s, fun k => writeOffset_offset (.dout2 k) v s⟩

/-! ### The operand registers (R25, R32) -/

theorem getUb_setUb_other {j k : Fin 4} (h : j ≠ k) (b : Byte) (s : State) : getUb j (setUb k b s) = getUb j s := by
  match j, k with
  | 0, 0 | 1, 1 | 2, 2 | 3, 3 => exact absurd rfl h
  | 0, 1 | 0, 2 | 0, 3 | 1, 0 | 1, 2 | 1, 3 | 2, 0 | 2, 1 | 2, 3 | 3, 0 | 3, 1 | 3, 2 => rfl

/-- The low byte of a word, zero-extended, is the word under the mask 0xFF. -/
theorem zextByte_setWidth (v : Word) : zextByte (v.setWidth 8) = v &&& 0x000000FF := by
  refine BitVec.eq_of_toNat_eq ?_
  rw [zextByte, BitVec.toNat_setWidth, BitVec.toNat_setWidth, BitVec.toNat_and,
    show (0x000000FF : Word).toNat = 2 ^ 8 - 1 by decide, Nat.and_two_pow_sub_one_eq_mod]
  omega

/-- UBk keeps the low byte of a write, which a read gives back zero-extended (R24, R25). -/
theorem readReg_ub_setUb (k : Fin 4) (v : Word) (s : State) :
    readReg (.ub k) (setUb k (v.setWidth 8) s) = (v &&& 0x000000FF, setUb k (v.setWidth 8) s) := by
  rw [readReg, getUb_setUb_same, zextByte_setWidth]

/-- Settles O9: the register at each offset by `readOffset_offset` and `writeOffset_offset`, the bytes by the laws of `setUb`. -/
theorem operandRegistersReadAndWrite : Obligations.OperandRegistersReadAndWrite := by
  unfold Obligations.OperandRegistersReadAndWrite
  intro s v
  refine ⟨writeOffset_offset .len v s, readOffset_offset .len s, writeOffset_offset .ua v s, readOffset_offset .ua s,
    readOffset_offset .uy s, rfl, rfl, rfl, rfl, fun k => readOffset_offset (.ub k) s, fun k => ?_⟩
  refine ⟨setUb k (v.setWidth 8) s, writeOffset_offset (.ub k) v s, ?_,
    (readOffset_offset (.ub k) _).trans (readReg_ub_setUb k v s), fun j hj => getUb_setUb_other hj _ s, setUb_other k _ s⟩
  rw [getUb_setUb_same, BitVec.setWidth_eq_extractLsb' (by decide)]

/-! ### STATUS (R27, R28) -/

/-- STATUS from its top field down, each bit taken from the field that holds it (R27). -/
theorem statusWord_bit (s : State) (i : Nat) :
    (statusWord s).getLsbD i =
      if i = 0 then busy1 s else if i = 1 then s.sha1.done else if i = 2 then busy2 s else if i = 3 then s.sha256.done
      else if i < 8 then false else if i < 12 then s.err.getLsbD (i - 8) else false := by
  simp only [statusWord, BitVec.getLsbD_append, BitVec.getLsbD_ofBool]
  by_cases h : i < 12
  · interval_cases i <;> simp
  · simp (disch := omega) only [if_neg]
    simp

theorem busy1_iff (s : State) : busy1 s = true ↔ s.sha1.st ≠ .idle := decide_eq_true_iff

theorem busy2_iff (s : State) : busy2 s = true ↔ s.sha256.st ≠ .idle := decide_eq_true_iff

/-- Settles O10: the register at offset 4 is STATUS, whose bits are those of `statusWord_bit`. -/
theorem statusReadsItsFields : Obligations.StatusReadsItsFields := by
  unfold Obligations.StatusReadsItsFields
  intro s
  refine ⟨statusWord s, readOffset_offset .status s, ?_, statusWord_bit s 1, ?_, statusWord_bit s 3, fun i h4 h8 => ?_,
    fun i h4 => ?_, fun i h12 => ?_⟩
  · rw [← busy1_iff]; exact Bool.eq_iff_iff.mp (statusWord_bit s 0)
  · rw [← busy2_iff]; exact Bool.eq_iff_iff.mp (statusWord_bit s 2)
  · rw [statusWord_bit]
    simp (disch := omega) only [if_neg, if_pos]
  · rw [statusWord_bit]
    simp (disch := omega) only [if_neg, if_pos, Nat.add_sub_cancel_left]
  · rw [statusWord_bit]
    simp (disch := omega) only [if_neg]

/-! ### The result registers (R33 to R38) -/

theorem resultWord_idle (v : Word) (s : State) : resultWord false v s = (v, s) := rfl

theorem resultWord_busy (v : Word) (s : State) :
    resultWord true v s = (Config.freeWord s.draws, { s with draws := s.draws + 1 }) := rfl

theorem resultByte_idle (b : Byte) (s : State) : resultByte false b s = (b.setWidth 32, s) := rfl

theorem resultByte_busy (b : Byte) (s : State) :
    resultByte true b s = ((Config.freeByte s.draws).setWidth 32, { s with draws := s.draws + 1 }) := rfl

/-- A read of a result register, its engine idle or busy. -/
theorem readOffset_of_resultWord {off : Nat} {b : Bool} {v : Word} {s : State} (hread : readOffset off s = resultWord b v s) :
    (b = false → readOffset off s = (v, s)) ∧ (b = true → ∃ x, readOffset off s = (x, { s with draws := s.draws + 1 })) := by
  rw [hread]
  exact ⟨fun h => by rw [h, resultWord_idle], fun h => ⟨_, by rw [h, resultWord_busy]⟩⟩

/-- Settles O12: Hn and BLKn read as `resultWord` says, NBLKn reads as it is. -/
theorem resultsReadExactlyOnlyWhenIdle : Obligations.ResultsReadExactlyOnlyWhenIdle := by
  unfold Obligations.ResultsReadExactlyOnlyWhenIdle
  intro s
  have h1 := fun k => readOffset_of_resultWord (readOffset_offset (.h1 k) s)
  have b1 := readOffset_of_resultWord (readOffset_offset .blk1 s)
  have h2 := fun k => readOffset_of_resultWord (readOffset_offset (.h2 k) s)
  have b2 := readOffset_of_resultWord (readOffset_offset .blk2 s)
  exact ⟨fun h => ⟨fun k => (h1 k).1 h, b1.1 h⟩, fun h => ⟨fun k => (h2 k).1 h, b2.1 h⟩,
    fun h => ⟨fun k => (h1 k).2 h, b1.2 h⟩, fun h => ⟨fun k => (h2 k).2 h, b2.2 h⟩,
    readOffset_offset .nblk1 s, readOffset_offset .nblk2 s⟩

/-! ### The digest bytes (R35, R36) -/

/-- Byte `k` of a word, zero-extended, is the word shifted and masked (R35). -/
theorem zextByte_unpackByte (w : Word) (k : Nat) : zextByte (unpackByte w k) = w >>> (24 - 8 * k) &&& 0x000000FF := by
  refine BitVec.eq_of_toNat_eq ?_
  rw [zextByte, unpackByte, BitVec.toNat_setWidth, BitVec.extractLsb'_toNat, BitVec.toNat_and, BitVec.toNat_ushiftRight,
    show (0x000000FF : Word).toNat = 2 ^ 8 - 1 by decide, Nat.and_two_pow_sub_one_eq_mod]
  omega

/-- Byte `i` of the words of a vector, taken from the word that holds it. -/
theorem vector_digestByte {n : Nat} (h : Vector Word n) (i : Nat) (hi : i < 4 * n) :
    (h.toList.flatMap unpackBE).getD i 0 = unpackByte (h[i / 4]'(by omega)) (i % 4) := by
  rw [flatMap_unpackBE_getD _ i (by rw [Vector.length_toList]; exact hi), Vector.getElem_toList]

theorem readOffset_dout1_idle (s : State) (i : Fin 20) (h : busy1 s = false) :
    readOffset (0x100 + 4 * i.val) s = (((s.sha1.h.toList.flatMap unpackBE).getD i.val 0).setWidth 32, s) := by
  rw [vector_digestByte s.sha1.h i.val i.isLt, ← resultByte_idle, ← h]
  exact readOffset_offset (.dout1 i) s

theorem readOffset_dout2_idle (s : State) (i : Fin 32) (h : busy2 s = false) :
    readOffset (0x180 + 4 * i.val) s = (((s.sha256.h.toList.flatMap unpackBE).getD i.val 0).setWidth 32, s) := by
  rw [vector_digestByte s.sha256.h i.val i.isLt, ← resultByte_idle, ← h]
  exact readOffset_offset (.dout2 i) s

/-- Settles O13: a DOUT register reads as `resultByte` says, on byte `i mod 4` of word `i div 4`. -/
theorem digestByteViews : Obligations.DigestByteViews := by
  unfold Obligations.DigestByteViews
  refine ⟨fun s v => ⟨fun i => writeOffset_offset (.dout1 i) v s, fun i => writeOffset_offset (.dout2 i) v s⟩,
    fun s i h => ?busy1, fun s i h => ?busy2, fun s i h => ?idle1, fun s i h => ?idle2⟩
  case busy1 =>
    refine ⟨Config.freeByte s.draws, ?_⟩
    rw [← resultByte_busy, ← h]
    exact readOffset_offset (.dout1 i) s
  case busy2 =>
    refine ⟨Config.freeByte s.draws, ?_⟩
    rw [← resultByte_busy, ← h]
    exact readOffset_offset (.dout2 i) s
  case idle1 =>
    refine ⟨readOffset_dout1_idle s i h, ?_⟩
    rw [readOffset_dout1_idle s i h, vector_digestByte s.sha1.h i.val i.isLt]
    exact zextByte_unpackByte _ _
  case idle2 =>
    refine ⟨readOffset_dout2_idle s i h, ?_⟩
    rw [readOffset_dout2_idle s i h, vector_digestByte s.sha256.h i.val i.isLt]
    exact zextByte_unpackByte _ _

/-! ### The message buffer (R61, R63, R65) -/

theorem readMsg_written {i : Nat} {s : State} {b : Byte} (h : msgByte s.mem i = some b) : readMsg i s = (b.setWidth 32, s) := by
  rw [readMsg, h]; rfl

theorem readMsg_unwritten {i : Nat} {s : State} (h : msgByte s.mem i = none) :
    readMsg i s = ((Config.freeByte s.draws).setWidth 32, { s with draws := s.draws + 1 }) := by
  rw [readMsg, h]; rfl

theorem writeMsg_of_busy (i : Nat) (b : Byte) (s : State) (h : busy1 s = true ∨ busy2 s = true) :
    writeMsg i b s = raiseError .busy s :=
  if_pos ((Bool.or_eq_true _ _).mpr h)

/-- Settles O14: the range of the capacity, and a byte access is `writeMsg` or `readMsg` of that byte. -/
theorem messageBytesReadAndWrite : Obligations.MessageBytesReadAndWrite := by
  unfold Obligations.MessageBytesReadAndWrite
  refine ⟨minCapacity_le_maxMsgBytes, maxMsgBytes_le_maxCapacity, fun s i addr hi ha => ⟨fun h1 h2 v => ?write,
    fun b hb => ?written, fun hb => ?unwritten⟩⟩
  case write =>
    refine ⟨{ s with mem := setMsgByte s.mem i (v.setWidth 8), resp := .okay }, ?_, rfl, fun j => ?_⟩
    · rw [eq_msgAddress hi ha, busAccess_writeMsg i hi, writeMsg_of_idle i _ { s with resp := .okay } h1 h2]
    · by_cases hj : j = i
      · rw [if_pos hj, hj, msgByte_setMsgByte_same, BitVec.setWidth_eq_extractLsb' (by decide)]
      · rw [if_neg hj, msgByte_setMsgByte_other _ _ _ _ hj]
  case written => rw [busAccess_readMsg hi ha, readMsg_written hb, respond]
  case unwritten => exact ⟨_, by rw [busAccess_readMsg hi ha, readMsg_unwritten hb, respond]⟩

/-- Settles O15: the write is `writeMsg`, which a busy engine drops; the read is `readMsg`. -/
theorem messageWriteWhileBusyIsDropped : Obligations.MessageWriteWhileBusyIsDropped := by
  unfold Obligations.MessageWriteWhileBusyIsDropped
  refine fun s i hi => ⟨fun hbusy v => ?write, ?read⟩
  case write => rw [busAccess_writeMsg i hi, writeMsg_of_busy i _ { s with resp := .okay } hbusy, raiseError, ErrorBit.mask]
  case read =>
    rw [busAccess_readMsg hi (msgAddress_toNat i hi)]
    cases hb : msgByte s.mem i with
    | some b =>
      refine ⟨b.setWidth 32, s.draws, by rw [readMsg_written hb, respond], fun b' hb' => ?_⟩
      rw [Option.some.inj hb']
      exact ⟨rfl, rfl⟩
    | none => exact ⟨_, _, by rw [readMsg_unwritten hb, respond], fun b' hb' => by cases hb'⟩

/-! ### The host's reads and branches (R69, R88) -/

/-- The answer to a read that changed nothing but the count of free values. -/
theorem respond_of_only_draws {p : Word × State} {s : State} (h : p.2 = { s with draws := p.2.draws }) :
    respond p = { s with resp := .data p.1, draws := p.2.draws } := by
  rw [respond, h]

/-- A read at any address and width completes and changes only the response and the count of free values. -/
theorem busAccess_read_frame (addr : Word) (width : Nat) (s : State) :
    ∃ v d, busAccess (.read addr width) s = .next { s with resp := v, draws := d } := by
  rw [busAccess]
  split
  · exact ⟨_, _, congrArg _ (respond_of_only_draws (readOffset_only_draws _ s))⟩
  · split
    · exact ⟨_, _, congrArg _ (respond_of_only_draws (readMsg_only_draws _ s))⟩
    · exact ⟨_, s.draws, rfl⟩

theorem branchNonzero_of_set {target : Nat} {reg : Reg} {mask : Word} {s : State} (h : (readReg reg s).1 &&& mask ≠ 0) :
    branchNonzero target reg mask s = { respond (readReg reg s) with hpc := target } := if_pos h

theorem branchNonzero_of_clear {target : Nat} {reg : Reg} {mask : Word} {s : State} (h : ¬(readReg reg s).1 &&& mask ≠ 0) :
    branchNonzero target reg mask s = advance (respond (readReg reg s)) := if_neg h

/-- A branch changes only the host's index, the response and the count of free values. -/
theorem branchNonzero_frame (target : Nat) (reg : Reg) (mask : Word) (s : State) :
    ∃ p v d, branchNonzero target reg mask s = { s with hpc := p, resp := v, draws := d } := by
  have hresp := respond_of_only_draws (readReg_only_draws reg s)
  by_cases h : (readReg reg s).1 &&& mask ≠ 0
  · exact ⟨target, _, _, by rw [branchNonzero_of_set h, hresp]⟩
  · exact ⟨s.hpc + 1, _, _, by rw [branchNonzero_of_clear h, hresp, advance]⟩

theorem hostTurn_bnz {s : State} {target : Nat} {reg : Reg} {mask : Word}
    (h : s.prog[s.hpc]? = some (.bnz target reg mask)) : hostTurn s = .next (branchNonzero target reg mask s) := by
  rw [hostTurn, h]

theorem hostTurn_reset {s : State} (h : s.prog[s.hpc]? = some .reset) : hostTurn s = .next (assertReset (advance s)) := by
  rw [hostTurn, h]

/-- Settles O17: the step is the host's turn after the schedule has moved on, and that turn is a read or a branch. -/
theorem hostReadsChangeNoCoreState : Obligations.HostReadsChangeNoCoreState := by
  unfold Obligations.HostReadsChangeNoCoreState
  intro s op hdoes hop
  obtain ⟨hstep, hnext⟩ := step_of_hostDoes s op hdoes
  have hsched := takeTurn_only_schedule s
  rcases hop with ⟨addr, width, rfl⟩ | ⟨target, reg, mask, rfl⟩
  · obtain ⟨v, d, ht⟩ := busAccess_read_frame addr width (advance (takeTurn s).2)
    refine ⟨_, (step_access s _ hdoes).trans ht, ?_⟩
    rw [advance, hsched]
  · obtain ⟨p, v, d, ht⟩ := branchNonzero_frame target reg mask (takeTurn s).2
    refine ⟨_, hstep.trans ((hostTurn_bnz hnext).trans (congrArg _ ht)), ?_⟩
    rw [hsched]

/-- Settles O18: STATUS reads without effect, and the two outcomes of the test are the two values of the index. -/
theorem branchNonzeroOnStatus : Obligations.BranchNonzeroOnStatus := by
  unfold Obligations.BranchNonzeroOnStatus
  intro s target mask hop
  rw [hostTurn_bnz hop]
  by_cases hset : statusWord s &&& mask ≠ 0
  · rw [branchNonzero_of_set (reg := .status) hset, if_pos hset]; rfl
  · rw [branchNonzero_of_clear (reg := .status) hset, if_neg hset]; rfl

/-! ### A command word handed over (log 7) -/

theorem decodeTableWord_eq_some {nbits w : Nat} {i : Instr} (h : decodeTableWord nbits w = some i) :
    decode (tableWord nbits w) = .ok i := by
  unfold decodeTableWord at h
  cases hd : decode (tableWord nbits w) with
  | error e => rw [hd] at h; cases h
  | ok j => rw [hd] at h; rw [Option.some.inj h]

/-- After `withFetchWord` the host's next statement, and the next turn, is the write of the word to CMD. -/
theorem hostWrites_withFetchWord (s : State) (nbits w : Nat) :
    hostWrites (s.withFetchWord nbits w) Reg.cmd.offset (tableWord nbits w) := ⟨rfl, rfl⟩

/-- Settles O7: the step is the CMD write of the word, on a state in which only the host's fields have changed. -/
theorem fetchWordRunsTheDecodedCommand : Obligations.FetchWordRunsTheDecodedCommand := by
  unfold Obligations.FetchWordRunsTheDecodedCommand
  intro s w i h
  calc step (s.withFetchWord 32 w)
      = writeCmd (tableWord 32 w) { s with prog := (s.withFetchWord 32 w).prog, hpc := 1, resp := .okay } :=
        step_writeReg _ .cmd _ (hostWrites_withFetchWord s 32 w)
    _ = exec i { s with prog := (s.withFetchWord 32 w).prog, hpc := 1, resp := .okay } :=
        writeCmd_of_ok _ i _ (decodeTableWord_eq_some h)

end Sys2Proof.Machine
end

section
/-! SUPPORT. The padding against the padded message (42_padding.md R120 to R124), the padding of the empty message (R127), and which
message bytes a padded word, and a block, reads (R66). -/

namespace Sys2Proof.Machine

open Sys2Proof

/-! ### The padded message -/

/-- A length within the capacity is kept by a 32-bit register (R6, R125). -/
theorem toNat_ofNat_length {n : Nat} (h : n ≤ Config.maxMsgBytes) : (BitVec.ofNat 32 n).toNat = n := by
  have hcap := msgBase_add_capacity_le
  have hbase := msgBase_eq
  exact Nat.mod_eq_of_lt (by omega)

/-- Settles O27: the lengths of the padded message and its words, one by one, are laws of the padding. -/
theorem paddedWordsArePaddedMessage : Obligations.PaddedWordsArePaddedMessage := by
  unfold Obligations.PaddedWordsArePaddedMessage
  exact fun m msg hfits hm => ⟨paddedBytes_length msg, paddedWords_length msg,
    padWord_of_holds m msg _ (toNat_ofNat_length hfits) hm⟩

/-- The padded bytes of the empty message: 0x80, then zeros, the 8 bytes of the length 0 among them (R122). -/
theorem padByte_empty (m : Memory) (i : Nat) : padByte m 0 i = .ok (if i = 0 then 0x80 else 0) := by
  have hlen : (0 : Word).toNat = 0 := rfl
  simp only [padByte, hlen, Nat.not_lt_zero, if_false, Nat.mul_zero, Nat.zero_shiftRight]
  split
  · rfl
  · exact ite_self _

/-- Settles O28: word 0 starts with the byte 0x80, and all other bytes are 0. -/
theorem emptyMessageIsOneBlock : Obligations.EmptyMessageIsOneBlock := by
  unfold Obligations.EmptyMessageIsOneBlock
  refine ⟨rfl, fun m => ⟨?first, fun j hj _ => ?zero⟩⟩
  case first => exact padWord_of_bytes m 0 0 _ _ _ _ (padByte_empty m 0) (padByte_empty m 1) (padByte_empty m 2) (padByte_empty m 3)
  case zero =>
    have hzero : ∀ k, padByte m 0 (4 * j + k) = .ok 0 := fun k => by rw [padByte_empty, if_neg (by omega)]
    exact padWord_of_bytes m 0 j _ _ _ _ (hzero 0) (hzero 1) (hzero 2) (hzero 3)

/-! ### The bytes a padded word reads -/

/-- Every message byte with an index in `lo .. lo + n - 1`, below the length, is written. -/
def AllWritten (m : Memory) (len : Word) (lo n : Nat) : Prop :=
  ∀ j, lo ≤ j → j < lo + n → j < len.toNat → msgByte m j ≠ none

/-- Byte `i` is the first unwritten message byte with an index in `lo .. lo + n - 1`, below the length. -/
def FirstUnwritten (m : Memory) (len : Word) (lo n i : Nat) : Prop :=
  lo ≤ i ∧ i < lo + n ∧ i < len.toNat ∧ msgByte m i = none ∧ ∀ j, lo ≤ j → j < i → msgByte m j ≠ none

/-- The computation reads the message bytes `lo .. lo + n - 1` in order: it answers a value when all of them are written and the
fault of the first one that is not (R66; log 5). -/
def ReadsBytes {α : Type} (m : Memory) (len : Word) (lo n : Nat) (x : Except Fault α) : Prop :=
  (AllWritten m len lo n ∧ ∃ v, x = .ok v) ∨ ∃ i, FirstUnwritten m len lo n i ∧ x = .error (.unwrittenMessageByte i)

/-- A first unwritten byte after bytes that are all written. -/
theorem FirstUnwritten.after_written {m : Memory} {len : Word} {lo a b i : Nat} (hw : AllWritten m len lo a)
    (hf : FirstUnwritten m len (lo + a) b i) : FirstUnwritten m len lo (a + b) i := by
  obtain ⟨hlo, hhi, hlen, hnone, hbefore⟩ := hf
  refine ⟨by omega, by omega, hlen, hnone, fun j hj hji => ?_⟩
  by_cases hja : j < lo + a
  · exact hw j hj hja (by omega)
  · exact hbefore j (by omega) hji

theorem AllWritten.append {m : Memory} {len : Word} {lo a b : Nat} (h1 : AllWritten m len lo a)
    (h2 : AllWritten m len (lo + a) b) : AllWritten m len lo (a + b) := fun j hlo hhi hlen => by
  by_cases hja : j < lo + a
  · exact h1 j hlo hja hlen
  · exact h2 j (by omega) (by omega) hlen

theorem readsBytes_pure {α : Type} (m : Memory) (len : Word) (lo : Nat) (v : α) : ReadsBytes m len lo 0 (.ok v) :=
  .inl ⟨fun j hlo hhi => by omega, v, rfl⟩

/-- Two computations in sequence read their bytes in sequence. -/
theorem ReadsBytes.bind {α β : Type} {m : Memory} {len : Word} {lo a b : Nat} {x : Except Fault α} {f : α → Except Fault β}
    (hx : ReadsBytes m len lo a x) (hf : ∀ v, ReadsBytes m len (lo + a) b (f v)) :
    ReadsBytes m len lo (a + b) (x >>= f) := by
  rcases hx with ⟨hwritten, v, rfl⟩ | ⟨i, ⟨hlo, hhi, hlen, hnone, hbefore⟩, rfl⟩
  · rcases hf v with ⟨hwritten', y, hy⟩ | ⟨i, hfirst, hy⟩
    · exact .inl ⟨hwritten.append hwritten', y, hy⟩
    · exact .inr ⟨i, hfirst.after_written hwritten, hy⟩
  · exact .inr ⟨i, ⟨hlo, by omega, hlen, hnone, hbefore⟩, rfl⟩

theorem padByte_readsBytes (m : Memory) (len : Word) (i : Nat) : ReadsBytes m len i 1 (padByte m len i) := by
  have hall : (i < len.toNat → msgByte m i ≠ none) → AllWritten m len i 1 := fun h j hlo hhi hlen => by
    obtain rfl : j = i := by omega
    exact h hlen
  rcases padByte_cases m len i with ⟨b, _, hb, hok⟩ | ⟨hlt, hnone, herr⟩ | ⟨hge, b, hok⟩
  · exact .inl ⟨hall fun _ => by rw [hb]; exact Option.some_ne_none b, b, hok⟩
  · exact .inr ⟨i, ⟨Nat.le_refl i, Nat.lt_succ_self i, hlt, hnone, fun j hlo hhi => by omega⟩, herr⟩
  · exact .inl ⟨hall fun hlt => by omega, b, hok m⟩

theorem padWord_readsBytes (m : Memory) (len : Word) (j : Nat) : ReadsBytes m len (4 * j) 4 (padWord m len j) :=
  (padByte_readsBytes m len (4 * j)).bind fun _ => (padByte_readsBytes m len (4 * j + 1)).bind fun _ =>
    (padByte_readsBytes m len (4 * j + 2)).bind fun _ => (padByte_readsBytes m len (4 * j + 3)).bind fun _ =>
      readsBytes_pure m len _ _

theorem padWords_readsBytes (m : Memory) (len : Word) (j n : Nat) :
    ReadsBytes m len (4 * j) (4 * n) (padWords m len j n) := by
  induction n generalizing j with
  | zero => exact readsBytes_pure m len _ _
  | succ n ih =>
    rw [padWords, show 4 * (n + 1) = 4 + (4 * n + 0) by omega]
    exact (padWord_readsBytes m len j).bind fun _ => (ih (j + 1)).bind fun _ => readsBytes_pure m len _ _

theorem FirstUnwritten.unique {m : Memory} {len : Word} {lo n i i' : Nat} (h : FirstUnwritten m len lo n i)
    (h' : FirstUnwritten m len lo n i') : i = i' := by
  obtain ⟨hlo, -, -, hnone, hbefore⟩ := h
  obtain ⟨hlo', -, -, hnone', hbefore'⟩ := h'
  rcases Nat.lt_trichotomy i i' with hlt | heq | hgt
  · exact absurd hnone (hbefore' i hlo hlt)
  · exact heq
  · exact absurd hnone' (hbefore i' hlo' hgt)

/-- What `ReadsBytes` says of the faults. -/
theorem ReadsBytes.error_iff {α : Type} {m : Memory} {len : Word} {lo n : Nat} {x : Except Fault α}
    (hx : ReadsBytes m len lo n x) (f : Fault) :
    x = .error f ↔ ∃ i, f = .unwrittenMessageByte i ∧ FirstUnwritten m len lo n i := by
  rcases hx with ⟨hwritten, v, rfl⟩ | ⟨i, hfirst, rfl⟩
  · refine ⟨fun h => (by cases h), ?_⟩
    rintro ⟨i, -, hlo, hhi, hlen, hnone, -⟩
    exact absurd hnone (hwritten i hlo hhi hlen)
  · constructor
    · intro h
      exact ⟨i, (Except.error.inj h).symm, hfirst⟩
    · rintro ⟨i', rfl, hfirst'⟩
      rw [hfirst.unique hfirst']

/-- A block is undefined exactly by the first unwritten one of its 64 bytes (R66; log 5). -/
theorem blockWords_error_iff (m : Memory) (len : Word) (b : Nat) (f : Fault) :
    blockWords m len b = .error f ↔ ∃ i, f = .unwrittenMessageByte i ∧ FirstUnwritten m len (64 * b) 64 i := by
  have hreads := padWords_readsBytes m len (16 * b) 16
  rw [show 4 * (16 * b) = 64 * b by omega] at hreads
  exact hreads.error_iff f

/-! ### The words of a block -/

/-- The block whose 16 padded words are `p`. -/
theorem blockWords_of_words {m : Memory} {len : Word} {b : Nat} {p : Fin 16 → Word}
    (h : ∀ k : Fin 16, padWord m len (16 * b + k.val) = .ok (p k)) : blockWords m len b = .ok (List.ofFn p) := by
  have hp : ∀ k, k < 16 → padWord m len (16 * b + k) = .ok ((List.ofFn p).getD (16 * b + k - 16 * b) 0) := fun k hk => by
    rw [Nat.add_sub_cancel_left, List.getD_eq_getElem _ _ (by rwa [List.length_ofFn]), List.getElem_ofFn]
    exact h ⟨k, hk⟩
  rw [blockWords, padWords_ok m len (16 * b) 16 (fun j => (List.ofFn p).getD (j - 16 * b) 0) hp]
  refine congrArg _ (List.ext_getElem (by simp) fun i hi hi' => ?_)
  rw [List.getElem_map, List.getElem_range', Nat.one_mul, Nat.add_sub_cancel_left, List.getD_eq_getElem]

/-- The schedule with a block stored from index 0 on. -/
theorem storeWords_ofFn {n : Nat} (p : Fin 16 → Word) (w : Vector Word n) (k : Nat) (hk : k < n) :
    (storeWords 0 (List.ofFn p) w)[k] = if h : k < 16 then p ⟨k, h⟩ else w[k] := by
  rw [storeWords_getElem 0 _ w k hk]
  by_cases h : k < 16
  · rw [dif_pos (by simpa using h), dif_pos h]
    exact List.getElem_ofFn _
  · rw [dif_neg (by simpa using h), dif_neg h]

/-- The first of a block's 16 padded words that is undefined gives the block's fault. -/
theorem blockWords_of_error {m : Memory} {len : Word} {b : Nat} {k : Fin 16} {f : Fault}
    (hbefore : ∀ j : Fin 16, j < k → ∃ x, padWord m len (16 * b + j.val) = .ok x)
    (herr : padWord m len (16 * b + k.val) = .error f) : blockWords m len b = .error f :=
  padWords_error m len (16 * b) 16 k.val f k.isLt (fun i hi => hbefore ⟨i, by omega⟩ hi) herr

end Sys2Proof.Machine
end

section
/-! SUPPORT. The engines (43_sha1.md, 44_sha256.md): the outcomes of BLOCK and RUN at their CMD write, the LOAD step, and the steps
on one block against the reference functions. -/

namespace Sys2Proof.Machine

open Sys2Proof

/-! ### The commands BLOCK and RUN of the SHA-1 engine (R154, R155) -/

theorem exec_sha1Run (s : State) : exec .sha1Run s = .next (start1 .all .load s) := rfl

theorem exec_sha1Block_of_busy {s : State} (h : busy1 s = true) : exec .sha1Block s = .next (raiseError .busy s) := by
  rw [exec, execSha1Block, if_pos h]

theorem exec_sha1Block_of_noBlock {s : State} (hidle : busy1 s = false) (h : s.sha1.nblk.toNat ≤ s.sha1.blk.toNat) :
    exec .sha1Block s = .next (raiseError .seq s) := by
  rw [exec, execSha1Block, if_neg (by rw [hidle]; exact Bool.false_ne_true), if_pos (BitVec.le_def.mpr h)]

theorem exec_sha1Block_of_block {s : State} (hidle : busy1 s = false) (h : s.sha1.blk.toNat < s.sha1.nblk.toNat) :
    exec .sha1Block s = .next { s with sha1 := { s.sha1 with mode := .single, st := .load } } := by
  rw [exec, execSha1Block, if_neg (by rw [hidle]; exact Bool.false_ne_true),
    if_neg (by rw [BitVec.le_def]; exact Nat.not_le.mpr h)]

/-- Settles O31: the three outcomes of SHA1.BLOCK. -/
theorem sha1BlockCommand : Obligations.Sha1BlockCommand := by
  unfold Obligations.Sha1BlockCommand
  exact fun s => ⟨exec_sha1Block_of_busy, exec_sha1Block_of_noBlock, exec_sha1Block_of_block⟩

/-- Settles O32: the three outcomes are those of `start1`. -/
theorem sha1RunCommand : Obligations.Sha1RunCommand := by
  unfold Obligations.Sha1RunCommand
  refine fun s => ⟨fun hbusy => ?busy, fun hidle hlen => ?tooLong, fun hidle hfits => ?latch⟩
  case busy => rw [exec_sha1Run, start1_of_busy _ _ s hbusy, raiseError, ErrorBit.mask]
  case tooLong => rw [exec_sha1Run, start1_of_tooLong _ _ s hidle hlen, raiseError, ErrorBit.mask]
  case latch => rw [exec_sha1Run, start1_of_fits _ _ s hidle hfits, latch1, iv1]

/-! ### The commands BLOCK and RUN of the SHA-256 engine (R196, R197) -/

theorem exec_sha256Run (s : State) : exec .sha256Run s = .next (start2 .all .load s) := rfl

theorem exec_sha256Block_of_busy {s : State} (h : busy2 s = true) : exec .sha256Block s = .next (raiseError .busy s) := by
  rw [exec, execSha256Block, if_pos h]

theorem exec_sha256Block_of_noBlock {s : State} (hidle : busy2 s = false) (h : s.sha256.nblk.toNat ≤ s.sha256.blk.toNat) :
    exec .sha256Block s = .next (raiseError .seq s) := by
  rw [exec, execSha256Block, if_neg (by rw [hidle]; exact Bool.false_ne_true), if_pos (BitVec.le_def.mpr h)]

theorem exec_sha256Block_of_block {s : State} (hidle : busy2 s = false) (h : s.sha256.blk.toNat < s.sha256.nblk.toNat) :
    exec .sha256Block s = .next { s with sha256 := { s.sha256 with mode := .single, st := .load } } := by
  rw [exec, execSha256Block, if_neg (by rw [hidle]; exact Bool.false_ne_true),
    if_neg (by rw [BitVec.le_def]; exact Nat.not_le.mpr h)]

/-- Settles O40: the three outcomes of SHA256.BLOCK. -/
theorem sha256BlockCommand : Obligations.Sha256BlockCommand := by
  unfold Obligations.Sha256BlockCommand
  exact fun s => ⟨exec_sha256Block_of_busy, exec_sha256Block_of_noBlock, exec_sha256Block_of_block⟩

/-- Settles O41: the three outcomes are those of `start2`. -/
theorem sha256RunCommand : Obligations.Sha256RunCommand := by
  unfold Obligations.Sha256RunCommand
  refine fun s => ⟨fun hbusy => ?busy, fun hidle hlen => ?tooLong, fun hidle hfits => ?latch⟩
  case busy => rw [exec_sha256Run, start2_of_busy _ _ s hbusy, raiseError, ErrorBit.mask]
  case tooLong => rw [exec_sha256Run, start2_of_tooLong _ _ s hidle hlen, raiseError, ErrorBit.mask]
  case latch => rw [exec_sha256Run, start2_of_fits _ _ s hidle hfits, latch2, iv2]

/-! ### An engine command touches its own engine only (R156, R198, R222) -/

/-- The state `t` is `s` with one of the error bits ERR_BUSY, ERR_SEQ and ERR_LEN set. -/
def OnlyRaised (s t : State) : Prop := ∃ bit : BitVec 4, bit ∈ [0b0010, 0b0100, 0b1000] ∧ t = { s with err := s.err ||| bit }

theorem onlyRaised_busy (s : State) : OnlyRaised s (raiseError .busy s) := ⟨0b0010, by decide, rfl⟩

theorem onlyRaised_seq (s : State) : OnlyRaised s (raiseError .seq s) := ⟨0b0100, by decide, rfl⟩

theorem onlyRaised_len (s : State) : OnlyRaised s (raiseError .len s) := ⟨0b1000, by decide, rfl⟩

/-- The outcome `o` changes the SHA-1 engine of `s` alone, and it was idle, or raises one error bit alone. -/
def ActsOnSha1Only (s : State) (o : Host.Outcome State Fault Refusal) : Prop :=
  ∃ t, o = .next t ∧ ((t = { s with sha1 := t.sha1 } ∧ busy1 s = false) ∨ OnlyRaised s t)

/-- The outcome `o` changes the SHA-256 engine of `s` alone, and it was idle, or raises one error bit alone. -/
def ActsOnSha256Only (s : State) (o : Host.Outcome State Fault Refusal) : Prop :=
  ∃ t, o = .next t ∧ ((t = { s with sha256 := t.sha256 } ∧ busy2 s = false) ∨ OnlyRaised s t)

theorem start1_actsOnSha1Only (mode : RunMode) (st : Phase) (s : State) : ActsOnSha1Only s (.next (start1 mode st s)) := by
  refine ⟨_, rfl, ?_⟩
  rcases start1_cases mode st s with ⟨_, h⟩ | ⟨_, _, h⟩ | ⟨hidle, _, h⟩ <;> rw [h]
  · exact .inr (onlyRaised_busy s)
  · exact .inr (onlyRaised_len s)
  · exact .inl ⟨rfl, hidle⟩

theorem start2_actsOnSha256Only (mode : RunMode) (st : Phase) (s : State) :
    ActsOnSha256Only s (.next (start2 mode st s)) := by
  refine ⟨_, rfl, ?_⟩
  rcases start2_cases mode st s with ⟨_, h⟩ | ⟨_, _, h⟩ | ⟨hidle, _, h⟩ <;> rw [h]
  · exact .inr (onlyRaised_busy s)
  · exact .inr (onlyRaised_len s)
  · exact .inl ⟨rfl, hidle⟩

theorem sha1Block_actsOnSha1Only (s : State) : ActsOnSha1Only s (exec .sha1Block s) := by
  cases hb : busy1 s with
  | true => exact ⟨_, exec_sha1Block_of_busy hb, .inr (onlyRaised_busy s)⟩
  | false =>
    by_cases hblk : s.sha1.nblk.toNat ≤ s.sha1.blk.toNat
    · exact ⟨_, exec_sha1Block_of_noBlock hb hblk, .inr (onlyRaised_seq s)⟩
    · exact ⟨_, exec_sha1Block_of_block hb (Nat.not_le.mp hblk), .inl ⟨rfl, hb⟩⟩

theorem sha256Block_actsOnSha256Only (s : State) : ActsOnSha256Only s (exec .sha256Block s) := by
  cases hb : busy2 s with
  | true => exact ⟨_, exec_sha256Block_of_busy hb, .inr (onlyRaised_busy s)⟩
  | false =>
    by_cases hblk : s.sha256.nblk.toNat ≤ s.sha256.blk.toNat
    · exact ⟨_, exec_sha256Block_of_noBlock hb hblk, .inr (onlyRaised_seq s)⟩
    · exact ⟨_, exec_sha256Block_of_block hb (Nat.not_le.mp hblk), .inl ⟨rfl, hb⟩⟩

/-- Settles O48: INIT and RUN are `start1` or `start2`, and BLOCK has its three outcomes. -/
theorem engineCommandsTouchOnlyTheirEngine : Obligations.EngineCommandsTouchOnlyTheirEngine := by
  unfold Obligations.EngineCommandsTouchOnlyTheirEngine
  refine ⟨fun i s hi => ?sha1, fun i s hi => ?sha256⟩
  case sha1 =>
    rcases hi with rfl | rfl | rfl
    · exact start1_actsOnSha1Only .single .idle s
    · exact sha1Block_actsOnSha1Only s
    · exact start1_actsOnSha1Only .all .load s
  case sha256 =>
    rcases hi with rfl | rfl | rfl
    · exact start2_actsOnSha256Only .single .idle s
    · exact sha256Block_actsOnSha256Only s
    · exact start2_actsOnSha256Only .all .load s

/-! ### The LOAD step (R149, R191) -/

theorem sha1Turn_of_error (s : State) (f : Fault) (h : sha1Step s.mem s.sha1 = .error f) : sha1Turn s = .fault f := by
  rw [sha1Turn, h]

theorem sha256Turn_of_error (s : State) (f : Fault) (h : sha256Step s.mem s.sha256 = .error f) : sha256Turn s = .fault f := by
  rw [sha256Turn, h]

theorem sha1Step_load {m : Memory} {e : Sha1Engine} (h : e.st = .load) : sha1Step m e = sha1Load m e := by
  rw [sha1Step, h]

theorem sha256Step_load {m : Memory} {e : Sha256Engine} (h : e.st = .load) : sha256Step m e = sha256Load m e := by
  rw [sha256Step, h]

/-- Settles O33: the engine's turn is `sha1Load` of the block's words or of its first fault. -/
theorem sha1LoadStep : Obligations.Sha1LoadStep := by
  unfold Obligations.Sha1LoadStep
  refine fun s hst => ⟨fun p hp => ?words, fun k f hbefore herr => ?fault⟩
  case words =>
    have hload := (sha1Step_load hst).trans (sha1Load_of_words s.mem s.sha1 _ (blockWords_of_words hp))
    exact ⟨_, sha1Turn_of_step s _ hload, rfl, storeWords_ofFn p s.sha1.w⟩
  case fault =>
    exact sha1Turn_of_error s f
      ((sha1Step_load hst).trans (sha1Load_of_error s.mem s.sha1 f (blockWords_of_error hbefore herr)))

/-- Settles O42: the engine's turn is `sha256Load` of the block's words or of its first fault. -/
theorem sha256LoadStep : Obligations.Sha256LoadStep := by
  unfold Obligations.Sha256LoadStep
  refine fun s hst => ⟨fun p hp => ?words, fun k f hbefore herr => ?fault⟩
  case words =>
    have hload := (sha256Step_load hst).trans (sha256Load_of_words s.mem s.sha256 _ (blockWords_of_words hp))
    exact ⟨_, sha256Turn_of_step s _ hload, rfl, storeWords_ofFn p s.sha256.w⟩
  case fault =>
    exact sha256Turn_of_error s f
      ((sha256Step_load hst).trans (sha256Load_of_error s.mem s.sha256 f (blockWords_of_error hbefore herr)))

/-! ### When a step stops (R66) -/

theorem sha1Load_error_iff (m : Memory) (e : Sha1Engine) (f : Fault) :
    sha1Load m e = .error f ↔ blockWords m e.len e.blk.toNat = .error f := by
  cases hb : blockWords m e.len e.blk.toNat with
  | ok ws => rw [sha1Load_of_words m e ws hb]; exact iff_of_false nofun nofun
  | error g => rw [sha1Load_of_error m e g hb, Except.error.injEq, Except.error.injEq]

theorem sha256Load_error_iff (m : Memory) (e : Sha256Engine) (f : Fault) :
    sha256Load m e = .error f ↔ blockWords m e.len e.blk.toNat = .error f := by
  cases hb : blockWords m e.len e.blk.toNat with
  | ok ws => rw [sha256Load_of_words m e ws hb]; exact iff_of_false nofun nofun
  | error g => rw [sha256Load_of_error m e g hb, Except.error.injEq, Except.error.injEq]

/-- Only the LOAD step of the engine can fault (R148, R149). -/
theorem sha1Step_error_iff (m : Memory) (e : Sha1Engine) (f : Fault) :
    sha1Step m e = .error f ↔ e.st = .load ∧ blockWords m e.len e.blk.toNat = .error f := by
  rw [sha1Step, ← sha1Load_error_iff]
  cases e.st <;> simp

/-- Only the LOAD step of the engine can fault (R190, R191). -/
theorem sha256Step_error_iff (m : Memory) (e : Sha256Engine) (f : Fault) :
    sha256Step m e = .error f ↔ e.st = .load ∧ blockWords m e.len e.blk.toNat = .error f := by
  rw [sha256Step, ← sha256Load_error_iff]
  cases e.st <;> simp

theorem sha1Turn_fault_iff (s : State) (f : Fault) : sha1Turn s = .fault f ↔ sha1Step s.mem s.sha1 = .error f := by
  rw [sha1Turn]
  cases sha1Step s.mem s.sha1 <;> simp

theorem sha256Turn_fault_iff (s : State) (f : Fault) : sha256Turn s = .fault f ↔ sha256Step s.mem s.sha256 = .error f := by
  rw [sha256Turn]
  cases sha256Step s.mem s.sha256 <;> simp

/-- A step stops exactly when it is the turn of an engine whose step faults. -/
theorem step_fault_iff (s : State) (f : Fault) :
    step s = .fault f ↔ ((takeTurn s).1 = .sha1 ∧ sha1Step s.mem s.sha1 = .error f) ∨
      ((takeTurn s).1 = .sha256 ∧ sha256Step s.mem s.sha256 = .error f) := by
  rw [step]
  cases (takeTurn s).1 with
  | host =>
    obtain ⟨t, ht⟩ := hostTurn_next (takeTurn s).2
    simp [agentTurn, ht]
  | sha1 => simp [agentTurn, sha1Turn_fault_iff]
  | sha256 => simp [agentTurn, sha256Turn_fault_iff]

/-- No agent's turn is refused: the host's always answers a state, an engine's a state or a fault. -/
theorem step_not_refused (s : State) (r : Refusal) : step s ≠ .refused r := by
  rw [step]
  cases (takeTurn s).1 with
  | host =>
    obtain ⟨t, ht⟩ := hostTurn_next (takeTurn s).2
    simp [agentTurn, ht]
  | sha1 => rw [agentTurn, sha1Turn]; cases sha1Step _ _ <;> simp
  | sha256 => rw [agentTurn, sha256Turn]; cases sha256Step _ _ <;> simp

/-- Settles O52: the faults of a step are those of a LOAD step, which `blockWords_error_iff` says byte by byte. -/
theorem onlyUnwrittenReadsFault : Obligations.OnlyUnwrittenReadsFault := by
  unfold Obligations.OnlyUnwrittenReadsFault
  refine fun s => ⟨step_not_refused s, fun f => ?_⟩
  rw [step_fault_iff, sha1Step_error_iff, sha256Step_error_iff, blockWords_error_iff, blockWords_error_iff]
  constructor
  · rintro (⟨hturn, hst, i, hf, hlo, hhi, hlen, hnone, hbefore⟩ | ⟨hturn, hst, i, hf, hlo, hhi, hlen, hnone, hbefore⟩)
    · exact ⟨i, hf, hnone, .inl ⟨hturn, hst, hlen, hlo, hhi, hbefore⟩⟩
    · exact ⟨i, hf, hnone, .inr ⟨hturn, hst, hlen, hlo, hhi, hbefore⟩⟩
  · rintro ⟨i, hf, hnone, ⟨hturn, hst, hlen, hlo, hhi, hbefore⟩ | ⟨hturn, hst, hlen, hlo, hhi, hbefore⟩⟩
    · exact .inl ⟨hturn, hst, i, hf, hlo, hhi, hlen, hnone, hbefore⟩
    · exact .inr ⟨hturn, hst, i, hf, hlo, hhi, hlen, hnone, hbefore⟩

/-! ### The engines' turns side by side (R236, R237) -/

theorem sha1Turn_of_idle {s : State} (h : busy1 s = false) : sha1Turn s = .next s :=
  sha1Turn_of_step s _ (by rw [sha1Step, st_of_busy1_false h])

theorem sha256Turn_of_idle {s : State} (h : busy2 s = false) : sha256Turn s = .next s :=
  sha256Turn_of_step s _ (by rw [sha256Step, st_of_busy2_false h])

/-- Settles O53: an engine's turn reads the buffer and its own engine and writes its own engine only. -/
theorem enginesShareNoMutableState : Obligations.EnginesShareNoMutableState := by
  unfold Obligations.EnginesShareNoMutableState
  refine ⟨fun s => sha1Turn_of_idle, fun s => sha256Turn_of_idle, fun s t h => ?sha1, fun s t h => ?sha256,
    fun s t u h1 h2 => ?both⟩
  case sha1 =>
    obtain ⟨e1, hstep, rfl⟩ := (sha1Turn_next_iff s t).mp h
    exact ⟨rfl, fun e => sha1Turn_of_step { s with sha256 := e } e1 hstep⟩
  case sha256 =>
    obtain ⟨e2, hstep, rfl⟩ := (sha256Turn_next_iff s t).mp h
    exact ⟨rfl, fun e => sha256Turn_of_step { s with sha1 := e } e2 hstep⟩
  case both =>
    obtain ⟨e1, hstep1, rfl⟩ := (sha1Turn_next_iff s t).mp h1
    obtain ⟨e2, hstep2, rfl⟩ := (sha256Turn_next_iff s u).mp h2
    exact ⟨{ s with sha1 := e1, sha256 := e2 }, sha256Turn_of_step { s with sha1 := e1 } e2 hstep2,
      sha1Turn_of_step { s with sha256 := e2 } e1 hstep1⟩

/-! ### The steps on one block of the SHA-1 engine (R147, R148) -/

/-- The engine after its steps on a block with the words `block`, up to W1, the working registers and `t1`, which the next LOAD
step sets again. -/
structure Sha1Engine.Compressed (e : Sha1Engine) (block : List Word) (e' : Sha1Engine) : Prop where
  h : e'.h = compress1 e.h block
  blk : e'.blk = e.blk + 1
  len : e'.len = e.len
  nblk : e'.nblk = e.nblk
  mode : e'.mode = e.mode
  done : e'.done = if e.blk + 1 = e.nblk then true else e.done
  st : e'.st = if e.blk + 1 = e.nblk then .idle else if e.mode = .all then .load else .idle

/-- The words of a block of 16, stored from index 0 on, by index. -/
theorem storeWords_block {n : Nat} {ws : List Word} (hlen : ws.length = 16) (v : Vector Word n) (j : Nat) (hj : j < n)
    (h : j < 16) : (storeWords 0 ws v)[j] = ws.getD j 0 := by
  rw [storeWords_getElem 0 ws v j hj, dif_pos (by omega), List.getD_eq_getElem _ _ (by omega)]
  rfl

/-- The steps on a block that LOAD can read: 1 LOAD, 64 SCHED, 80 ROUND and 1 ADD step. -/
theorem sha1Steps_block {m : Memory} {e : Sha1Engine} {ws : List Word} (hst : e.st = .load)
    (hws : blockWords m e.len e.blk.toNat = .ok ws) (hlen : ws.length = 16) :
    ∃ e', sha1Steps m 146 e = .ok e' ∧ e.Compressed ws e' := by
  have hload := (sha1Step_load hst).trans (sha1Load_of_words m e ws hws)
  obtain ⟨w, hsched, hw⟩ := sha1Steps_sched m 63
    { e with w := storeWords 0 ws e.w, work := workOf1 e.h, t := 16, st := .sched } ws rfl rfl hlen (Nat.le_refl 16)
    (fun j hj hlt => storeWords_block hlen e.w j hj hlt)
  have hround := sha1Steps_round m 79 { e with w := w, work := workOf1 e.h, t := 0, st := .round } (extend1 64 ws) rfl rfl
    (by rw [extend1_length, hlen]) (fun j hj _ => hw j hj)
  refine ⟨sha1Add { e with w := w, work := rounds1 0 (extend1 64 ws) (workOf1 e.h), t := 79, st := .add }, ?_, ?_⟩
  · calc sha1Steps m 146 e
        = sha1Steps m (64 + 81) _ := sha1Steps_succ m 145 e _ hload
      _ = sha1Steps m (80 + 1) _ := sha1Steps_add m 64 81 _ _ hsched
      _ = sha1Steps m 1 _ := sha1Steps_add m 80 1 _ _ hround
      _ = .ok _ := sha1Steps_succ m 0 _ _ rfl
  · rw [sha1Add_eq]
    exact ⟨rfl, rfl, rfl, rfl, rfl, rfl, rfl⟩

/-- The steps on a block of a message that the buffer holds. -/
theorem sha1Steps_messageBlock {m : Memory} {msg : List Byte} {e : Sha1Engine} (hm : m.holds msg) (hst : e.st = .load)
    (hlen : e.len.toNat = msg.length) (hblk : e.blk.toNat < nblocks msg.length) :
    ∃ e', sha1Steps m 146 e = .ok e' ∧ e.Compressed (messageBlock msg e.blk.toNat) e' :=
  sha1Steps_block hst (blockWords_of_holds m msg e.len hlen hm _ hblk) (messageBlock_length msg _ hblk)

/-- Settles O36: the block's words are the padded message's, and LOAD, SCHED, ROUND and ADD steps are `compress1` in turn. -/
theorem sha1BlockIsCompress1 : Obligations.Sha1BlockIsCompress1 := by
  unfold Obligations.Sha1BlockIsCompress1
  intro m msg e _ hm hst hlen hblk
  obtain ⟨e', hsteps, hc⟩ := sha1Steps_messageBlock hm hst hlen hblk
  exact ⟨e', hsteps, hc.h, hc.blk, hc.len, hc.nblk, hc.mode, hc.done, hc.st⟩

/-! ### The steps on one block of the SHA-256 engine (R189, R190) -/

/-- The engine after its steps on a block with the words `block`, up to W2, the working registers and `t2`, which the next LOAD
step sets again. -/
structure Sha256Engine.Compressed (e : Sha256Engine) (block : List Word) (e' : Sha256Engine) : Prop where
  h : e'.h = compress2 e.h block
  blk : e'.blk = e.blk + 1
  len : e'.len = e.len
  nblk : e'.nblk = e.nblk
  mode : e'.mode = e.mode
  done : e'.done = if e.blk + 1 = e.nblk then true else e.done
  st : e'.st = if e.blk + 1 = e.nblk then .idle else if e.mode = .all then .load else .idle

/-- The steps on a block that LOAD can read: 1 LOAD, 48 SCHED, 64 ROUND and 1 ADD step. -/
theorem sha256Steps_block {m : Memory} {e : Sha256Engine} {ws : List Word} (hst : e.st = .load)
    (hws : blockWords m e.len e.blk.toNat = .ok ws) (hlen : ws.length = 16) :
    ∃ e', sha256Steps m 114 e = .ok e' ∧ e.Compressed ws e' := by
  have hload := (sha256Step_load hst).trans (sha256Load_of_words m e ws hws)
  obtain ⟨w, hsched, hw⟩ := sha256Steps_sched m 47
    { e with w := storeWords 0 ws e.w, work := workOf2 e.h, t := 16, st := .sched } ws rfl rfl hlen (Nat.le_refl 16)
    (fun j hj hlt => storeWords_block hlen e.w j hj hlt)
  have hround := sha256Steps_round m 63 { e with w := w, work := workOf2 e.h, t := 0, st := .round } k2Rows (extend2 48 ws)
    rfl rfl k2Rows_length (by rw [extend2_length, hlen]) (fun j hj _ => k2_getElem j hj) (fun j hj _ => hw j hj)
  refine ⟨sha256Add { e with w := w, work := rounds2 k2Rows (extend2 48 ws) (workOf2 e.h), t := 63, st := .add }, ?_, ?_⟩
  · calc sha256Steps m 114 e
        = sha256Steps m (48 + 65) _ := sha256Steps_succ m 113 e _ hload
      _ = sha256Steps m (64 + 1) _ := sha256Steps_add m 48 65 _ _ hsched
      _ = sha256Steps m 1 _ := sha256Steps_add m 64 1 _ _ hround
      _ = .ok _ := sha256Steps_succ m 0 _ _ rfl
  · rw [sha256Add_eq]
    exact ⟨rfl, rfl, rfl, rfl, rfl, rfl, rfl⟩

/-- The steps on a block of a message that the buffer holds. -/
theorem sha256Steps_messageBlock {m : Memory} {msg : List Byte} {e : Sha256Engine} (hm : m.holds msg) (hst : e.st = .load)
    (hlen : e.len.toNat = msg.length) (hblk : e.blk.toNat < nblocks msg.length) :
    ∃ e', sha256Steps m 114 e = .ok e' ∧ e.Compressed (messageBlock msg e.blk.toNat) e' :=
  sha256Steps_block hst (blockWords_of_holds m msg e.len hlen hm _ hblk) (messageBlock_length msg _ hblk)

/-- Settles O45: the block's words are the padded message's, and LOAD, SCHED, ROUND and ADD steps are `compress2` in turn. -/
theorem sha256BlockIsCompress2 : Obligations.Sha256BlockIsCompress2 := by
  unfold Obligations.Sha256BlockIsCompress2
  intro m msg e _ hm hst hlen hblk
  obtain ⟨e', hsteps, hc⟩ := sha256Steps_messageBlock hm hst hlen hblk
  exact ⟨e', hsteps, hc.h, hc.blk, hc.len, hc.nblk, hc.mode, hc.done, hc.st⟩

end Sys2Proof.Machine
end

section
/-! SUPPORT. Whole computations (R157, R198): what a run during which an engine stays busy does to that engine, and what its steps
from the start of a computation to IDLE give. -/

namespace Sys2Proof.Machine

open Sys2Proof

/-! ### Block counters as numbers (R37) -/

theorem toNat_succ_of_lt {blk nblk : Word} (h : blk.toNat < nblk.toNat) : (blk + 1).toNat = blk.toNat + 1 := by
  have hlt := nblk.isLt
  rw [BitVec.toNat_add, show (1 : Word).toNat = 1 from rfl, Nat.mod_eq_of_lt (by omega)]

/-- The block just processed was the last one. -/
theorem succ_eq_iff {blk nblk : Word} (h : blk.toNat < nblk.toNat) : blk + 1 = nblk ↔ blk.toNat + 1 = nblk.toNat := by
  rw [← BitVec.toNat_inj, toNat_succ_of_lt h]

/-- The block count of a latched length fits its register (R121). -/
theorem toNat_ofNat_nblocks (len : Word) : (BitVec.ofNat 32 (nblocks len.toNat)).toNat = nblocks len.toNat := by
  have hlt := len.isLt
  refine Nat.mod_eq_of_lt ?_
  unfold nblocks
  omega

/-! ### Runs during which an engine stays busy -/

/-- What every step from a busy state keeps holds at the end of a busy run. -/
theorem keeps_of_busyRun {busy : State → Bool} {P : State → Prop}
    (hkeeps : ∀ s u, busy s = true → P s → step s = .next u → P u) (n : Nat) (s t : State) (hrun : core.run n s = .next t)
    (hbusy : ∀ k, k < n → ∀ u, core.run k s = .next u → busy u = true) (hs : P s) : P t := by
  induction n generalizing s with
  | zero => rwa [← Host.Outcome.next.inj hrun]
  | succ n ih =>
    obtain ⟨u, hstep, hrun'⟩ := core_run_succ_next n s t hrun
    refine ih u hrun' (fun k hk v hv => ?_) (hkeeps s u (hbusy 0 (by omega) s rfl) hs hstep)
    exact hbusy (k + 1) (by omega) v ((core_run_succ k s u hstep).trans hv)

/-- A program without the reset statement has none at the host's index. -/
theorem not_reset_at_hpc {s : State} (h : HostOp.reset ∉ s.prog) : s.prog[s.hpc]? ≠ some .reset := fun hop =>
  h (List.mem_of_getElem? hop)

/-- What a step does besides the engines while one of them is busy and the host's program has no reset: the buffer and the program
stay (R12, R65). -/
theorem step_mem_prog_of_busy {s t : State} (h : step s = .next t) (hbusy : busy1 s = true ∨ busy2 s = true)
    (hreset : HostOp.reset ∉ s.prog) : t.mem = s.mem ∧ t.prog = s.prog := by
  rcases step_cases s t h with ⟨_, e, _, rfl⟩ | ⟨_, e, _, rfl⟩ | ⟨_, hturn⟩
  · exact ⟨takeTurn_mem s, takeTurn_prog s⟩
  · exact ⟨takeTurn_mem s, takeTurn_prog s⟩
  · rw [← takeTurn_busy1 s, ← takeTurn_busy2 s] at hbusy
    rw [← takeTurn_prog s] at hreset
    exact ⟨(hostTurn_mem_of_busy _ t hturn hbusy (not_reset_at_hpc hreset)).trans (takeTurn_mem s),
      (hostTurn_prog _ t hturn).trans (takeTurn_prog s)⟩

/-- Four bytes for each word (R103). -/
theorem length_flatMap_unpackBE (l : List Word) : (l.flatMap unpackBE).length = 4 * l.length := by
  induction l with
  | nil => rfl
  | cons w rest ih =>
    rw [List.flatMap_cons, List.length_append, ih, List.length_cons, show (unpackBE w).length = 4 from rfl]
    omega

/-! ### SHA-1 -/

theorem sha1Steps_snoc {m : Memory} {k : Nat} {e e' e'' : Sha1Engine} (h : sha1Steps m k e = .ok e')
    (h' : sha1Step m e' = .ok e'') : sha1Steps m (k + 1) e = .ok e'' := by
  rw [sha1Steps_add m k 1 e e' h, sha1Steps_succ m 0 e' e'' h', sha1Steps_zero]

/-- A step while the SHA-1 engine is busy leaves it as it is or is its own (R222, R257). -/
theorem step_sha1_of_busy {s t : State} (h : step s = .next t) (hbusy : busy1 s = true) (hreset : HostOp.reset ∉ s.prog) :
    t.sha1 = s.sha1 ∨ sha1Step s.mem s.sha1 = .ok t.sha1 := by
  rcases step_cases s t h with ⟨_, e, hstep, rfl⟩ | ⟨_, e, _, rfl⟩ | ⟨_, hturn⟩
  · exact .inr hstep
  · exact .inl (takeTurn_sha1 s)
  · rw [← takeTurn_busy1 s] at hbusy
    rw [← takeTurn_prog s] at hreset
    exact .inl ((hostTurn_sha1_of_busy _ t hturn hbusy (not_reset_at_hpc hreset)).trans (takeTurn_sha1 s))

/-- The state holds the buffer `m`, its program has no reset, and its SHA-1 engine is some steps on from `e`. -/
structure Sha1Progress (m : Memory) (e : Sha1Engine) (u : State) : Prop where
  mem : u.mem = m
  noReset : HostOp.reset ∉ u.prog
  steps : ∃ k, sha1Steps m k e = .ok u.sha1

theorem sha1Progress_step {m : Memory} {e : Sha1Engine} (s u : State) (hbusy : busy1 s = true) (hs : Sha1Progress m e s)
    (h : step s = .next u) : Sha1Progress m e u := by
  obtain ⟨rfl, hreset, k, hk⟩ := hs
  obtain ⟨hmem, hprog⟩ := step_mem_prog_of_busy h (.inl hbusy) hreset
  refine ⟨hmem, by rwa [hprog], ?_⟩
  rcases step_sha1_of_busy h hbusy hreset with hsame | hstep
  · exact ⟨k, by rwa [hsame]⟩
  · exact ⟨k + 1, sha1Steps_snoc hk hstep⟩

/-- The engine at the end of a computation, in any interleaving, is the one its own steps lead to. -/
theorem sha1_of_busyRun1 {n : Nat} {s t : State} {k : Nat} {e : Sha1Engine} (hrun : busyRun1 n s t) (hidle : busy1 t = false)
    (hreset : HostOp.reset ∉ s.prog) (hsteps : sha1Steps s.mem k s.sha1 = .ok e) (he : e.st = .idle) : t.sha1 = e := by
  obtain ⟨-, -, j, hj⟩ := keeps_of_busyRun (P := Sha1Progress s.mem s.sha1) sha1Progress_step n s t hrun.1 hrun.2
    ⟨rfl, hreset, 0, rfl⟩
  exact sha1Steps_idle_unique s.mem j k _ _ _ hj hsteps (st_of_busy1_false hidle) he

/-- The engine has latched the message and processed its first `b` blocks. -/
structure Sha1Engine.Hashing (msg : List Byte) (b : Nat) (e : Sha1Engine) : Prop where
  len : e.len.toNat = msg.length
  nblk : e.nblk.toNat = nblocks msg.length
  blk : e.blk.toNat = b
  h : e.h = running1 msg b

/-- The engine `e'` has gone on from `e`, which had processed `b` blocks, by one block more (R152). -/
structure Sha1Engine.NextBlock (msg : List Byte) (b : Nat) (e e' : Sha1Engine) : Prop where
  hashing : e'.Hashing msg (b + 1)
  len : e'.len = e.len
  nblk : e'.nblk = e.nblk
  mode : e'.mode = e.mode
  done : e'.done = if b + 1 = nblocks msg.length then true else e.done
  st : e'.st = if b + 1 = nblocks msg.length then .idle else if e.mode = .all then .load else .idle

/-- The steps on a block that is not past the last one. -/
theorem sha1Steps_nextBlock {m : Memory} {msg : List Byte} {b : Nat} {e : Sha1Engine} (hm : m.holds msg) (hst : e.st = .load)
    (he : e.Hashing msg b) (hb : b < nblocks msg.length) : ∃ e', sha1Steps m 146 e = .ok e' ∧ e.NextBlock msg b e' := by
  obtain ⟨hlen, hnblk, rfl, hh⟩ := he
  have hlt : e.blk.toNat < e.nblk.toNat := by rwa [hnblk]
  obtain ⟨e', hsteps, hc⟩ := sha1Steps_messageBlock hm hst hlen hb
  have hhash : e'.Hashing msg (e.blk.toNat + 1) :=
    ⟨by rw [hc.len, hlen], by rw [hc.nblk, hnblk], by rw [hc.blk, toNat_succ_of_lt hlt], by rw [hc.h, hh, running1]⟩
  refine ⟨e', hsteps, hhash, hc.len, hc.nblk, hc.mode, ?_, ?_⟩
  · simp only [hc.done, succ_eq_iff hlt, hnblk]
  · simp only [hc.st, succ_eq_iff hlt, hnblk]

/-- The steps from LOAD in mode ALL, with `r + 1` blocks to go, to the end of the message (R155, R157). -/
theorem sha1Steps_allBlocks {m : Memory} {msg : List Byte} (hm : m.holds msg) (r b : Nat) (e : Sha1Engine) (hst : e.st = .load)
    (hmode : e.mode = .all) (he : e.Hashing msg b) (hr : b + (r + 1) = nblocks msg.length) :
    ∃ k e', sha1Steps m k e = .ok e' ∧ e'.st = .idle ∧ e'.done = true ∧ e'.Hashing msg (nblocks msg.length) := by
  obtain ⟨e', hsteps, hnext⟩ := sha1Steps_nextBlock hm hst he (by omega)
  induction r generalizing b e e' with
  | zero =>
    have hhash := hnext.hashing
    rw [hr] at hhash
    exact ⟨146, e', hsteps, by rw [hnext.st, if_pos hr], by rw [hnext.done, if_pos hr], hhash⟩
  | succ r ih =>
    have hst' : e'.st = .load := by rw [hnext.st, if_neg (by omega), if_pos hmode]
    obtain ⟨e'', hsteps', hnext'⟩ := sha1Steps_nextBlock hm hst' hnext.hashing (by omega)
    obtain ⟨k, f, hk, hend⟩ := ih (b + 1) e' hst' (by rw [hnext.mode, hmode]) hnext.hashing (by omega) e'' hsteps' hnext'
    exact ⟨146 + k, f, (sha1Steps_add m 146 k e e' hsteps).trans hk, hend⟩

/-- What SHA1.RUN latches: the message of length LEN with no block processed (R155). -/
theorem latch1_hashing {msg : List Byte} {len : Word} (hlen : len.toNat = msg.length) (mode : RunMode) (st : Phase)
    (e : Sha1Engine) : (latch1 len mode st e).Hashing msg 0 :=
  ⟨hlen, by rw [← hlen]; exact toNat_ofNat_nblocks len, rfl, rfl⟩

theorem sha1_length (msg : List Byte) : (sha1 msg).length = 20 := by
  rw [sha1, length_flatMap_unpackBE, Vector.length_toList]

/-- Settles O37: the run ends in the engine its own steps lead to, which go through all blocks of the message. -/
theorem sha1RunGivesTheDigest : Obligations.Sha1RunGivesTheDigest := by
  unfold Obligations.Sha1RunGivesTheDigest
  intro msg s0 s t n hidle hlen hfits hm hreset hexec hrun hend
  rw [exec_sha1Run, start1_of_fits _ _ s0 hidle (by rwa [hlen])] at hexec
  obtain rfl := Host.Outcome.next.inj hexec
  obtain ⟨k, e, hsteps, hst, hdone, hhash⟩ := sha1Steps_allBlocks hm (nblocks msg.length - 1) 0
    (latch1 s0.len .all .load s0.sha1) rfl rfl (latch1_hashing hlen _ _ _) (by have := nblocks_pos msg.length; omega)
  obtain rfl : t.sha1 = e := sha1_of_busyRun1 hrun hend hreset hsteps hst
  refine ⟨hdone, BitVec.eq_of_toNat_eq (by rw [hhash.blk, hhash.nblk]), sha1_length msg, fun i => ?_⟩
  rw [readOffset_dout1_idle t i hend, hhash.h, sha1]

/-- Settles O38: the run ends in the engine that the steps on one block lead to. -/
theorem sha1BlockGivesTheRunningState : Obligations.Sha1BlockGivesTheRunningState := by
  unfold Obligations.Sha1BlockGivesTheRunningState
  intro msg b s0 s t n hidle _ hm hreset hlen hnblk hblk hb hdone hh hexec hrun hend
  rw [exec_sha1Block_of_block hidle (by rwa [hblk, hnblk])] at hexec
  obtain rfl := Host.Outcome.next.inj hexec
  obtain ⟨e, hsteps, hnext⟩ := sha1Steps_nextBlock (e := { s0.sha1 with mode := .single, st := .load }) hm rfl
    ⟨hlen, hnblk, hblk, hh⟩ hb
  have hst : e.st = .idle := by rw [hnext.st, if_neg (by decide : ¬RunMode.single = .all), ite_self]
  obtain rfl : t.sha1 = e := sha1_of_busyRun1 hrun hend hreset hsteps hst
  refine ⟨hnext.hashing.h, hnext.hashing.blk, hnext.len, hnext.nblk, ?_⟩
  rw [hnext.done, hdone]
  simp

/-! ### SHA-256 -/

theorem sha256Steps_snoc {m : Memory} {k : Nat} {e e' e'' : Sha256Engine} (h : sha256Steps m k e = .ok e')
    (h' : sha256Step m e' = .ok e'') : sha256Steps m (k + 1) e = .ok e'' := by
  rw [sha256Steps_add m k 1 e e' h, sha256Steps_succ m 0 e' e'' h', sha256Steps_zero]

/-- A step while the SHA-256 engine is busy leaves it as it is or is its own (R222, R257). -/
theorem step_sha256_of_busy {s t : State} (h : step s = .next t) (hbusy : busy2 s = true) (hreset : HostOp.reset ∉ s.prog) :
    t.sha256 = s.sha256 ∨ sha256Step s.mem s.sha256 = .ok t.sha256 := by
  rcases step_cases s t h with ⟨_, e, _, rfl⟩ | ⟨_, e, hstep, rfl⟩ | ⟨_, hturn⟩
  · exact .inl (takeTurn_sha256 s)
  · exact .inr hstep
  · rw [← takeTurn_busy2 s] at hbusy
    rw [← takeTurn_prog s] at hreset
    exact .inl ((hostTurn_sha256_of_busy _ t hturn hbusy (not_reset_at_hpc hreset)).trans (takeTurn_sha256 s))

/-- The state holds the buffer `m`, its program has no reset, and its SHA-256 engine is some steps on from `e`. -/
structure Sha256Progress (m : Memory) (e : Sha256Engine) (u : State) : Prop where
  mem : u.mem = m
  noReset : HostOp.reset ∉ u.prog
  steps : ∃ k, sha256Steps m k e = .ok u.sha256

theorem sha256Progress_step {m : Memory} {e : Sha256Engine} (s u : State) (hbusy : busy2 s = true) (hs : Sha256Progress m e s)
    (h : step s = .next u) : Sha256Progress m e u := by
  obtain ⟨rfl, hreset, k, hk⟩ := hs
  obtain ⟨hmem, hprog⟩ := step_mem_prog_of_busy h (.inr hbusy) hreset
  refine ⟨hmem, by rwa [hprog], ?_⟩
  rcases step_sha256_of_busy h hbusy hreset with hsame | hstep
  · exact ⟨k, by rwa [hsame]⟩
  · exact ⟨k + 1, sha256Steps_snoc hk hstep⟩

/-- The engine at the end of a computation, in any interleaving, is the one its own steps lead to. -/
theorem sha256_of_busyRun2 {n : Nat} {s t : State} {k : Nat} {e : Sha256Engine} (hrun : busyRun2 n s t) (hidle : busy2 t = false)
    (hreset : HostOp.reset ∉ s.prog) (hsteps : sha256Steps s.mem k s.sha256 = .ok e) (he : e.st = .idle) : t.sha256 = e := by
  obtain ⟨-, -, j, hj⟩ := keeps_of_busyRun (P := Sha256Progress s.mem s.sha256) sha256Progress_step n s t hrun.1 hrun.2
    ⟨rfl, hreset, 0, rfl⟩
  exact sha256Steps_idle_unique s.mem j k _ _ _ hj hsteps (st_of_busy2_false hidle) he

/-- The engine has latched the message and processed its first `b` blocks. -/
structure Sha256Engine.Hashing (msg : List Byte) (b : Nat) (e : Sha256Engine) : Prop where
  len : e.len.toNat = msg.length
  nblk : e.nblk.toNat = nblocks msg.length
  blk : e.blk.toNat = b
  h : e.h = running2 msg b

/-- The engine `e'` has gone on from `e`, which had processed `b` blocks, by one block more (R194). -/
structure Sha256Engine.NextBlock (msg : List Byte) (b : Nat) (e e' : Sha256Engine) : Prop where
  hashing : e'.Hashing msg (b + 1)
  len : e'.len = e.len
  nblk : e'.nblk = e.nblk
  mode : e'.mode = e.mode
  done : e'.done = if b + 1 = nblocks msg.length then true else e.done
  st : e'.st = if b + 1 = nblocks msg.length then .idle else if e.mode = .all then .load else .idle

/-- The steps on a block that is not past the last one. -/
theorem sha256Steps_nextBlock {m : Memory} {msg : List Byte} {b : Nat} {e : Sha256Engine} (hm : m.holds msg) (hst : e.st = .load)
    (he : e.Hashing msg b) (hb : b < nblocks msg.length) : ∃ e', sha256Steps m 114 e = .ok e' ∧ e.NextBlock msg b e' := by
  obtain ⟨hlen, hnblk, rfl, hh⟩ := he
  have hlt : e.blk.toNat < e.nblk.toNat := by rwa [hnblk]
  obtain ⟨e', hsteps, hc⟩ := sha256Steps_messageBlock hm hst hlen hb
  have hhash : e'.Hashing msg (e.blk.toNat + 1) :=
    ⟨by rw [hc.len, hlen], by rw [hc.nblk, hnblk], by rw [hc.blk, toNat_succ_of_lt hlt], by rw [hc.h, hh, running2]⟩
  refine ⟨e', hsteps, hhash, hc.len, hc.nblk, hc.mode, ?_, ?_⟩
  · simp only [hc.done, succ_eq_iff hlt, hnblk]
  · simp only [hc.st, succ_eq_iff hlt, hnblk]

/-- The steps from LOAD in mode ALL, with `r + 1` blocks to go, to the end of the message (R197, R198). -/
theorem sha256Steps_allBlocks {m : Memory} {msg : List Byte} (hm : m.holds msg) (r b : Nat) (e : Sha256Engine)
    (hst : e.st = .load) (hmode : e.mode = .all) (he : e.Hashing msg b) (hr : b + (r + 1) = nblocks msg.length) :
    ∃ k e', sha256Steps m k e = .ok e' ∧ e'.st = .idle ∧ e'.done = true ∧ e'.Hashing msg (nblocks msg.length) := by
  obtain ⟨e', hsteps, hnext⟩ := sha256Steps_nextBlock hm hst he (by omega)
  induction r generalizing b e e' with
  | zero =>
    have hhash := hnext.hashing
    rw [hr] at hhash
    exact ⟨114, e', hsteps, by rw [hnext.st, if_pos hr], by rw [hnext.done, if_pos hr], hhash⟩
  | succ r ih =>
    have hst' : e'.st = .load := by rw [hnext.st, if_neg (by omega), if_pos hmode]
    obtain ⟨e'', hsteps', hnext'⟩ := sha256Steps_nextBlock hm hst' hnext.hashing (by omega)
    obtain ⟨k, f, hk, hend⟩ := ih (b + 1) e' hst' (by rw [hnext.mode, hmode]) hnext.hashing (by omega) e'' hsteps' hnext'
    exact ⟨114 + k, f, (sha256Steps_add m 114 k e e' hsteps).trans hk, hend⟩

/-- What SHA256.RUN latches: the message of length LEN with no block processed (R197). -/
theorem latch2_hashing {msg : List Byte} {len : Word} (hlen : len.toNat = msg.length) (mode : RunMode) (st : Phase)
    (e : Sha256Engine) : (latch2 len mode st e).Hashing msg 0 :=
  ⟨hlen, by rw [← hlen]; exact toNat_ofNat_nblocks len, rfl, rfl⟩

theorem sha256_length (msg : List Byte) : (sha256 msg).length = 32 := by
  rw [sha256, length_flatMap_unpackBE, Vector.length_toList]

/-- Settles O46: the run ends in the engine its own steps lead to, which go through all blocks of the message. -/
theorem sha256RunGivesTheDigest : Obligations.Sha256RunGivesTheDigest := by
  unfold Obligations.Sha256RunGivesTheDigest
  intro msg s0 s t n hidle hlen hfits hm hreset hexec hrun hend
  rw [exec_sha256Run, start2_of_fits _ _ s0 hidle (by rwa [hlen])] at hexec
  obtain rfl := Host.Outcome.next.inj hexec
  obtain ⟨k, e, hsteps, hst, hdone, hhash⟩ := sha256Steps_allBlocks hm (nblocks msg.length - 1) 0
    (latch2 s0.len .all .load s0.sha256) rfl rfl (latch2_hashing hlen _ _ _) (by have := nblocks_pos msg.length; omega)
  obtain rfl : t.sha256 = e := sha256_of_busyRun2 hrun hend hreset hsteps hst
  refine ⟨hdone, BitVec.eq_of_toNat_eq (by rw [hhash.blk, hhash.nblk]), sha256_length msg, fun i => ?_⟩
  rw [readOffset_dout2_idle t i hend, hhash.h, sha256]

/-- Settles O47: the run ends in the engine that the steps on one block lead to. -/
theorem sha256BlockGivesTheRunningState : Obligations.Sha256BlockGivesTheRunningState := by
  unfold Obligations.Sha256BlockGivesTheRunningState
  intro msg b s0 s t n hidle _ hm hreset hlen hnblk hblk hb hdone hh hexec hrun hend
  rw [exec_sha256Block_of_block hidle (by rwa [hblk, hnblk])] at hexec
  obtain rfl := Host.Outcome.next.inj hexec
  obtain ⟨e, hsteps, hnext⟩ := sha256Steps_nextBlock (e := { s0.sha256 with mode := .single, st := .load }) hm rfl
    ⟨hlen, hnblk, hblk, hh⟩ hb
  have hst : e.st = .idle := by rw [hnext.st, if_neg (by decide : ¬RunMode.single = .all), ite_self]
  obtain rfl : t.sha256 = e := sha256_of_busyRun2 hrun hend hreset hsteps hst
  refine ⟨hnext.hashing.h, hnext.hashing.blk, hnext.len, hnext.nblk, ?_⟩
  rw [hnext.done, hdone]
  simp

end Sys2Proof.Machine
end

section
/-! SUPPORT. The control part of an engine, which both engines have alike: what one step of the machine can do to it, said once for
both, and what follows for BUSY, DONE and the invariant (10_state.md section 3). -/

namespace Sys2Proof.Machine

open Sys2Proof

/-! ### The control part of an engine -/

/-- What an engine holds besides its schedule, its working registers and its running state. -/
structure Control where
  st : Phase
  t : Nat
  mode : RunMode
  len : Word
  blk : Word
  nblk : Word
  done : Bool

def Sha1Engine.control (e : Sha1Engine) : Control := ⟨e.st, e.t.val, e.mode, e.len, e.blk, e.nblk, e.done⟩

def Sha256Engine.control (e : Sha256Engine) : Control := ⟨e.st, e.t.val, e.mode, e.len, e.blk, e.nblk, e.done⟩

/-- The control part after reset (R250). -/
def Control.reset : Control := ⟨.idle, 0, .single, 0, 0, 0, false⟩

/-- The control part after INIT or RUN has latched `len` (R153, R155, R195, R197). -/
def Control.latch (c : Control) (len : Word) (mode : RunMode) (st : Phase) : Control :=
  { c with len := len, nblk := BitVec.ofNat 32 (nblocks len.toNat), blk := 0, done := false, mode := mode, st := st }

/-- The control part after an ADD step (R152, R194). -/
def Control.added (c : Control) : Control :=
  { c with
    blk := c.blk + 1, done := if c.blk + 1 = c.nblk then true else c.done,
    st := if c.blk + 1 = c.nblk then .idle else if c.mode = .all then .load else .idle }

/-- What one step of an engine whose last index is `last` does to its control part (R148, R190). -/
inductive ControlStep (last : Nat) (c : Control) : Control → Prop where
  | idle : c.st = .idle → ControlStep last c c
  | load : c.st = .load → ControlStep last c { c with t := 16, st := .sched }
  | sched : c.st = .sched → c.t < last → ControlStep last c { c with t := c.t + 1 }
  | schedLast : c.st = .sched → c.t = last → ControlStep last c { c with t := 0, st := .round }
  | round : c.st = .round → c.t < last → ControlStep last c { c with t := c.t + 1 }
  | roundLast : c.st = .round → c.t = last → ControlStep last c { c with st := .add }
  | add : c.st = .add → ControlStep last c c.added

/-- The three commands each engine has. -/
inductive EngineCommand where
  | init
  | block
  | run

/-- The command of the SHA-1 engine. -/
def EngineCommand.sha1 (cmd : EngineCommand) : Instr :=
  match cmd with
  | .init => .sha1Init
  | .block => .sha1Block
  | .run => .sha1Run

/-- The command of the SHA-256 engine. -/
def EngineCommand.sha256 (cmd : EngineCommand) : Instr :=
  match cmd with
  | .init => .sha256Init
  | .block => .sha256Block
  | .run => .sha256Run

/-- What an accepted command does to the control part of its engine, when LEN holds `len` (R153 to R155, R195 to R197). -/
inductive ControlCommand (len : Word) (c : Control) : EngineCommand → Control → Prop where
  | init : c.st = .idle → len.toNat ≤ Config.maxMsgBytes → ControlCommand len c .init (c.latch len .single .idle)
  | block : c.st = .idle → c.blk < c.nblk → ControlCommand len c .block { c with mode := .single, st := .load }
  | run : c.st = .idle → len.toNat ≤ Config.maxMsgBytes → ControlCommand len c .run (c.latch len .all .load)

/-- What one step from `s` can do to the control part of the engine of agent `own` with the commands `instr`: nothing in
another agent's turn, its own step in its turn, a command that the host writes to CMD, or reset. -/
def ControlChange (last : Nat) (own : Agent) (instr : EngineCommand → Instr) (s : State) (c c' : Control) : Prop :=
  ((takeTurn s).1 ≠ own ∧ c' = c) ∨ ((takeTurn s).1 = own ∧ ControlStep last c c') ∨
  (∃ cmd, hostWrites s 0x000 (encode (instr cmd)) ∧ ControlCommand s.len c cmd c') ∨ (hostDoes s .reset ∧ c' = .reset)

/-! ### Both engines change as `ControlChange` says -/

theorem sha1Step_control {m : Memory} {e e' : Sha1Engine} (h : sha1Step m e = .ok e') :
    ControlStep 79 e.control e'.control := by
  have hlast : e.t.val ≠ 79 → e.t.val < 79 := by omega
  rcases sha1Step_cases m e e' h with ⟨hst, rfl⟩ | ⟨hst, ws, _, rfl⟩ | ⟨hst, rfl⟩ | ⟨hst, rfl⟩ | ⟨hst, rfl⟩
  · exact .idle hst
  · exact .load hst
  · rw [sha1Sched_eq]
    by_cases ht : e.t.val = 79
    · simp only [dif_pos ht, if_pos ht]; exact .schedLast hst ht
    · simp only [dif_neg ht, if_neg ht]; exact .sched hst (hlast ht)
  · rw [sha1Round_eq]
    by_cases ht : e.t.val = 79
    · simp only [dif_pos ht, if_pos ht]; exact .roundLast hst ht
    · simp only [dif_neg ht, if_neg ht]; exact .round hst (hlast ht)
  · rw [sha1Add_eq]; exact .add hst

theorem sha256Step_control {m : Memory} {e e' : Sha256Engine} (h : sha256Step m e = .ok e') :
    ControlStep 63 e.control e'.control := by
  have hlast : e.t.val ≠ 63 → e.t.val < 63 := by omega
  rcases sha256Step_cases m e e' h with ⟨hst, rfl⟩ | ⟨hst, ws, _, rfl⟩ | ⟨hst, rfl⟩ | ⟨hst, rfl⟩ | ⟨hst, rfl⟩
  · exact .idle hst
  · exact .load hst
  · rw [sha256Sched_eq]
    by_cases ht : e.t.val = 63
    · simp only [dif_pos ht, if_pos ht]; exact .schedLast hst ht
    · simp only [dif_neg ht, if_neg ht]; exact .sched hst (hlast ht)
  · rw [sha256Round_eq]
    by_cases ht : e.t.val = 63
    · simp only [dif_pos ht, if_pos ht]; exact .roundLast hst ht
    · simp only [dif_neg ht, if_neg ht]; exact .round hst (hlast ht)
  · rw [sha256Add_eq]; exact .add hst

theorem exec_sha1_cases {i : Instr} {s t : State} (h : exec i s = .next t) :
    t.sha1 = s.sha1 ∨ ∃ cmd, i = cmd.sha1 ∧ ControlCommand s.len s.sha1.control cmd t.sha1.control := by
  obtain ⟨t', ht', hc⟩ := exec_cases i s
  obtain rfl : t = t' := Host.Outcome.next.inj (h.symm.trans ht')
  rcases hc with hc | ⟨e, hc⟩ | ⟨hidle, hfits, hi, hc⟩ | ⟨hidle, hfits, hi, hc⟩ | ⟨hidle, hblk, hi, hc⟩ | ⟨_, _, _, hc⟩ |
    ⟨_, _, _, hc⟩ | ⟨_, _, _, hc⟩ <;> rw [hc]
  case inr.inr.inl => exact .inr ⟨.init, hi, .init (st_of_busy1_false hidle) hfits⟩
  case inr.inr.inr.inl => exact .inr ⟨.run, hi, .run (st_of_busy1_false hidle) hfits⟩
  case inr.inr.inr.inr.inl => exact .inr ⟨.block, hi, .block (st_of_busy1_false hidle) hblk⟩
  all_goals exact .inl rfl

theorem exec_sha256_cases {i : Instr} {s t : State} (h : exec i s = .next t) :
    t.sha256 = s.sha256 ∨ ∃ cmd, i = cmd.sha256 ∧ ControlCommand s.len s.sha256.control cmd t.sha256.control := by
  obtain ⟨t', ht', hc⟩ := exec_cases i s
  obtain rfl : t = t' := Host.Outcome.next.inj (h.symm.trans ht')
  rcases hc with hc | ⟨e, hc⟩ | ⟨_, _, _, hc⟩ | ⟨_, _, _, hc⟩ | ⟨_, _, _, hc⟩ | ⟨hidle, hfits, hi, hc⟩ |
    ⟨hidle, hfits, hi, hc⟩ | ⟨hidle, hblk, hi, hc⟩ <;> rw [hc]
  case inr.inr.inr.inr.inr.inl => exact .inr ⟨.init, hi, .init (st_of_busy2_false hidle) hfits⟩
  case inr.inr.inr.inr.inr.inr.inl => exact .inr ⟨.run, hi, .run (st_of_busy2_false hidle) hfits⟩
  case inr.inr.inr.inr.inr.inr.inr => exact .inr ⟨.block, hi, .block (st_of_busy2_false hidle) hblk⟩
  all_goals exact .inl rfl

/-- What a statement of the host can do to the two engines: nothing, a command written to CMD, or reset. -/
theorem hostTurn_engines_cases {s t : State} (h : hostTurn s = .next t) :
    (t.sha1 = s.sha1 ∧ t.sha256 = s.sha256) ∨
    (∃ i, s.prog[s.hpc]? = some (.access (.write 0#32 4 (encode i))) ∧ exec i { advance s with resp := .okay } = .next t) ∨
    (s.prog[s.hpc]? = some .reset ∧ t.sha1 = .reset ∧ t.sha256 = .reset) := by
  obtain ⟨t', ht', hc⟩ := hostTurn_cases s
  obtain rfl : t = t' := Host.Outcome.next.inj (h.symm.trans ht')
  rcases hc with hread | ⟨cw, i, hop, hdec, hexec⟩ | ⟨e, hraise⟩ | ⟨v, _, hclear⟩ | hreg | ⟨i, v, _, _, _, _, hmem⟩ | ⟨hop, hreset⟩
  · exact .inl (by rw [hread]; exact ⟨rfl, rfl⟩)
  · exact .inr (.inl ⟨i, by rw [hop, encode_of_decode_ok hdec], hexec⟩)
  · exact .inl (by rw [hraise]; exact ⟨rfl, rfl⟩)
  · exact .inl (by rw [hclear]; exact ⟨rfl, rfl⟩)
  · exact .inl (by rw [hreg]; exact ⟨rfl, rfl⟩)
  · exact .inl (by rw [hmem]; exact ⟨rfl, rfl⟩)
  · exact .inr (.inr ⟨hop, by rw [hreset]; exact ⟨rfl, rfl⟩⟩)

theorem takeTurn_len (s : State) : (takeTurn s).2.len = s.len := by
  rw [takeTurn_only_schedule]

theorem step_control1 {s t : State} (h : step s = .next t) :
    ControlChange 79 .sha1 EngineCommand.sha1 s s.sha1.control t.sha1.control := by
  have hkept : (takeTurn s).1 ≠ .sha1 → t.sha1 = (takeTurn s).2.sha1 →
      ControlChange 79 .sha1 EngineCommand.sha1 s s.sha1.control t.sha1.control := fun ha hsame =>
    .inl ⟨ha, congrArg _ (hsame.trans (takeTurn_sha1 s))⟩
  rcases step_cases s t h with ⟨ha, e, hstep, rfl⟩ | ⟨ha, e, _, rfl⟩ | ⟨ha, hturn⟩
  · exact .inr (.inl ⟨ha, sha1Step_control hstep⟩)
  · exact hkept (by rw [ha]; nofun) rfl
  · have hother : (takeTurn s).1 ≠ .sha1 := by rw [ha]; nofun
    rcases hostTurn_engines_cases hturn with ⟨hsame, _⟩ | ⟨i, hop, hexec⟩ | ⟨hop, hreset, _⟩
    · exact hkept hother hsame
    · rcases exec_sha1_cases hexec with hsame | ⟨cmd, rfl, hcmd⟩
      · exact hkept hother hsame
      · refine .inr (.inr (.inl ⟨cmd, hostDoes_of_takeTurn s _ ha hop, ?_⟩))
        rwa [← takeTurn_sha1 s, ← takeTurn_len s]
    · exact .inr (.inr (.inr ⟨hostDoes_of_takeTurn s _ ha hop, by rw [hreset]; rfl⟩))

theorem step_control2 {s t : State} (h : step s = .next t) :
    ControlChange 63 .sha256 EngineCommand.sha256 s s.sha256.control t.sha256.control := by
  have hkept : (takeTurn s).1 ≠ .sha256 → t.sha256 = (takeTurn s).2.sha256 →
      ControlChange 63 .sha256 EngineCommand.sha256 s s.sha256.control t.sha256.control := fun ha hsame =>
    .inl ⟨ha, congrArg _ (hsame.trans (takeTurn_sha256 s))⟩
  rcases step_cases s t h with ⟨ha, e, _, rfl⟩ | ⟨ha, e, hstep, rfl⟩ | ⟨ha, hturn⟩
  · exact hkept (by rw [ha]; nofun) rfl
  · exact .inr (.inl ⟨ha, sha256Step_control hstep⟩)
  · have hother : (takeTurn s).1 ≠ .sha256 := by rw [ha]; nofun
    rcases hostTurn_engines_cases hturn with ⟨_, hsame⟩ | ⟨i, hop, hexec⟩ | ⟨hop, _, hreset⟩
    · exact hkept hother hsame
    · rcases exec_sha256_cases hexec with hsame | ⟨cmd, rfl, hcmd⟩
      · exact hkept hother hsame
      · refine .inr (.inr (.inl ⟨cmd, hostDoes_of_takeTurn s _ ha hop, ?_⟩))
        rwa [← takeTurn_sha256 s, ← takeTurn_len s]
    · exact .inr (.inr (.inr ⟨hostDoes_of_takeTurn s _ ha hop, by rw [hreset]; rfl⟩))

/-! ### BUSY and DONE (R28, R29) -/

section
variable {last : Nat} {own : Agent} {instr : EngineCommand → Instr} {s : State} {c c' : Control}

/-- BUSY falls in the engine's own step at its ADD step only. -/
theorem ControlStep.st_add_of_idle (h : ControlStep last c c') (hbusy : c.st ≠ .idle) (hidle : c'.st = .idle) :
    c.st = .add := by
  cases h with
  | idle hst => exact absurd hst hbusy
  | load | schedLast | roundLast => cases hidle
  | sched => exact absurd hidle hbusy
  | round => exact absurd hidle hbusy
  | add hst => exact hst

/-- BUSY never rises in the engine's own step (R236). -/
theorem ControlStep.idle_of_idle (h : ControlStep last c c') (hidle : c.st = .idle) : c'.st = .idle := by
  cases h with
  | idle => exact hidle
  | load hst | sched hst | schedLast hst | round hst | roundLast hst | add hst => cases hst.symm.trans hidle

/-- DONE changes in the engine's own step by the ADD step of the last block only, which sets it. -/
theorem ControlStep.done_cases (h : ControlStep last c c') :
    c'.done = c.done ∨ (c'.done = true ∧ c.st = .add ∧ c'.blk = c.blk + 1 ∧ c'.blk = c'.nblk) := by
  cases h with
  | add hst =>
    by_cases hlast : c.blk + 1 = c.nblk
    · exact .inr ⟨if_pos hlast, hst, rfl, hlast⟩
    · exact .inl (if_neg hlast)
  | _ => exact .inl rfl

theorem ControlChange.busy_rises (h : ControlChange last own instr s c c') (hidle : c.st = .idle) (hbusy : c'.st ≠ .idle) :
    hostWrites s 0x000 (encode (instr .block)) ∨ hostWrites s 0x000 (encode (instr .run)) := by
  rcases h with ⟨_, rfl⟩ | ⟨_, hstep⟩ | ⟨cmd, hwrite, hcmd⟩ | ⟨_, rfl⟩
  · exact absurd hidle hbusy
  · exact absurd (hstep.idle_of_idle hidle) hbusy
  · cases hcmd with
    | init => exact absurd rfl hbusy
    | block => exact .inl hwrite
    | run => exact .inr hwrite
  · exact absurd rfl hbusy

theorem ControlChange.busy_falls (h : ControlChange last own instr s c c') (hbusy : c.st ≠ .idle) (hidle : c'.st = .idle) :
    ((takeTurn s).1 = own ∧ c.st = .add) ∨ hostDoes s .reset := by
  rcases h with ⟨_, rfl⟩ | ⟨hown, hstep⟩ | ⟨cmd, _, hcmd⟩ | ⟨hreset, _⟩
  · exact absurd hidle hbusy
  · exact .inl ⟨hown, hstep.st_add_of_idle hbusy hidle⟩
  · cases hcmd with
    | init hst | block hst | run hst => exact absurd hst hbusy
  · exact .inr hreset

theorem ControlChange.done_rises (h : ControlChange last own instr s c c') (hclear : c.done = false) (hset : c'.done = true) :
    (takeTurn s).1 = own ∧ c.st = .add ∧ c'.blk = c.blk + 1 ∧ c'.blk = c'.nblk := by
  have hkept : c'.done ≠ c.done := by rw [hclear, hset]; exact Bool.false_ne_true.symm
  rcases h with ⟨_, rfl⟩ | ⟨hown, hstep⟩ | ⟨cmd, _, hcmd⟩ | ⟨_, rfl⟩
  · exact absurd rfl hkept
  · rcases hstep.done_cases with hsame | ⟨_, hrest⟩
    · exact absurd hsame hkept
    · exact ⟨hown, hrest⟩
  · cases hcmd with
    | init | run => cases hset
    | block => exact absurd rfl hkept
  · cases hset

theorem ControlChange.done_falls (h : ControlChange last own instr s c c') (hset : c.done = true) (hclear : c'.done = false) :
    hostWrites s 0x000 (encode (instr .init)) ∨ hostWrites s 0x000 (encode (instr .run)) ∨ hostDoes s .reset := by
  have hkept : c'.done ≠ c.done := by rw [hclear, hset]; exact Bool.false_ne_true
  rcases h with ⟨_, rfl⟩ | ⟨_, hstep⟩ | ⟨cmd, hwrite, hcmd⟩ | ⟨hreset, _⟩
  · exact absurd rfl hkept
  · rcases hstep.done_cases with hsame | ⟨hdone, _⟩
    · exact absurd hsame hkept
    · exact absurd (hdone.trans hset.symm) hkept
  · cases hcmd with
    | init => exact .inl hwrite
    | run => exact .inr (.inl hwrite)
    | block => exact absurd rfl hkept
  · exact .inr (.inr hreset)

end

theorem ne_idle_of_busy1 {s : State} (h : busy1 s = true) : s.sha1.control.st ≠ .idle := (busy1_iff s).mp h

theorem ne_idle_of_busy2 {s : State} (h : busy2 s = true) : s.sha256.control.st ≠ .idle := (busy2_iff s).mp h

/-- Settles O50: both engines' control parts change as `ControlChange` says, and reset clears them. -/
theorem busyAndDoneChangeOnlyByTheirRules : Obligations.BusyAndDoneChangeOnlyByTheirRules := by
  unfold Obligations.BusyAndDoneChangeOnlyByTheirRules
  intro s t hstep
  have h1 := step_control1 hstep
  have h2 := step_control2 hstep
  refine ⟨fun hreset => ?reset, fun hi hb => h1.busy_rises (st_of_busy1_false hi) (ne_idle_of_busy1 hb),
    fun hb hi => h1.busy_falls (ne_idle_of_busy1 hb) (st_of_busy1_false hi), h1.done_rises, h1.done_falls,
    fun hi hb => h2.busy_rises (st_of_busy2_false hi) (ne_idle_of_busy2 hb),
    fun hb hi => h2.busy_falls (ne_idle_of_busy2 hb) (st_of_busy2_false hi), h2.done_rises, h2.done_falls⟩
  case reset =>
    obtain rfl := Host.Outcome.next.inj (hstep.symm.trans (step_reset s hreset))
    exact ⟨rfl, rfl, rfl, rfl⟩

/-! ### The invariant of an engine -/

/-- The invariant of either engine, which speaks of its control part only. -/
structure Control.Inv (c : Control) : Prop where
  lenFits : c.len.toNat ≤ Config.maxMsgBytes
  blkLe : c.blk ≤ c.nblk
  nblkOf : c.nblk ≠ 0 → c.nblk.toNat = nblocks c.len.toNat
  busyBlk : c.st ≠ .idle → c.blk < c.nblk
  schedIndex : c.st = .sched → 16 ≤ c.t
  doneIff : c.done = true ↔ c.blk = c.nblk ∧ c.nblk ≠ 0

theorem sha1Engine_inv_iff (e : Sha1Engine) : e.Inv ↔ e.control.Inv :=
  ⟨fun ⟨h1, h2, h3, h4, h5, h6⟩ => ⟨h1, h2, h3, h4, h5, h6⟩, fun ⟨h1, h2, h3, h4, h5, h6⟩ => ⟨h1, h2, h3, h4, h5, h6⟩⟩

theorem sha256Engine_inv_iff (e : Sha256Engine) : e.Inv ↔ e.control.Inv :=
  ⟨fun ⟨h1, h2, h3, h4, h5, h6⟩ => ⟨h1, h2, h3, h4, h5, h6⟩, fun ⟨h1, h2, h3, h4, h5, h6⟩ => ⟨h1, h2, h3, h4, h5, h6⟩⟩

theorem Control.inv_reset : Control.reset.Inv where
  lenFits := Nat.zero_le _
  blkLe := BitVec.le_refl _
  nblkOf h := absurd rfl h
  busyBlk h := absurd rfl h
  schedIndex h := by cases h
  doneIff := ⟨nofun, fun h => absurd rfl h.2⟩

/-- A latch leaves all the blocks of the message to do. -/
theorem Control.inv_latch (c : Control) {len : Word} (hfits : len.toNat ≤ Config.maxMsgBytes) (mode : RunMode) {st : Phase}
    (hst : st ≠ .sched) : (c.latch len mode st).Inv := by
  have hnblk : (BitVec.ofNat 32 (nblocks len.toNat)).toNat = nblocks len.toNat := toNat_ofNat_nblocks len
  have hlt : (0 : Word) < BitVec.ofNat 32 (nblocks len.toNat) := by
    rw [BitVec.lt_def, hnblk]; exact nblocks_pos len.toNat
  exact ⟨hfits, BitVec.le_of_lt hlt, fun _ => hnblk, fun _ => hlt, fun h => absurd h hst,
    ⟨nofun, fun h => absurd h.1 (BitVec.ne_of_lt hlt)⟩⟩

theorem Control.Inv.command {len : Word} {c c' : Control} {cmd : EngineCommand} (hc : c.Inv)
    (h : ControlCommand len c cmd c') : c'.Inv := by
  cases h with
  | init _ hfits => exact c.inv_latch hfits .single nofun
  | run _ hfits => exact c.inv_latch hfits .all nofun
  | block _ hblk => exact { hc with busyBlk := fun _ => hblk, schedIndex := nofun }

/-- DONE is clear as long as a block is left. -/
theorem Control.Inv.not_done {c : Control} (hc : c.Inv) (hblk : c.blk < c.nblk) : c.done = false :=
  Bool.eq_false_iff.mpr fun h => BitVec.ne_of_lt hblk (hc.doneIff.mp h).1

/-- The ADD step moves BLK on to NBLK at most, and sets DONE exactly there (R152, R194). -/
theorem Control.Inv.added {c : Control} (hc : c.Inv) (hst : c.st = .add) : c.added.Inv := by
  have hblk : c.blk < c.nblk := hc.busyBlk (by rw [hst]; nofun)
  have hlt : c.blk.toNat < c.nblk.toNat := BitVec.lt_def.mp hblk
  have hsucc := toNat_succ_of_lt hlt
  have hnblk : c.nblk ≠ 0 := fun h => by rw [h] at hlt; exact Nat.not_lt_zero _ hlt
  refine ⟨hc.lenFits, BitVec.le_def.mpr (hsucc ▸ hlt), hc.nblkOf, fun hbusy => ?busy, fun hsched => ?sched, ?done⟩
  case busy =>
    by_cases hlast : c.blk + 1 = c.nblk
    · exact absurd (if_pos hlast) hbusy
    · exact BitVec.lt_of_le_ne (BitVec.le_def.mpr (hsucc ▸ hlt)) hlast
  case sched =>
    simp only [Control.added] at hsched
    split at hsched
    · cases hsched
    · split at hsched <;> cases hsched
  case done =>
    simp only [Control.added, hc.not_done hblk]
    by_cases hlast : c.blk + 1 = c.nblk
    · rw [if_pos hlast]; exact ⟨fun _ => ⟨hlast, hnblk⟩, fun _ => rfl⟩
    · rw [if_neg hlast]; exact ⟨nofun, fun h => absurd h.1 hlast⟩

theorem Control.Inv.step {last : Nat} {c c' : Control} (hc : c.Inv) (h : ControlStep last c c') : c'.Inv := by
  have hbusy : c.st ≠ .idle → c.blk < c.nblk := hc.busyBlk
  cases h with
  | idle => exact hc
  | load hst => exact { hc with busyBlk := fun _ => hbusy (by rw [hst]; nofun), schedIndex := fun _ => Nat.le_refl 16 }
  | sched hst => exact { hc with schedIndex := fun h => Nat.le_succ_of_le (hc.schedIndex h) }
  | schedLast hst => exact { hc with busyBlk := fun _ => hbusy (by rw [hst]; nofun), schedIndex := nofun }
  | round hst => exact { hc with schedIndex := fun h => by cases hst.symm.trans h }
  | roundLast hst => exact { hc with busyBlk := fun _ => hbusy (by rw [hst]; nofun), schedIndex := nofun }
  | add hst => exact hc.added hst

theorem Control.Inv.change {last : Nat} {own : Agent} {instr : EngineCommand → Instr} {s : State} {c c' : Control} (hc : c.Inv)
    (h : ControlChange last own instr s c c') : c'.Inv := by
  rcases h with ⟨_, rfl⟩ | ⟨_, hstep⟩ | ⟨cmd, _, hcmd⟩ | ⟨_, rfl⟩
  · exact hc
  · exact hc.step hstep
  · exact hc.command hcmd
  · exact Control.inv_reset

/-! ### The invariant of the machine -/

/-- Every cell of the buffer is at an address of the buffer (R61). -/
def Memory.inRange (m : Memory) : Prop := ∀ c ∈ m, Config.msgBase ≤ c.1 ∧ c.1 < Config.msgBase + Config.maxMsgBytes

theorem setMsgByte_inRange {m : Memory} (h : m.inRange) {i : Nat} (hi : i < Config.maxMsgBytes) (b : Byte) :
    Memory.inRange (setMsgByte m i b) := fun c hc => by
  rcases mem_memSet m _ b c hc with rfl | hc
  · exact ⟨Nat.le_add_right _ _, Nat.add_lt_add_left hi _⟩
  · exact h c hc

/-- A step keeps the buffer's canonical form and range. -/
theorem step_keeps_mem {s t : State} (h : step s = .next t) (hwf : s.mem.wf) (hin : s.mem.inRange) :
    t.mem.wf ∧ t.mem.inRange := by
  rcases step_mem_cases s t h with hsame | ⟨i, v, hi, _, _, _, hmem⟩ | hreset
  · rw [hsame]; exact ⟨hwf, hin⟩
  · rw [hmem]; exact ⟨setMsgByte_wf _ i _ hwf, setMsgByte_inRange hin hi _⟩
  · obtain rfl := Host.Outcome.next.inj (h.symm.trans (step_reset s hreset))
    exact ⟨List.Pairwise.nil, nofun⟩

theorem step_keeps_inv {s t : State} (hs : s.Inv) (h : step s = .next t) : t.Inv := by
  obtain ⟨hwf, hin⟩ := step_keeps_mem h hs.memWf hs.memIn
  exact ⟨hwf, hin, (sha1Engine_inv_iff _).mpr (((sha1Engine_inv_iff _).mp hs.sha1).change (step_control1 h)),
    (sha256Engine_inv_iff _).mpr (((sha256Engine_inv_iff _).mp hs.sha256).change (step_control2 h))⟩

/-- Settles O56: the buffer by `step_keeps_mem`, each engine by what a step can do to its control part. -/
theorem stepKeepsTheInvariant : Obligations.StepKeepsTheInvariant := by
  unfold Obligations.StepKeepsTheInvariant
  exact fun s t => step_keeps_inv

/-- Settles O55: the buffer is empty, and both control parts are `Control.reset`. -/
theorem invariantHoldsAtReset : Obligations.InvariantHoldsAtReset := by
  unfold Obligations.InvariantHoldsAtReset
  exact ⟨List.Pairwise.nil, nofun, (sha1Engine_inv_iff _).mpr Control.inv_reset,
    (sha256Engine_inv_iff _).mpr Control.inv_reset⟩

theorem statusWord_assertReset (s : State) : statusWord (assertReset s) = 0 := by
  change statusWord State.reset = 0
  decide

/-- Settles O54: the state after the turn is `assertReset`, whose fields are those of `State.reset` and of the host. -/
theorem resetInputRestoresEveryResetValue : Obligations.ResetInputRestoresEveryResetValue := by
  unfold Obligations.ResetInputRestoresEveryResetValue
  intro s hop
  refine ⟨assertReset (advance s), hostTurn_reset hop, ?_⟩
  refine ⟨rfl, rfl, rfl, rfl, rfl, rfl, rfl, statusWord_assertReset _, rfl, fun _ => rfl, rfl, rfl, rfl, rfl, rfl, rfl, rfl,
    fun k hk => Vector.getElem_replicate hk, rfl, rfl, rfl, rfl, rfl, rfl, rfl, fun k hk => Vector.getElem_replicate hk,
    rfl, rfl, rfl, rfl, rfl⟩

end Sys2Proof.Machine
end

section
/-! SUPPORT. Every computation ends (R262, R240): each turn of a busy engine brings its last step nearer, and the schedule gives a
busy engine its next turn after finitely many others. -/

namespace Sys2Proof.Machine

open Sys2Proof

/-! ### What is left of a computation -/

/-- A bound for the steps of an engine, with last index `last`, up to the end of its block. -/
def Control.blockSteps (last : Nat) (c : Control) : Nat :=
  match c.st with
  | .idle => 0
  | .load => 4 + 2 * last
  | .sched => 3 + last + (last - c.t)
  | .round => 2 + (last - c.t)
  | .add => 1

/-- What is left of a computation: the blocks to go, and the steps to the end of the block at hand, of which a block has fewer than
1000. -/
def Control.remaining (last : Nat) (c : Control) : Nat := 1000 * (c.nblk.toNat - c.blk.toNat) + c.blockSteps last

/-- Within a block, less is left when fewer of its steps are. -/
theorem Control.remaining_lt_of_blockSteps {last : Nat} {c c' : Control} (hblk : c'.blk = c.blk) (hnblk : c'.nblk = c.nblk)
    (h : c'.blockSteps last < c.blockSteps last) : c'.remaining last < c.remaining last := by
  rw [Control.remaining, Control.remaining, hblk, hnblk]
  exact Nat.add_lt_add_left h _

/-- The ADD step leaves a block less, with at most all of its steps to go. -/
theorem Control.remaining_added {last : Nat} {c : Control} (hlast : last ≤ 79) (hblk : c.blk.toNat < c.nblk.toNat) :
    c.added.remaining last < c.remaining last := by
  have hsteps : c.added.blockSteps last ≤ 4 + 2 * last := by
    rw [Control.blockSteps]
    split <;> omega
  have hsucc : c.added.blk.toNat = c.blk.toNat + 1 := toNat_succ_of_lt hblk
  have hnblk : c.added.nblk = c.nblk := rfl
  rw [Control.remaining, Control.remaining, hsucc, hnblk]
  omega

/-- A step of a busy engine that stays busy leaves less. -/
theorem ControlStep.remaining_lt {last : Nat} {c c' : Control} (hlast : last ≤ 79) (hc : c.Inv) (h : ControlStep last c c')
    (hbusy : c.st ≠ .idle) (hbusy' : c'.st ≠ .idle) : c'.remaining last < c.remaining last := by
  cases h with
  | idle hst => exact absurd hst hbusy
  | add => exact Control.remaining_added hlast (BitVec.lt_def.mp (hc.busyBlk hbusy))
  | load hst =>
    refine Control.remaining_lt_of_blockSteps rfl rfl ?_
    simp only [Control.blockSteps, hst]; omega
  | sched hst ht | schedLast hst ht | round hst ht | roundLast hst ht =>
    refine Control.remaining_lt_of_blockSteps rfl rfl ?_
    simp only [Control.blockSteps, hst]; omega

/-- A change of a busy engine that stays busy: its own turn leaves less, any other turn leaves it alone. -/
theorem ControlChange.remaining_cases {last : Nat} {own : Agent} {instr : EngineCommand → Instr} {s : State} {c c' : Control}
    (hlast : last ≤ 79) (hc : c.Inv) (h : ControlChange last own instr s c c') (hbusy : c.st ≠ .idle) (hbusy' : c'.st ≠ .idle) :
    c'.remaining last < c.remaining last ∨ ((takeTurn s).1 ≠ own ∧ c' = c) := by
  rcases h with hsame | ⟨_, hstep⟩ | ⟨cmd, _, hcmd⟩ | ⟨_, rfl⟩
  · exact .inr hsame
  · exact .inl (hstep.remaining_lt hlast hc hbusy hbusy')
  · cases hcmd with
    | init hst | block hst | run hst => exact absurd hst hbusy
  · exact absurd rfl hbusy'

/-! ### The schedule (R70, R262; log 6) -/

/-- How many turns pass at most before the schedule's free stretches give a turn to the engine whose rounds are those congruent
to `p` modulo 2. -/
def turnsUntil (p : Nat) (s : State) : Nat :=
  s.sched.length + if s.rounds % 2 = p then 0 else (Config.freeTurns s.rounds).length + 1

/-- A turn is the engine's own or brings its next one nearer. -/
theorem turnsUntil_takeTurn {p : Nat} {own : Agent} (hp : p < 2) (hfair : ∀ n, n % 2 = p → fairAgent n = own) (s : State) :
    (takeTurn s).1 = own ∨ turnsUntil p (takeTurn s).2 < turnsUntil p s := by
  unfold takeTurn turnsUntil
  cases hs : s.sched with
  | cons a rest => exact .inr (by simp)
  | nil =>
    by_cases hround : s.rounds % 2 = p
    · exact .inl (hfair _ hround)
    · refine .inr ?_
      simp only [if_neg hround, if_pos (by omega : (s.rounds + 1) % 2 = p), List.length_nil]
      omega

/-- No command changes the schedule. -/
theorem exec_schedule {i : Instr} {s t : State} (h : exec i s = .next t) : t.sched = s.sched ∧ t.rounds = s.rounds := by
  obtain ⟨t', ht', hc⟩ := exec_cases i s
  obtain rfl : t = t' := Host.Outcome.next.inj (h.symm.trans ht')
  rcases hc with hc | ⟨e, hc⟩ | ⟨_, _, _, hc⟩ | ⟨_, _, _, hc⟩ | ⟨_, _, _, hc⟩ | ⟨_, _, _, hc⟩ | ⟨_, _, _, hc⟩ | ⟨_, _, _, hc⟩
  case inr.inl => rw [hc]; exact ⟨raiseError_sched e s, raiseError_rounds e s⟩
  all_goals rw [hc]; exact ⟨rfl, rfl⟩

/-- No statement of the host changes the schedule, reset among them (log 11). -/
theorem hostTurn_schedule {s t : State} (h : hostTurn s = .next t) : t.sched = s.sched ∧ t.rounds = s.rounds := by
  obtain ⟨t', ht', hc⟩ := hostTurn_cases s
  obtain rfl : t = t' := Host.Outcome.next.inj (h.symm.trans ht')
  rcases hc with hread | ⟨cw, i, _, _, hexec⟩ | ⟨e, hraise⟩ | ⟨v, _, hclear⟩ | hreg | ⟨i, v, _, _, _, _, hmem⟩ | ⟨_, hreset⟩
  · rw [hread]; exact ⟨rfl, rfl⟩
  · exact exec_schedule (s := { advance s with resp := .okay }) hexec
  · rw [hraise]; exact ⟨rfl, rfl⟩
  · rw [hclear]; exact ⟨rfl, rfl⟩
  · rw [hreg]; exact ⟨rfl, rfl⟩
  · rw [hmem]; exact ⟨rfl, rfl⟩
  · rw [hreset]; exact ⟨rfl, rfl⟩

/-- A step moves the schedule as `takeTurn` does. -/
theorem step_turnsUntil (p : Nat) {s t : State} (h : step s = .next t) : turnsUntil p t = turnsUntil p (takeTurn s).2 := by
  have hsched : t.sched = (takeTurn s).2.sched ∧ t.rounds = (takeTurn s).2.rounds := by
    rcases step_cases s t h with ⟨_, e, _, rfl⟩ | ⟨_, e, _, rfl⟩ | ⟨_, hturn⟩
    · exact ⟨rfl, rfl⟩
    · exact ⟨rfl, rfl⟩
    · exact hostTurn_schedule hturn
  rw [turnsUntil, turnsUntil, hsched.1, hsched.2]

/-! ### The end -/

/-- What is left before an engine with control part `c` is idle: of the computation, then of the wait for its next turn. -/
def distanceToIdle (last p : Nat) (c : Control) (s : State) : ℕ ×ₗ ℕ := toLex (c.remaining last, turnsUntil p s)

theorem distanceToIdle_lt {last p : Nat} {own : Agent} {instr : EngineCommand → Instr} {s t : State} {c c' : Control}
    (hlast : last ≤ 79) (hp : p < 2) (hfair : ∀ n, n % 2 = p → fairAgent n = own) (hc : c.Inv) (hstep : step s = .next t)
    (h : ControlChange last own instr s c c') (hbusy : c.st ≠ .idle) (hbusy' : c'.st ≠ .idle) :
    distanceToIdle last p c' t < distanceToIdle last p c s := by
  rw [distanceToIdle, distanceToIdle, Prod.Lex.toLex_lt_toLex]
  rcases h.remaining_cases hlast hc hbusy hbusy' with hless | ⟨hother, rfl⟩
  · exact .inl hless
  · refine .inr ⟨rfl, ?_⟩
    rw [step_turnsUntil p hstep]
    exact (turnsUntil_takeTurn hp hfair s).resolve_left hother

/-- A run from a state with the invariant reaches a state that is not busy, or a fault, when each step from a busy state to a busy
one brings it nearer. -/
theorem idle_or_fault {busy : State → Bool} {dist : State → ℕ ×ₗ ℕ}
    (hdist : ∀ s t, s.Inv → step s = .next t → busy s = true → busy t = true → dist t < dist s) (s : State) (hs : s.Inv) :
    ∃ n, (∃ t, core.run n s = .next t ∧ busy t = false) ∨ ∃ f, core.run n s = .fault f := by
  induction hd : dist s using WellFoundedLT.induction generalizing s with
  | ind d ih =>
    cases hb : busy s with
    | false => exact ⟨0, .inl ⟨s, rfl, hb⟩⟩
    | true =>
      cases hstep : step s with
      | refused r => exact absurd hstep (step_not_refused s r)
      | fault f => exact ⟨1, .inr ⟨f, core_run_succ_fault 0 s f hstep⟩⟩
      | next t =>
        cases hb' : busy t with
        | false => exact ⟨1, .inl ⟨t, core_run_succ 0 s t hstep, hb'⟩⟩
        | true =>
          obtain ⟨n, hn⟩ := ih (dist t) (hd ▸ hdist s t hs hstep hb hb') t (step_keeps_inv hs hstep) rfl
          exact ⟨n + 1, by rwa [core_run_succ n s t hstep]⟩

/-- Settles O58: for each engine the distance to idle falls in every step while it is busy. -/
theorem everyComputationEnds : Obligations.EveryComputationEnds := by
  unfold Obligations.EveryComputationEnds
  refine fun s hs => ⟨idle_or_fault (dist := fun s => distanceToIdle 79 0 s.sha1.control s) (fun s t hs hstep hb hb' => ?sha1) s hs,
    idle_or_fault (dist := fun s => distanceToIdle 63 1 s.sha256.control s) (fun s t hs hstep hb hb' => ?sha256) s hs⟩
  case sha1 =>
    exact distanceToIdle_lt (Nat.le_refl 79) (by decide) (fun n hn => if_pos hn) ((sha1Engine_inv_iff _).mp hs.sha1) hstep
      (step_control1 hstep) (ne_idle_of_busy1 hb) (ne_idle_of_busy1 hb')
  case sha256 =>
    exact distanceToIdle_lt (by decide) (by decide) (fun n hn => if_neg (by rw [hn]; decide))
      ((sha256Engine_inv_iff _).mp hs.sha256) hstep (step_control2 hstep) (ne_idle_of_busy2 hb) (ne_idle_of_busy2 hb')

end Sys2Proof.Machine
end

section
/-! SUPPORT. The registers whose reset value is left open (R40, R41, R250; log 2): W and the working registers are read by their own
engine only, and only what its LOAD step, or a step after it, has written. -/

namespace Sys2Proof.Machine

open Sys2Proof

/-! ### The host does not see W and the working registers -/

/-- The outcome with its state, if it answers one, changed by `f`. -/
def mapNext (f : State → State) (o : Host.Outcome State Fault Refusal) : Host.Outcome State Fault Refusal :=
  match o with
  | .next s => .next (f s)
  | .fault r => .fault r
  | .refused r => .refused r

section
variable (w1 : Vector Word 80) (r1 : Work1) (w2 : Vector Word 64) (r2 : Work2)

theorem resultWord_withScratch (b : Bool) (v : Word) (s : State) :
    resultWord b v (s.withScratch w1 r1 w2 r2) = ((resultWord b v s).1, (resultWord b v s).2.withScratch w1 r1 w2 r2) := by
  cases b <;> rfl

theorem resultByte_withScratch (b : Bool) (x : Byte) (s : State) :
    resultByte b x (s.withScratch w1 r1 w2 r2) = ((resultByte b x s).1, (resultByte b x s).2.withScratch w1 r1 w2 r2) := by
  cases b <;> rfl

theorem readReg_withScratch (r : Reg) (s : State) :
    readReg r (s.withScratch w1 r1 w2 r2) = ((readReg r s).1, (readReg r s).2.withScratch w1 r1 w2 r2) := by
  cases r with
  | h1 | h2 | blk1 | blk2 => exact resultWord_withScratch w1 r1 w2 r2 _ _ s
  | dout1 | dout2 => exact resultByte_withScratch w1 r1 w2 r2 _ _ s
  | _ => rfl

theorem readOffset_withScratch (off : Nat) (s : State) :
    readOffset off (s.withScratch w1 r1 w2 r2) = ((readOffset off s).1, (readOffset off s).2.withScratch w1 r1 w2 r2) := by
  rw [readOffset, readOffset]
  cases regAt off with
  | none => rfl
  | some r => exact readReg_withScratch w1 r1 w2 r2 r s

theorem readMsg_withScratch (i : Nat) (s : State) :
    readMsg i (s.withScratch w1 r1 w2 r2) = ((readMsg i s).1, (readMsg i s).2.withScratch w1 r1 w2 r2) := by
  have hmem : (s.withScratch w1 r1 w2 r2).mem = s.mem := rfl
  rw [readMsg, readMsg, hmem]
  cases msgByte s.mem i <;> rfl

theorem writeMsg_withScratch (i : Nat) (b : Byte) (s : State) :
    writeMsg i b (s.withScratch w1 r1 w2 r2) = (writeMsg i b s).withScratch w1 r1 w2 r2 :=
  (apply_ite (State.withScratch · w1 r1 w2 r2) ((busy1 s || busy2 s) = true) (raiseError .busy s)
    { s with mem := setMsgByte s.mem i b }).symm

theorem start1_withScratch (mode : RunMode) (st : Phase) (s : State) :
    start1 mode st (s.withScratch w1 r1 w2 r2) = (start1 mode st s).withScratch w1 r1 w2 r2 := by
  rcases start1_cases mode st s with ⟨hbusy, h⟩ | ⟨hidle, hlen, h⟩ | ⟨hidle, hfits, h⟩ <;> rw [h]
  · exact start1_of_busy mode st _ hbusy
  · exact start1_of_tooLong mode st _ hidle hlen
  · exact start1_of_fits mode st _ hidle hfits

theorem start2_withScratch (mode : RunMode) (st : Phase) (s : State) :
    start2 mode st (s.withScratch w1 r1 w2 r2) = (start2 mode st s).withScratch w1 r1 w2 r2 := by
  rcases start2_cases mode st s with ⟨hbusy, h⟩ | ⟨hidle, hlen, h⟩ | ⟨hidle, hfits, h⟩ <;> rw [h]
  · exact start2_of_busy mode st _ hbusy
  · exact start2_of_tooLong mode st _ hidle hlen
  · exact start2_of_fits mode st _ hidle hfits

theorem sha1Block_withScratch (s : State) :
    exec .sha1Block (s.withScratch w1 r1 w2 r2) = mapNext (·.withScratch w1 r1 w2 r2) (exec .sha1Block s) := by
  cases hb : busy1 s with
  | true => rw [exec_sha1Block_of_busy hb]; exact exec_sha1Block_of_busy hb
  | false =>
    by_cases hblk : s.sha1.nblk.toNat ≤ s.sha1.blk.toNat
    · rw [exec_sha1Block_of_noBlock hb hblk]; exact exec_sha1Block_of_noBlock hb hblk
    · rw [exec_sha1Block_of_block hb (Nat.not_le.mp hblk)]; exact exec_sha1Block_of_block hb (Nat.not_le.mp hblk)

theorem sha256Block_withScratch (s : State) :
    exec .sha256Block (s.withScratch w1 r1 w2 r2) = mapNext (·.withScratch w1 r1 w2 r2) (exec .sha256Block s) := by
  cases hb : busy2 s with
  | true => rw [exec_sha256Block_of_busy hb]; exact exec_sha256Block_of_busy hb
  | false =>
    by_cases hblk : s.sha256.nblk.toNat ≤ s.sha256.blk.toNat
    · rw [exec_sha256Block_of_noBlock hb hblk]; exact exec_sha256Block_of_noBlock hb hblk
    · rw [exec_sha256Block_of_block hb (Nat.not_le.mp hblk)]; exact exec_sha256Block_of_block hb (Nat.not_le.mp hblk)

theorem exec_withScratch (i : Instr) (s : State) :
    exec i (s.withScratch w1 r1 w2 r2) = mapNext (·.withScratch w1 r1 w2 r2) (exec i s) := by
  cases i with
  | rotl | rotr | packbe | unpackbe => rfl
  | sha1Init => exact congrArg _ (start1_withScratch w1 r1 w2 r2 .single .idle s)
  | sha1Run => exact congrArg _ (start1_withScratch w1 r1 w2 r2 .all .load s)
  | sha1Block => exact sha1Block_withScratch w1 r1 w2 r2 s
  | sha256Init => exact congrArg _ (start2_withScratch w1 r1 w2 r2 .single .idle s)
  | sha256Run => exact congrArg _ (start2_withScratch w1 r1 w2 r2 .all .load s)
  | sha256Block => exact sha256Block_withScratch w1 r1 w2 r2 s

theorem writeReg_withScratch (r : Reg) (v : Word) (s : State) :
    writeReg r v (s.withScratch w1 r1 w2 r2) = mapNext (·.withScratch w1 r1 w2 r2) (writeReg r v s) := by
  cases r with
  | cmd =>
    rw [writeReg, writeReg, writeCmd, writeCmd]
    cases decode v with
    | ok i => exact exec_withScratch w1 r1 w2 r2 i s
    | error e => rfl
  | ub k =>
    match k with
    | 0 | 1 | 2 | 3 => rfl
  | _ => rfl

theorem writeOffset_withScratch (off : Nat) (v : Word) (s : State) :
    writeOffset off v (s.withScratch w1 r1 w2 r2) = mapNext (·.withScratch w1 r1 w2 r2) (writeOffset off v s) := by
  rw [writeOffset, writeOffset]
  cases regAt off with
  | none => rfl
  | some r => exact writeReg_withScratch w1 r1 w2 r2 r v s

theorem busAccess_withScratch (a : Access) (s : State) :
    busAccess a (s.withScratch w1 r1 w2 r2) = mapNext (·.withScratch w1 r1 w2 r2) (busAccess a s) := by
  cases a with
  | read addr width =>
    rw [busAccess, busAccess, readOffset_withScratch, readMsg_withScratch]
    split
    · rfl
    · split <;> rfl
  | write addr width v =>
    rw [busAccess, busAccess]
    split
    · exact writeOffset_withScratch w1 r1 w2 r2 _ v { s with resp := .okay }
    · split
      · exact congrArg _ (writeMsg_withScratch w1 r1 w2 r2 _ _ { s with resp := .okay })
      · rfl

theorem branchNonzero_withScratch (target : Nat) (reg : Reg) (mask : Word) (s : State) :
    branchNonzero target reg mask (s.withScratch w1 r1 w2 r2) = (branchNonzero target reg mask s).withScratch w1 r1 w2 r2 := by
  have hread := readReg_withScratch w1 r1 w2 r2 reg s
  by_cases hset : (readReg reg s).1 &&& mask ≠ 0
  · rw [branchNonzero_of_set hset, branchNonzero_of_set (by rwa [hread]), hread]; rfl
  · rw [branchNonzero_of_clear hset, branchNonzero_of_clear (by rwa [hread]), hread]; rfl

/-- A statement of the host other than reset does the same whatever W and the working registers hold, and leaves them. -/
theorem hostTurn_withScratch (s : State) (hreset : s.prog[s.hpc]? ≠ some .reset) :
    hostTurn (s.withScratch w1 r1 w2 r2) = mapNext (·.withScratch w1 r1 w2 r2) (hostTurn s) := by
  have hop : (s.withScratch w1 r1 w2 r2).prog[(s.withScratch w1 r1 w2 r2).hpc]? = s.prog[s.hpc]? := rfl
  rw [hostTurn, hostTurn, hop]
  cases hs : s.prog[s.hpc]? with
  | none => rfl
  | some op =>
    cases op with
    | access a => exact busAccess_withScratch w1 r1 w2 r2 a (advance s)
    | bnz target reg mask => exact congrArg _ (branchNonzero_withScratch w1 r1 w2 r2 target reg mask s)
    | reset => exact absurd hs hreset

theorem takeTurn_withScratch (s : State) :
    takeTurn (s.withScratch w1 r1 w2 r2) = ((takeTurn s).1, (takeTurn s).2.withScratch w1 r1 w2 r2) := by
  have hsched : (s.withScratch w1 r1 w2 r2).sched = s.sched := rfl
  rw [takeTurn, takeTurn, hsched]
  cases s.sched <;> rfl

end

/-! ### What an engine still reads of W and of its working registers -/

/-- The schedules `w` and `w'` and the working registers `r` and `r'` agree in what an engine in phase `st` at index `t` still
reads of them: nothing before a LOAD step; the words below `t` and the working registers in SCHED; all of both in ROUND; the
working registers in ADD. -/
structure ScratchAgrees {n : Nat} {W : Type} (st : Phase) (t : Nat) (w w' : Vector Word n) (r r' : W) : Prop where
  sched : st = .sched → 16 ≤ t ∧ (∀ (j : Nat) (hj : j < n), j < t → w'[j] = w[j]) ∧ r' = r
  round : st = .round → w' = w ∧ r' = r
  add : st = .add → r' = r

theorem ScratchAgrees.of_rest {n : Nat} {W : Type} {st : Phase} (h : st = .idle ∨ st = .load) (t : Nat) (w w' : Vector Word n)
    (r r' : W) : ScratchAgrees st t w w' r r' := by
  rcases h with rfl | rfl <;> exact ⟨nofun, nofun, nofun⟩

theorem ScratchAgrees.of_loaded {n : Nat} {W : Type} {w w' : Vector Word n} (r : W)
    (h : ∀ (j : Nat) (hj : j < n), j < 16 → w'[j] = w[j]) : ScratchAgrees .sched 16 w w' r r :=
  ⟨fun _ => ⟨Nat.le_refl 16, h, rfl⟩, nofun, nofun⟩

/-- A SCHED step before the last one. -/
theorem ScratchAgrees.of_sched {n : Nat} {W : Type} {t : Nat} {w w' : Vector Word n} {r : W} (ht : t < n) (h16 : 16 ≤ t)
    (h : ∀ (j : Nat) (hj : j < n), j < t → w'[j] = w[j]) (x : Word) :
    ScratchAgrees .sched (t + 1) (w.set t x) (w'.set t x) r r := by
  refine ⟨fun _ => ⟨by omega, fun j hj hlt => ?_, rfl⟩, nofun, nofun⟩
  rw [Vector.getElem_set, Vector.getElem_set]
  by_cases hjt : t = j
  · rw [if_pos hjt, if_pos hjt]
  · rw [if_neg hjt, if_neg hjt]
    exact h j hj (by omega)

/-- The last SCHED step fills the schedule. -/
theorem set_last_eq {n t : Nat} {w w' : Vector Word n} (ht : t < n) (hlast : t + 1 = n)
    (h : ∀ (j : Nat) (hj : j < n), j < t → w'[j] = w[j]) (x : Word) : w'.set t x = w.set t x := by
  refine Vector.ext fun j hj => ?_
  rw [Vector.getElem_set, Vector.getElem_set]
  by_cases hjt : t = j
  · rw [if_pos hjt, if_pos hjt]
  · rw [if_neg hjt, if_neg hjt]
    exact h j hj (by omega)

theorem ScratchAgrees.refl_of_ne_sched {n : Nat} {W : Type} {st : Phase} (h : st ≠ .sched) (t : Nat) (w : Vector Word n) (r : W) :
    ScratchAgrees st t w w r r :=
  ⟨fun hst => absurd hst h, fun _ => ⟨rfl, rfl⟩, fun _ => rfl⟩

theorem padWords_length {m : Memory} {len : Word} {j n : Nat} {ws : List Word} (h : padWords m len j n = .ok ws) :
    ws.length = n := by
  induction n generalizing j ws with
  | zero => rw [← Except.ok.inj h]; rfl
  | succ n ih =>
    rw [padWords] at h
    cases hw : padWord m len j with
    | error f => rw [hw] at h; cases h
    | ok x =>
      cases hrest : padWords m len (j + 1) n with
      | error f => rw [hw, hrest] at h; cases h
      | ok xs =>
        rw [hw, hrest] at h
        rw [← Except.ok.inj h, List.length_cons, ih hrest]

/-- Two schedules after the same block has been stored agree in its words. -/
theorem storeWords_agree {n : Nat} {m : Memory} {len : Word} {b : Nat} {ws : List Word} (h : blockWords m len b = .ok ws)
    (w w' : Vector Word n) (j : Nat) (hj : j < n) (hlt : j < 16) : (storeWords 0 ws w')[j] = (storeWords 0 ws w)[j] := by
  have hlen : ws.length = 16 := padWords_length h
  rw [storeWords_block hlen w' j hj hlt, storeWords_block hlen w j hj hlt]

/-! ### The steps of the SHA-1 engine -/

/-- The engine with other contents of W1 and of its working registers. -/
def Sha1Engine.withScratch (e : Sha1Engine) (w : Vector Word 80) (r : Work1) : Sha1Engine := { e with w := w, work := r }

/-- What the SHA-1 engine still reads of W1 and of its working registers is the same when these hold `w` and `r`. -/
def Sha1Engine.ScratchAgrees (e : Sha1Engine) (w : Vector Word 80) (r : Work1) : Prop :=
  Machine.ScratchAgrees e.st e.t.val e.w w e.work r

/-- A SCHED step reads words below its index only. -/
theorem sha1Sched_withScratch {e : Sha1Engine} {w : Vector Word 80} (h16 : 16 ≤ e.t.val)
    (hw : ∀ (j : Nat) (hj : j < 80), j < e.t.val → w[j] = e.w[j]) :
    sha1Sched (e.withScratch w e.work) = (sha1Sched e).withScratch
      (w.set e.t (sched1 (e.wBack 3) (e.wBack 8) (e.wBack 14) (e.wBack 16))) e.work := by
  have hback : ∀ k, 1 ≤ k → (e.withScratch w e.work).wBack k = e.wBack k := fun k hk =>
    hw (e.t.val - k) (by omega) (by omega)
  rw [sha1Sched_eq, sha1Sched_eq, hback 3 (by decide), hback 8 (by decide), hback 14 (by decide), hback 16 (by decide)]
  rfl

/-- After a SCHED step on both, the engine still reads the same. -/
theorem sha1Sched_scratchAgrees {e : Sha1Engine} {w : Vector Word 80} (hst : e.st = .sched) (h16 : 16 ≤ e.t.val)
    (hw : ∀ (j : Nat) (hj : j < 80), j < e.t.val → w[j] = e.w[j]) :
    (sha1Sched e).ScratchAgrees (w.set e.t (sched1 (e.wBack 3) (e.wBack 8) (e.wBack 14) (e.wBack 16))) e.work := by
  rw [sha1Sched_eq, Sha1Engine.ScratchAgrees]
  by_cases ht : e.t.val = 79
  · simp only [dif_pos ht, if_pos ht]
    rw [set_last_eq e.t.isLt (by omega) hw]
    exact .refl_of_ne_sched (st := .round) nofun _ _ _
  · simp only [dif_neg ht, if_neg ht, hst]
    exact .of_sched e.t.isLt h16 hw _

theorem sha1Round_st_ne_sched {e : Sha1Engine} (hst : e.st = .round) : (sha1Round e).st ≠ .sched := by
  rw [sha1Round_eq, hst]
  dsimp only
  split <;> nofun

theorem sha1Add_rests (e : Sha1Engine) : (sha1Add e).st = .idle ∨ (sha1Add e).st = .load := by
  rw [sha1Add_eq]
  dsimp only
  split
  · exact .inl rfl
  · split
    · exact .inr rfl
    · exact .inl rfl

/-- A step of the engine with other contents of what it does not read answers the same up to such contents. -/
theorem sha1Step_scratch {m : Memory} {e f : Sha1Engine} {w : Vector Word 80} {r : Work1} (hagree : e.ScratchAgrees w r)
    (h : sha1Step m e = .ok f) :
    ∃ w' r', sha1Step m (e.withScratch w r) = .ok (f.withScratch w' r') ∧ f.ScratchAgrees w' r' := by
  have hphase : (e.withScratch w r).st = e.st := rfl
  rcases sha1Step_cases m e f h with ⟨hst, rfl⟩ | ⟨hst, ws, hws, rfl⟩ | ⟨hst, rfl⟩ | ⟨hst, rfl⟩ | ⟨hst, rfl⟩
  · exact ⟨w, r, by rw [sha1Step, hphase, hst], hagree⟩
  · exact ⟨storeWords 0 ws w, workOf1 e.h, (sha1Step_load (e := e.withScratch w r) hst).trans (sha1Load_of_words m _ ws hws),
      .of_loaded _ (storeWords_agree hws e.w w)⟩
  · obtain ⟨h16, hw, rfl⟩ := hagree.sched hst
    exact ⟨_, e.work, by rw [sha1Step, hphase, hst, sha1Sched_withScratch h16 hw], sha1Sched_scratchAgrees hst h16 hw⟩
  · obtain ⟨rfl, rfl⟩ := hagree.round hst
    exact ⟨(sha1Round e).w, (sha1Round e).work, h, .refl_of_ne_sched (sha1Round_st_ne_sched hst) _ _ _⟩
  · obtain rfl := hagree.add hst
    exact ⟨w, e.work, by rw [sha1Step, hphase, hst, sha1Add_eq, sha1Add_eq]; rfl, .of_rest (sha1Add_rests e) _ _ _ _ _⟩

/-! ### The steps of the SHA-256 engine -/

/-- The engine with other contents of W2 and of its working registers. -/
def Sha256Engine.withScratch (e : Sha256Engine) (w : Vector Word 64) (r : Work2) : Sha256Engine := { e with w := w, work := r }

/-- What the SHA-256 engine still reads of W2 and of its working registers is the same when these hold `w` and `r`. -/
def Sha256Engine.ScratchAgrees (e : Sha256Engine) (w : Vector Word 64) (r : Work2) : Prop :=
  Machine.ScratchAgrees e.st e.t.val e.w w e.work r

/-- A SCHED step reads words below its index only. -/
theorem sha256Sched_withScratch {e : Sha256Engine} {w : Vector Word 64} (h16 : 16 ≤ e.t.val)
    (hw : ∀ (j : Nat) (hj : j < 64), j < e.t.val → w[j] = e.w[j]) :
    sha256Sched (e.withScratch w e.work) = (sha256Sched e).withScratch
      (w.set e.t (sched2 (e.wBack 2) (e.wBack 7) (e.wBack 15) (e.wBack 16))) e.work := by
  have hback : ∀ k, 1 ≤ k → (e.withScratch w e.work).wBack k = e.wBack k := fun k hk =>
    hw (e.t.val - k) (by omega) (by omega)
  rw [sha256Sched_eq, sha256Sched_eq, hback 2 (by decide), hback 7 (by decide), hback 15 (by decide), hback 16 (by decide)]
  rfl

/-- After a SCHED step on both, the engine still reads the same. -/
theorem sha256Sched_scratchAgrees {e : Sha256Engine} {w : Vector Word 64} (hst : e.st = .sched) (h16 : 16 ≤ e.t.val)
    (hw : ∀ (j : Nat) (hj : j < 64), j < e.t.val → w[j] = e.w[j]) :
    (sha256Sched e).ScratchAgrees (w.set e.t (sched2 (e.wBack 2) (e.wBack 7) (e.wBack 15) (e.wBack 16))) e.work := by
  rw [sha256Sched_eq, Sha256Engine.ScratchAgrees]
  by_cases ht : e.t.val = 63
  · simp only [dif_pos ht, if_pos ht]
    rw [set_last_eq e.t.isLt (by omega) hw]
    exact .refl_of_ne_sched (st := .round) nofun _ _ _
  · simp only [dif_neg ht, if_neg ht, hst]
    exact .of_sched e.t.isLt h16 hw _

theorem sha256Round_st_ne_sched {e : Sha256Engine} (hst : e.st = .round) : (sha256Round e).st ≠ .sched := by
  rw [sha256Round_eq, hst]
  dsimp only
  split <;> nofun

theorem sha256Add_rests (e : Sha256Engine) : (sha256Add e).st = .idle ∨ (sha256Add e).st = .load := by
  rw [sha256Add_eq]
  dsimp only
  split
  · exact .inl rfl
  · split
    · exact .inr rfl
    · exact .inl rfl

/-- A step of the engine with other contents of what it does not read answers the same up to such contents. -/
theorem sha256Step_scratch {m : Memory} {e f : Sha256Engine} {w : Vector Word 64} {r : Work2} (hagree : e.ScratchAgrees w r)
    (h : sha256Step m e = .ok f) :
    ∃ w' r', sha256Step m (e.withScratch w r) = .ok (f.withScratch w' r') ∧ f.ScratchAgrees w' r' := by
  have hphase : (e.withScratch w r).st = e.st := rfl
  rcases sha256Step_cases m e f h with ⟨hst, rfl⟩ | ⟨hst, ws, hws, rfl⟩ | ⟨hst, rfl⟩ | ⟨hst, rfl⟩ | ⟨hst, rfl⟩
  · exact ⟨w, r, by rw [sha256Step, hphase, hst], hagree⟩
  · exact ⟨storeWords 0 ws w, workOf2 e.h, (sha256Step_load (e := e.withScratch w r) hst).trans (sha256Load_of_words m _ ws hws),
      .of_loaded _ (storeWords_agree hws e.w w)⟩
  · obtain ⟨h16, hw, rfl⟩ := hagree.sched hst
    exact ⟨_, e.work, by rw [sha256Step, hphase, hst, sha256Sched_withScratch h16 hw], sha256Sched_scratchAgrees hst h16 hw⟩
  · obtain ⟨rfl, rfl⟩ := hagree.round hst
    exact ⟨(sha256Round e).w, (sha256Round e).work, h, .refl_of_ne_sched (sha256Round_st_ne_sched hst) _ _ _⟩
  · obtain rfl := hagree.add hst
    exact ⟨w, e.work, by rw [sha256Step, hphase, hst, sha256Add_eq, sha256Add_eq]; rfl, .of_rest (sha256Add_rests e) _ _ _ _ _⟩

/-! ### The steps of the machine -/

/-- The states differ at most in W and the working registers, and there in nothing that an engine still reads. -/
def State.ScratchAgrees (s s' : State) : Prop :=
  ∃ w1 r1 w2 r2, s' = s.withScratch w1 r1 w2 r2 ∧ s.sha1.ScratchAgrees w1 r1 ∧ s.sha256.ScratchAgrees w2 r2

/-- After a statement of the host an engine is as it was, or in a phase that reads nothing of W and the working registers. -/
theorem hostTurn_engines_same_or_rest {s t : State} (h : hostTurn s = .next t) :
    (t.sha1 = s.sha1 ∨ t.sha1.st = .idle ∨ t.sha1.st = .load) ∧
      (t.sha256 = s.sha256 ∨ t.sha256.st = .idle ∨ t.sha256.st = .load) := by
  have hrest : ∀ {len : Word} {c c' : Control} {cmd : EngineCommand}, ControlCommand len c cmd c' →
      c'.st = .idle ∨ c'.st = .load := fun hcmd => by
    cases hcmd with
    | init => exact .inl rfl
    | block | run => exact .inr rfl
  rcases hostTurn_engines_cases h with ⟨h1, h2⟩ | ⟨i, _, hexec⟩ | ⟨_, h1, h2⟩
  · exact ⟨.inl h1, .inl h2⟩
  · exact ⟨(exec_sha1_cases hexec).imp_right fun ⟨_, _, hcmd⟩ => hrest hcmd,
      (exec_sha256_cases hexec).imp_right fun ⟨_, _, hcmd⟩ => hrest hcmd⟩
  · exact ⟨.inr (.inl (by rw [h1]; rfl)), .inr (.inl (by rw [h2]; rfl))⟩

/-- Agreement is kept by a statement of the host. -/
theorem hostTurn_scratch {s t : State} {w1 : Vector Word 80} {r1 : Work1} {w2 : Vector Word 64} {r2 : Work2}
    (h1 : s.sha1.ScratchAgrees w1 r1) (h2 : s.sha256.ScratchAgrees w2 r2) (h : hostTurn s = .next t) :
    ∃ t', hostTurn (s.withScratch w1 r1 w2 r2) = .next t' ∧ t.ScratchAgrees t' := by
  by_cases hreset : s.prog[s.hpc]? = some .reset
  · obtain rfl := Host.Outcome.next.inj (h.symm.trans (hostTurn_reset hreset))
    exact ⟨assertReset (advance s), hostTurn_reset hreset, _, _, _, _, rfl, .of_rest (.inl rfl) _ _ _ _ _,
      .of_rest (.inl rfl) _ _ _ _ _⟩
  · obtain ⟨hsha1, hsha256⟩ := hostTurn_engines_same_or_rest h
    refine ⟨t.withScratch w1 r1 w2 r2, by rw [hostTurn_withScratch _ _ _ _ s hreset, h, mapNext], w1, r1, w2, r2, rfl, ?_, ?_⟩
    · rcases hsha1 with hsame | hrest
      · rwa [hsame]
      · exact .of_rest hrest _ _ _ _ _
    · rcases hsha256 with hsame | hrest
      · rwa [hsame]
      · exact .of_rest hrest _ _ _ _ _

/-- Agreement is kept by a step. -/
theorem step_scratch {s s' t : State} (hs : s.ScratchAgrees s') (h : step s = .next t) :
    ∃ t', step s' = .next t' ∧ t.ScratchAgrees t' := by
  obtain ⟨w1, r1, w2, r2, rfl, h1, h2⟩ := hs
  have h1' : (takeTurn s).2.sha1.ScratchAgrees w1 r1 := by rwa [takeTurn_sha1]
  have h2' : (takeTurn s).2.sha256.ScratchAgrees w2 r2 := by rwa [takeTurn_sha256]
  rw [step, takeTurn_withScratch]
  rcases step_cases s t h with ⟨ha, e, hstep, rfl⟩ | ⟨ha, e, hstep, rfl⟩ | ⟨ha, hturn⟩
  · rw [← takeTurn_mem, ← takeTurn_sha1] at hstep
    obtain ⟨w, r, hstep', hagree⟩ := sha1Step_scratch h1' hstep
    rw [ha]
    exact ⟨_, sha1Turn_of_step _ _ hstep', w, r, w2, r2, rfl, hagree, h2'⟩
  · rw [← takeTurn_mem, ← takeTurn_sha256] at hstep
    obtain ⟨w, r, hstep', hagree⟩ := sha256Step_scratch h2' hstep
    rw [ha]
    exact ⟨_, sha256Turn_of_step _ _ hstep', w1, r1, w, r, rfl, h1', hagree⟩
  · rw [ha]
    exact hostTurn_scratch h1' h2' hturn

/-- The faults of a step do not depend on W and the working registers. -/
theorem step_fault_withScratch (s : State) (w1 : Vector Word 80) (r1 : Work1) (w2 : Vector Word 64) (r2 : Work2) (f : Fault) :
    step (s.withScratch w1 r1 w2 r2) = .fault f ↔ step s = .fault f := by
  rw [step_fault_iff, step_fault_iff, takeTurn_withScratch, sha1Step_error_iff, sha1Step_error_iff, sha256Step_error_iff,
    sha256Step_error_iff]
  exact Iff.rfl

/-! ### Runs -/

theorem run_scratch (n : Nat) {s s' t : State} (hs : s.ScratchAgrees s') (h : core.run n s = .next t) :
    ∃ t', core.run n s' = .next t' ∧ t.ScratchAgrees t' := by
  induction n generalizing s s' with
  | zero => rw [← Host.Outcome.next.inj h]; exact ⟨s', rfl, hs⟩
  | succ n ih =>
    obtain ⟨u, hstep, hrun⟩ := core_run_succ_next n s t h
    obtain ⟨u', hstep', hu⟩ := step_scratch hs hstep
    rw [core_run_succ n s' u' hstep']
    exact ih hu hrun

theorem run_fault_scratch (n : Nat) {s s' : State} {f : Fault} (hs : s.ScratchAgrees s') (h : core.run n s = .fault f) :
    core.run n s' = .fault f := by
  induction n generalizing s s' with
  | zero => cases h
  | succ n ih =>
    cases hstep : step s with
    | refused r => exact absurd hstep (step_not_refused s r)
    | fault g =>
      rw [core_run_succ_fault n s g hstep] at h
      obtain ⟨w1, r1, w2, r2, rfl, -, -⟩ := hs
      rw [← h]
      exact core_run_succ_fault n _ g ((step_fault_withScratch s w1 r1 w2 r2 g).mpr hstep)
    | next u =>
      obtain ⟨u', hstep', hu⟩ := step_scratch hs hstep
      rw [core_run_succ n s u hstep] at h
      rw [core_run_succ n s' u' hstep']
      exact ih hu h

theorem observable_of_scratchAgrees {s s' : State} (h : s.ScratchAgrees s') : s'.observable = s.observable := by
  obtain ⟨w1, r1, w2, r2, rfl, -, -⟩ := h
  rfl

/-- Settles O57: idle engines read nothing of W and the working registers, and every step keeps the agreement in what they read. -/
theorem unspecifiedRegistersAreNeverObserved : Obligations.UnspecifiedRegistersAreNeverObserved := by
  unfold Obligations.UnspecifiedRegistersAreNeverObserved
  intro s w1 r1 w2 r2 n hidle1 hidle2
  have hs : s.ScratchAgrees (s.withScratch w1 r1 w2 r2) :=
    ⟨w1, r1, w2, r2, rfl, .of_rest (.inl (st_of_busy1_false hidle1)) _ _ _ _ _,
      .of_rest (.inl (st_of_busy2_false hidle2)) _ _ _ _ _⟩
  refine ⟨fun t ht => ?_, fun f => run_fault_scratch n hs⟩
  obtain ⟨t', ht', hagree⟩ := run_scratch n hs ht
  exact ⟨t', ht', observable_of_scratchAgrees hagree⟩

end Sys2Proof.Machine
end
